-- ==== Sys2Proof/Word.lean ====
section
/-!
DEFINITION. The two kinds of words of the block: the 8-bit byte of the command port (R43) and the
IEEE 754 binary64 value of every real-valued register (R6, R11). A binary64 register is read and written
whole (R49); its bits are named here only so that the arithmetic of Machine/Binary64.lean can be computed.
-/

namespace Sys2Proof

/-- One byte of the command port, taken as an unsigned value 0x00 to 0xFF (R43). -/
abbrev Byte := BitVec 8

/-- An IEEE 754 binary64 value, held as its 64-bit pattern (R6). A structure of its own, so that no
integer operation can be applied to it by mistake. -/
structure F64 where
  bits : BitVec 64
deriving DecidableEq, Repr, Inhabited

end Sys2Proof
end

