-- ==== Sys2Proof/Config.lean ====
section
/-!
DEFINITION. What an implementation or the environment fixes and the spec leaves open (R7, and the table
U1 to U16 of 93_implementation_defined.md). Every constant here is OPAQUE: nothing in Lean can evaluate one or
prove a value of it, so a statement about the model holds for every choice. Where the spec bounds the choice,
the bound is built in where the constant is used (Machine/Text.lean, Machine/Ops.lean).
-/

namespace Sys2Proof

/-- The arithmetic operations whose NaN results IEEE 754 leaves to the implementation. -/
inductive FloatOp
  | add | sub | mul
deriving DecidableEq, Repr

/-- Parameter `DUR_CAP_MODE` (R7, R216, U13): what a duration above 599940 s does. -/
inductive DurCapMode
  | reject | clamp
deriving DecidableEq, Repr, Inhabited

/-- One field of a query answer (R193): a formatted number, whose text the line must contain, or a
one-bit status, whose spelling is part of `QueryText` (R200, R203). -/
inductive Field
  | number (text : List Byte)
  | flag (b : Bool)
deriving DecidableEq, Repr

/-- A write to a heater or cooler collaborator (R279). -/
inductive DutyWrite
  | heater (duty : F64)
  | cooler (duty : F64)
deriving DecidableEq, Repr

namespace Config

/-- `SEED0` (R7, R301, U8): the seed of the filter at the power-up reset. DEDUCED, log entry 2. -/
opaque seed0 : F64

/-- The sign (bit 51) and the payload (bits 50 to 0) of the quiet NaN an operation answers with.
Free, but a function of the operation and its operands: R23 and R104 need equal operands to give equal bits.
PRESUMED, log entry 1. -/
opaque nanPattern : FloatOp → F64 → F64 → BitVec 52

/-- `ClampNaN()` (R137, U1): the value drawn for a NaN raw output. Its bound [0, 100] is built into
`Machine.drawClampNaN`. The argument counts the draws. DESIGN CHOICE, log entry 3. -/
opaque clampNaN : Nat → F64

/-- `readTemperature()` (R41, U14), when the environment's listed answers are used up.
DESIGN CHOICE, log entry 4. -/
opaque readTemperature : Nat → F64

/-- `readTachometerRpm()` (R41, U14), when the environment's listed answers are used up. -/
opaque readTachometerRpm : Nat → BitVec 32

/-- `getHeaterDuty()` (R41, U14), when the environment's listed answers are used up. -/
opaque getHeaterDuty : Nat → F64

/-- `getCoolerDuty()` (R41, U14), when the environment's listed answers are used up. -/
opaque getCoolerDuty : Nat → F64

/-- `FMT_W(code)` less its lower bound 2 (R7, R224, U11). DESIGN CHOICE, log entry 16. -/
opaque fmtWidthBeyondTwo : Byte → Nat

/-- `FMT_F(code)`, for code `t` less its lower bound 1 (R7, R206, U11). -/
opaque fmtFraction : Byte → Nat

/-- `UINT_DIGITS(code)` less its lower bound 1 (R7, R225, U11). -/
opaque uintDigitsBeyondOne : Byte → Nat

/-- The characters of `FloatToText(x, W, F)` for `x` negative, NaN or infinite (R224, U3): any string of the
length of a finite result. The last argument is the position in the string. DEDUCED, log entry 15. -/
opaque unformattableChar : F64 → Nat → Nat → Nat → BitVec 7

/-- `QueryText(code, fields)` (R7, R193, U10) around its formatted fields: the characters before field `n`,
and after the last field. The spelling of a status bit is among them. DESIGN CHOICE, log entry 16. -/
opaque queryGap : Byte → List Field → Nat → List (BitVec 7)

/-- `AckText(t, v)` (R7, R206) before its formatted value. -/
opaque setpointAckLead : F64 → List (BitVec 7)

/-- `AckText(t, v)` (R7, R206) after its formatted value. -/
opaque setpointAckTail : F64 → List (BitVec 7)

/-- `AckText(code, v)` (R7, R204, U10) of every code but `t`. -/
opaque ackText : Byte → F64 → List (BitVec 7)

/-- `HeaterCapErrText` (R7, R209, U10). -/
opaque heaterCapErrText : List (BitVec 7)

/-- `UNLOCK_OK(v)` (R7, R218, U12). DEDUCED, log entry 17. -/
opaque unlockOk : F64 → Bool

/-- `DUR_CAP_MODE` (R7, R216, U13); the spec's default is `reject`. DEDUCED, log entry 17. -/
opaque durCapMode : DurCapMode

/-- `ActuatorRoute` (R7, R9, U9): what the environment does with `ACT_WRITE(u)`. DEDUCED, log entry 18. -/
opaque actuatorRoute : F64 → List DutyWrite

end Config
end Sys2Proof
end

