-- ==== Sys2Proof/Machine/Binary64.lean ====
section
/-!
DEFINITION. IEEE 754 binary64 arithmetic (R8, D3; general knowledge G1, G2): addition, subtraction and
multiplication, each rounded separately to nearest, ties to even, with no fused multiply-add; the comparisons,
false on NaN; and rounding to an integer. Every finite binary64 is a whole number of units of 2^-1074, so a sum
is computed exactly in that unit, a product in units of 2^-2148, and one rounding function narrows both.
-/

namespace Sys2Proof.F64

/-- Sign bit (bit 63): true for negative. -/
def sign (x : F64) : Bool := 2 ^ 63 ≤ x.bits.toNat

/-- The pattern without its sign bit. Among patterns of one sign it orders the values. -/
def mag (x : F64) : Nat := x.bits.toNat % 2 ^ 63

/-- The magnitude pattern of infinity: exponent all ones, fraction zero. -/
def infMag : Nat := 2047 * 2 ^ 52

def isNaN (x : F64) : Bool := infMag < x.mag
def isInf (x : F64) : Bool := x.mag == infMag
def isFinite (x : F64) : Bool := x.mag < infMag
def isZero (x : F64) : Bool := x.mag == 0

/-- The pattern with sign `neg` and magnitude pattern `m`. -/
def ofMag (neg : Bool) (m : Nat) : F64 := ⟨BitVec.ofNat 64 ((if neg then 2 ^ 63 else 0) + m)⟩

def zero (neg : Bool) : F64 := ofMag neg 0
def inf (neg : Bool) : F64 := ofMag neg infMag
def neg (x : F64) : F64 := ofMag (!x.sign) x.mag

/-- How many units of 2^-1074 make 1.0. Irreducible, so that no proof step writes the number out. -/
@[irreducible] def unitsPerOne : Nat := 2 ^ 1074

/-- The magnitude of a finite value in units of 2^-1074. -/
def units (x : F64) : Nat :=
  if x.mag / 2 ^ 52 = 0 then x.mag
  else (2 ^ 52 + x.mag % 2 ^ 52) * 2 ^ (x.mag / 2 ^ 52 - 1)

/-- A finite value in units of 2^-1074. -/
def value (x : F64) : Int := if x.sign then -(x.units : Int) else x.units

/-- The integer nearest to `n / d`, ties to even. -/
def divTiesEven (n d : Nat) : Nat :=
  if 2 * (n % d) < d then n / d
  else if d < 2 * (n % d) then n / d + 1
  else n / d + n / d % 2

/-- The exponent step of the binade that holds `n / d` units: values there are multiples of 2^step units. -/
def binade (n d : Nat) : Nat := Nat.log2 (n / d) - 52

/-- The binary64 nearest to `n / d` units of 2^-1074, ties to even, with the given sign; beyond the
largest finite value, infinity. PRESUMED, log entry 23. -/
def roundUnits (neg : Bool) (n d : Nat) : F64 :=
  ofMag neg (min infMag (binade n d * 2 ^ 52 + divTiesEven n (d * 2 ^ binade n d)))

/-- A quiet NaN with the given sign and payload. PRESUMED, log entries 1 and 23. -/
def quietNaN (p : BitVec 52) : F64 :=
  ofMag (2 ^ 51 ≤ p.toNat) (infMag + 2 ^ 51 + p.toNat % 2 ^ 51)

/-- Addition, answering `nan` where the result is a NaN. -/
def addOr (nan a b : F64) : F64 :=
  if a.isNaN || b.isNaN then nan
  else if a.isInf then (if b.isInf && a.sign != b.sign then nan else a)
  else if b.isInf then b
  else if a.value + b.value = 0 then zero (a.sign && b.sign)
  else roundUnits (a.value + b.value < 0) (a.value + b.value).natAbs 1

/-- `a + b` (R8). -/
def add (a b : F64) : F64 := addOr (quietNaN (Config.nanPattern .add a b)) a b

/-- `a - b` (R8). -/
def sub (a b : F64) : F64 := addOr (quietNaN (Config.nanPattern .sub a b)) a b.neg

/-- `a * b` (R8). -/
def mul (a b : F64) : F64 :=
  if a.isNaN || b.isNaN then quietNaN (Config.nanPattern .mul a b)
  else if a.isInf || b.isInf then
    (if a.isZero || b.isZero then quietNaN (Config.nanPattern .mul a b) else inf (a.sign != b.sign))
  else roundUnits (a.sign != b.sign) (a.units * b.units) unitsPerOne

/-- A number that orders the values that are no NaN; both zeros are 0. -/
def key (x : F64) : Int := if x.sign then -(x.mag : Int) else x.mag

/-- `a < b` (R8): false when either is a NaN. -/
def lt (a b : F64) : Bool := !a.isNaN && !b.isNaN && decide (a.key < b.key)

/-- `a <= b` (R8): false when either is a NaN. -/
def le (a b : F64) : Bool := !a.isNaN && !b.isNaN && decide (a.key ≤ b.key)

/-- `a == b` (R8): false when either is a NaN, true on two zeros. -/
def eq (a b : F64) : Bool := !a.isNaN && !b.isNaN && decide (a.key = b.key)

/-- The integer nearest to a finite value, ties to even: `RoundToIntegerTiesEven` (R160). -/
def toIntTiesEven (x : F64) : Int :=
  if x.sign then -(divTiesEven x.units unitsPerOne : Int) else divTiesEven x.units unitsPerOne

/-- The binary64 nearest to the rational `n / d`, `d` positive, ties to even (R74). -/
def ofRatio (n d : Nat) : F64 := roundUnits false (n * unitsPerOne) d

end Sys2Proof.F64
end

