-- ==== Sys2Proof/Machine/Params.lean ====
section
/-!
DEFINITION. The fixed parameters of the block (R5), each real one by the binary64 pattern nearest to its
decimal literal, and the byte classes and letters of the command port (R70).
-/

namespace Sys2Proof.Param

/-- `BETA` = 0.1. -/
def beta : F64 := ⟨0x3FB999999999999A⟩
/-- `SP_MIN` = 23.0. -/
def spMin : F64 := ⟨0x4037000000000000⟩
/-- `SP_MAX` = 74.0. -/
def spMax : F64 := ⟨0x4052800000000000⟩
/-- `OUT_MIN` = 0.0, and the zero that resets and clears write. -/
def zero : F64 := ⟨0x0000000000000000⟩
/-- `OUT_MAX` = 100.0; also the factor of the duty queries (R195, D24). -/
def outMax : F64 := ⟨0x4059000000000000⟩
/-- `KP0` = 10.0. -/
def kp0 : F64 := ⟨0x4024000000000000⟩
/-- `KI0` = 0.1. -/
def ki0 : F64 := ⟨0x3FB999999999999A⟩
/-- `KD0` = 20.0. -/
def kd0 : F64 := ⟨0x4034000000000000⟩
/-- `SP0` = 0.0. -/
def sp0 : F64 := ⟨0x0000000000000000⟩
/-- `TICK_MS` = 100. -/
def tickMs : Int := 100
/-- `TACH_DIV` = 10. -/
def tachDiv : Nat := 10
/-- `UI_DIV` = 5. -/
def uiDiv : Nat := 5
/-- `VBUF_MAX` = 7. -/
def vbufMax : Nat := 7
/-- `HEATER_CAP` = 0.5. -/
def heaterCap : F64 := ⟨0x3FE0000000000000⟩
/-- `COOLER_MAX` = 1.0. -/
def coolerMax : F64 := ⟨0x3FF0000000000000⟩
/-- `DUR_MAX_S` = 599940.0. -/
def durMaxS : F64 := ⟨0x41224F0800000000⟩
/-- 1.0, the "on", "turn-on" and "start" value of `s`, `b` and `m`. -/
def one : F64 := ⟨0x3FF0000000000000⟩
/-- 2.0, the factor of the filter output (R101). -/
def two : F64 := ⟨0x4000000000000000⟩
/-- 1000.0, milliseconds in a second (R160). -/
def thousand : F64 := ⟨0x408F400000000000⟩

end Sys2Proof.Param

namespace Sys2Proof.Ascii

/-- SENTINEL, `#`. -/
def sentinel : Byte := 0x23
/-- TERMINATOR, `;`. -/
def terminator : Byte := 0x3B
/-- COMMA, the decimal separator. -/
def comma : Byte := 0x2C
def space : Byte := 0x20
def digit0 : Byte := 0x30
def digit9 : Byte := 0x39
/-- `X`, of the overflow marker `XXX` (R225). -/
def upperX : Byte := 0x58
def a : Byte := 0x61
def b : Byte := 0x62
def c : Byte := 0x63
def d : Byte := 0x64
def g : Byte := 0x67
def i : Byte := 0x69
def k : Byte := 0x6B
def m : Byte := 0x6D
def n : Byte := 0x6E
def p : Byte := 0x70
def r : Byte := 0x72
def s : Byte := 0x73
def t : Byte := 0x74

/-- DIGIT: 0x30 to 0x39 (R70). -/
def isDigit (x : Byte) : Bool := digit0.toNat ≤ x.toNat && x.toNat ≤ digit9.toNat

/-- A byte of the value field: DIGIT or COMMA (R71). -/
def isValueByte (x : Byte) : Bool := isDigit x || x == comma

end Sys2Proof.Ascii
end

