-- ==== Sys2Proof/Machine/Flags.lean ====
section
/-!
DEFINITION. The block has no condition codes (R20) and no operation writes a flag. What it has are the
one-bit conditions its rules test; each is written once here, over the binary64 comparisons of R8 (false on NaN).
-/

namespace Sys2Proof.Machine

/-- A setpoint is accepted: `23.0 <= v and v <= 74.0` (R129). -/
def setpointAccepted (v : F64) : Bool := F64.le Param.spMin v && F64.le v Param.spMax

/-- The anti-windup gate on the previous unclamped output: `0.0 <= P_POUT and P_POUT < 100.0` (R138). -/
def gateOpen (pOut : F64) : Bool := F64.le Param.zero pOut && F64.lt pOut Param.outMax

/-- A command value lies in [0, 100] (R40, R137, R144). -/
def inOutRange (u : F64) : Bool := F64.le Param.zero u && F64.le u Param.outMax

/-- A cooler duty is accepted: `v <= 1.0` (R208). -/
def coolerAccepted (v : F64) : Bool := F64.le v Param.coolerMax

/-- A heater duty is accepted: `v <= 0.5` (R209). -/
def heaterAccepted (v : F64) : Bool := F64.le v Param.heaterCap

/-- A duration is within the cap: `v <= 599940.0` (R216). -/
def durationAccepted (v : F64) : Bool := F64.le v Param.durMaxS

/-- The precondition of `TMR.START`: `0.0 <= durS <= 599940.0` (R160). -/
def durationInDomain (v : F64) : Bool := F64.le Param.zero v && F64.le v Param.durMaxS

/-- The range of `periodMs`: 1 to 2^31 - 1 (R165, D36). -/
def periodInDomain (p : Int) : Bool := decide (1 ≤ p) && decide (p ≤ 2 ^ 31 - 1)

/-- The value means 1: on, turn-on, start (R212, R214, R217). -/
def meansOne (v : F64) : Bool := F64.eq v Param.one

/-- The value means 0: off, turn-off, stop (R212, R214, R217). -/
def meansZero (v : F64) : Bool := F64.eq v Param.zero

/-- The tachometer is sampled: the divider is back at 0 (R250). -/
def tachDue (sDiv : BitVec 4) : Bool := sDiv == 0

/-- The display is refreshed: the divider is at 0 or at 5 (R250). -/
def uiDue (sDiv : BitVec 4) : Bool := sDiv == 0 || sDiv == 5

end Sys2Proof.Machine
end

