-- ==== Sys2Proof/Syntax.lean ====
section
/-!
DEFINITION. The block's complete operation set (R76): three events, thirteen internal operations, ten query
frames and eleven assignment frames, one constructor per row of spec/opcode_table.json. An operand of an event
or of an internal operation is a named argument of its rule; an assignment frame carries its value field as the
bytes received, of any number (R71).
-/

namespace Sys2Proof

inductive Instr
  /-- `RESET(seed)` (R300). -/
  | reset (seed : F64)
  /-- `SCHED.TICK` (R250). -/
  | schedTick
  /-- `CMD.BYTE(b)` (R191). -/
  | cmdByte (b : Byte)
  /-- `FILT.INIT(initial)` (R100). -/
  | filtInit (initial : F64)
  /-- `FILT.UPD(sample) -> y` (R101). -/
  | filtUpd (sample : F64)
  /-- `PID.SETSP(v) -> accepted` (R129). -/
  | pidSetsp (v : F64)
  /-- `PID.SETKP(v)` (R130). -/
  | pidSetkp (v : F64)
  /-- `PID.SETKI(v)` (R131). -/
  | pidSetki (v : F64)
  /-- `PID.SETKD(v)` (R132). -/
  | pidSetkd (v : F64)
  /-- `PID.ON` (R134). -/
  | pidOn
  /-- `PID.OFF` (R135). -/
  | pidOff
  /-- `PID.UPD(m) -> u` (R136). -/
  | pidUpd (m : F64)
  /-- `TMR.START(durS, act)`; `act` true is turn-on (R160, D33). -/
  | tmrStart (durS : F64) (act : Bool)
  /-- `TMR.ABORT` (R162). -/
  | tmrAbort
  /-- `TMR.TICK(periodMs)` (R165). -/
  | tmrTick (periodMs : Int)
  /-- `TMR.GETREM -> n` (R168). -/
  | tmrGetrem
  /-- `#gt;` (R194). -/
  | qTemp
  /-- `#gc;` (R195). -/
  | qCool
  /-- `#ga;` (R196). -/
  | qHeat
  /-- `#gp;` (R197). -/
  | qKp
  /-- `#gi;` (R198). -/
  | qKi
  /-- `#gd;` (R199). -/
  | qKd
  /-- `#gs;` (R200). -/
  | qOnoff
  /-- `#gg;` (R201). -/
  | qSp
  /-- `#gr;` (R202). -/
  | qRpm
  /-- `#gm;` (R203). -/
  | qTimer
  /-- `#st<value>;` (R206). -/
  | aSp (value : List Byte)
  /-- `#si<value>;` (R207). -/
  | aKi (value : List Byte)
  /-- `#sc<value>;` (R208). -/
  | aCool (value : List Byte)
  /-- `#sa<value>;` (R209). -/
  | aHeat (value : List Byte)
  /-- `#sp<value>;` (R210). -/
  | aKp (value : List Byte)
  /-- `#sd<value>;` (R211). -/
  | aKd (value : List Byte)
  /-- `#ss<value>;` (R212). -/
  | aOnoff (value : List Byte)
  /-- `#sb<value>;` (R214). -/
  | aTact (value : List Byte)
  /-- `#sn<value>;` (R216). -/
  | aTdur (value : List Byte)
  /-- `#sm<value>;` (R217). -/
  | aTrun (value : List Byte)
  /-- `#sk<value>;` (R218). -/
  | aUnlock (value : List Byte)
deriving DecidableEq, Repr

end Sys2Proof
end

