-- ==== Sys2Proof/WellFormed.lean ====
section
/-!
DEFINITION. When a term of `Instr` is an operation of the block: an assignment's value field holds only DIGIT and
COMMA bytes, of any number (R71); `TMR.START` and `TMR.TICK` have operands inside their domains (R160, R165,
U5, U6). Every other operand is unrestricted.
-/

namespace Sys2Proof

def Instr.wellFormed : Instr → Bool
  | .tmrStart durS _ => Machine.durationInDomain durS
  | .tmrTick periodMs => Machine.periodInDomain periodMs
  | .aSp value => value.all Ascii.isValueByte
  | .aKi value => value.all Ascii.isValueByte
  | .aCool value => value.all Ascii.isValueByte
  | .aHeat value => value.all Ascii.isValueByte
  | .aKp value => value.all Ascii.isValueByte
  | .aKd value => value.all Ascii.isValueByte
  | .aOnoff value => value.all Ascii.isValueByte
  | .aTact value => value.all Ascii.isValueByte
  | .aTdur value => value.all Ascii.isValueByte
  | .aTrun value => value.all Ascii.isValueByte
  | .aUnlock value => value.all Ascii.isValueByte
  | .reset _ => true
  | .schedTick => true
  | .cmdByte _ => true
  | .filtInit _ => true
  | .filtUpd _ => true
  | .pidSetsp _ => true
  | .pidSetkp _ => true
  | .pidSetki _ => true
  | .pidSetkd _ => true
  | .pidOn => true
  | .pidOff => true
  | .pidUpd _ => true
  | .tmrAbort => true
  | .tmrGetrem => true
  | .qTemp => true
  | .qCool => true
  | .qHeat => true
  | .qKp => true
  | .qKi => true
  | .qKd => true
  | .qOnoff => true
  | .qSp => true
  | .qRpm => true
  | .qTimer => true

end Sys2Proof
end

