-- ==== Sys2Proof/Decode.lean ====
section
/-!
DEFINITION. Frames to operations and back. The decoder is total on any byte list: it reads one frame from the
head, restarts at every SENTINEL (R71: a frame's start is its last SENTINEL, its end the first TERMINATOR), and
refuses by name what forms no frame (R77). Events and internal operations have no encoding (R76, D2): no bytes
decode to one, and `encode` gives none.
-/

namespace Sys2Proof

/-- Why a byte list does not begin with a frame: the cases of R77, and its end before a TERMINATOR. -/
inductive DecodeError
  | noSentinel
  | badSelector
  | badQueryCode
  | badAssignCode
  | badQueryEnd
  | badValueByte
  | incomplete
deriving DecidableEq, Repr

/-- The Get code set and the query each code stands for (R72). -/
def queryOf (code : Byte) : Option Instr :=
  if code = Ascii.t then some .qTemp
  else if code = Ascii.c then some .qCool
  else if code = Ascii.a then some .qHeat
  else if code = Ascii.p then some .qKp
  else if code = Ascii.i then some .qKi
  else if code = Ascii.d then some .qKd
  else if code = Ascii.s then some .qOnoff
  else if code = Ascii.g then some .qSp
  else if code = Ascii.r then some .qRpm
  else if code = Ascii.m then some .qTimer
  else none

/-- The Set code set and the assignment each code stands for (R73). -/
def assignOf (code : Byte) (value : List Byte) : Option Instr :=
  if code = Ascii.t then some (.aSp value)
  else if code = Ascii.i then some (.aKi value)
  else if code = Ascii.c then some (.aCool value)
  else if code = Ascii.a then some (.aHeat value)
  else if code = Ascii.p then some (.aKp value)
  else if code = Ascii.d then some (.aKd value)
  else if code = Ascii.s then some (.aOnoff value)
  else if code = Ascii.b then some (.aTact value)
  else if code = Ascii.n then some (.aTdur value)
  else if code = Ascii.m then some (.aTrun value)
  else if code = Ascii.k then some (.aUnlock value)
  else none

/-- How far into a frame the decoder is. -/
inductive DecodeState
  | ready
  | get
  | set
  | param (code : Byte)
  | value (code : Byte) (soFar : List Byte)
deriving DecidableEq, Repr

/-- Decode from within a frame, answering the operation and the bytes after its TERMINATOR. -/
def decodeFrom : DecodeState → List Byte → Except DecodeError (Instr × List Byte)
  | _, [] => .error .incomplete
  | st, x :: rest =>
    if x = Ascii.sentinel then decodeFrom .ready rest
    else
      match st with
      | .ready =>
        if x = Ascii.g then decodeFrom .get rest
        else if x = Ascii.s then decodeFrom .set rest
        else .error .badSelector
      | .get => if (queryOf x).isSome then decodeFrom (.param x) rest else .error .badQueryCode
      | .set => if (assignOf x []).isSome then decodeFrom (.value x []) rest else .error .badAssignCode
      | .param code =>
        if x = Ascii.terminator then
          match queryOf code with
          | some i => .ok (i, rest)
          | none => .error .badQueryCode
        else .error .badQueryEnd
      | .value code soFar =>
        if Ascii.isValueByte x then decodeFrom (.value code (soFar ++ [x])) rest
        else if x = Ascii.terminator then
          match assignOf code soFar with
          | some i => .ok (i, rest)
          | none => .error .badAssignCode
        else .error .badValueByte

/-- Decode the frame at the head of a byte list. -/
def decode : List Byte → Except DecodeError (Instr × List Byte)
  | [] => .error .incomplete
  | x :: rest => if x = Ascii.sentinel then decodeFrom .ready rest else .error .noSentinel

/-- The frame of a query (R71 format QUERY). -/
def queryFrame (code : Byte) : List Byte := [Ascii.sentinel, Ascii.g, code, Ascii.terminator]

/-- The frame of an assignment (R71 format ASSIGN). -/
def assignFrame (code : Byte) (value : List Byte) : List Byte :=
  [Ascii.sentinel, Ascii.s, code] ++ value ++ [Ascii.terminator]

/-- The bytes of an operation's frame; none for an event or an internal operation (R76). -/
def encode : Instr → Option (List Byte)
  | .qTemp => some (queryFrame Ascii.t)
  | .qCool => some (queryFrame Ascii.c)
  | .qHeat => some (queryFrame Ascii.a)
  | .qKp => some (queryFrame Ascii.p)
  | .qKi => some (queryFrame Ascii.i)
  | .qKd => some (queryFrame Ascii.d)
  | .qOnoff => some (queryFrame Ascii.s)
  | .qSp => some (queryFrame Ascii.g)
  | .qRpm => some (queryFrame Ascii.r)
  | .qTimer => some (queryFrame Ascii.m)
  | .aSp value => some (assignFrame Ascii.t value)
  | .aKi value => some (assignFrame Ascii.i value)
  | .aCool value => some (assignFrame Ascii.c value)
  | .aHeat value => some (assignFrame Ascii.a value)
  | .aKp value => some (assignFrame Ascii.p value)
  | .aKd value => some (assignFrame Ascii.d value)
  | .aOnoff value => some (assignFrame Ascii.s value)
  | .aTact value => some (assignFrame Ascii.b value)
  | .aTdur value => some (assignFrame Ascii.n value)
  | .aTrun value => some (assignFrame Ascii.m value)
  | .aUnlock value => some (assignFrame Ascii.k value)
  | .reset _ => none
  | .schedTick => none
  | .cmdByte _ => none
  | .filtInit _ => none
  | .filtUpd _ => none
  | .pidSetsp _ => none
  | .pidSetkp _ => none
  | .pidSetki _ => none
  | .pidSetkd _ => none
  | .pidOn => none
  | .pidOff => none
  | .pidUpd _ => none
  | .tmrStart _ _ => none
  | .tmrAbort => none
  | .tmrTick _ => none
  | .tmrGetrem => none

/-- The `count` bytes of a number, most significant first: the table lays a frame out with its first received
byte most significant. DEDUCED, log entry 7. -/
def bytesOf : Nat → Nat → List Byte
  | 0, _ => []
  | count + 1, w => BitVec.ofNat 8 (w / 2 ^ (8 * count)) :: bytesOf count w

/-- The frame a table word stands for. The table gives an ASSIGN row only its three-byte prefix; the rest of
its shortest frame is an empty value field and the TERMINATOR (R71), which is supplied here.
DESIGN CHOICE, log entry 7. -/
def tableFrame (nbits w : Nat) : List Byte :=
  if nbits = 24 then bytesOf 3 w ++ [Ascii.terminator] else bytesOf (nbits / 8) w

/-- The operation the decoder reads from a word of spec/opcode_table.json. -/
def decodeTableWord (nbits w : Nat) : Option Instr :=
  match decode (tableFrame nbits w) with
  | .ok (i, []) => some i
  | .ok (_, _ :: _) => none
  | .error _ => none

end Sys2Proof
end

