-- ==== Sys2Proof/Machine/State.lean ====
section
/-!
DEFINITION. The state of the block as plain data: every register of 10_state.md (R22, R24, R26, R28, R29), the
output trace (R40), what the environment has ready for the block (R41, R42), and the value the last operation
with a result answered. Also why a run can stop, and the state right after the power-up `RESET` (R301).
-/

namespace Sys2Proof.Machine

/-- `C_STATE` (R29). Its six states are named; their numeric codes are the spec's naming only. -/
inductive ParserState
  | idle | ready | get | set | param | value
deriving DecidableEq, Repr

/-- An input event with its payload, in the program syntax of R80 (R42, R43). -/
inductive Event
  | reset (seed : F64)
  | tick
  | byte (b : Byte)
deriving DecidableEq, Repr

/-- An output event (R40). -/
inductive OutEvent
  | actWrite (u : F64)
  | heaterSet (v : F64)
  | coolerSet (v : F64)
  | line (text : List Byte)
  | uiRefresh
deriving DecidableEq, Repr

/-- The value an internal operation answers (R76: `y`, `accepted`, `u`, `n`). -/
inductive Result
  | none
  | real (x : F64)
  | accepted (b : Bool)
  | remaining (n : BitVec 32)
deriving DecidableEq, Repr

/-- What the environment holds for the block: the events it will deliver, oldest first (R56), and the answers
it will give to the draws (R41), first answer first. Where a list is empty the answer is a free value of
Config, applied to the number of draws made so far. None of this is a register of the block.
DESIGN CHOICE, log entries 4 and 5. -/
structure Env where
  events : List Event
  temperatures : List F64
  rpms : List (BitVec 32)
  heaterDuties : List F64
  coolerDuties : List F64
  draws : Nat
deriving DecidableEq, Repr

/-- The state: registers under the spec's names, one-bit registers as Bool (R11: 1 is true), then the model's
own `out`, `env` and `res`. DESIGN CHOICE, log entries 9, 10 and 19. -/
structure State where
  /-- `F_EMA` -/
  fEma : F64
  /-- `F_DBASE` -/
  fDbase : F64
  /-- `F_DEMA` -/
  fDema : F64
  /-- `F_OUT` -/
  fOut : F64
  /-- `P_KP` -/
  pKp : F64
  /-- `P_KI` -/
  pKi : F64
  /-- `P_KD` -/
  pKd : F64
  /-- `P_SP` -/
  pSp : F64
  /-- `P_INT` -/
  pInt : F64
  /-- `P_PERR` -/
  pPerr : F64
  /-- `P_POUT`, unclamped -/
  pPout : F64
  /-- `P_EN` -/
  pEn : Bool
  /-- `P_ACT` -/
  pAct : F64
  /-- `T_ARM` -/
  tArm : Bool
  /-- `T_REM`, two's complement -/
  tRem : BitVec 32
  /-- `T_ACT`, true is turn-on -/
  tAct : Bool
  /-- `T_CFG_DUR` -/
  tCfgDur : F64
  /-- `T_CFG_ACT`, true is turn-on -/
  tCfgAct : Bool
  /-- `S_DIV` -/
  sDiv : BitVec 4
  /-- `R_RPM` -/
  rRpm : BitVec 32
  /-- `C_STATE` -/
  cState : ParserState
  /-- `C_CODE` -/
  cCode : Byte
  /-- `C_LEN` -/
  cLen : BitVec 3
  /-- `C_BUF` -/
  cBuf : Vector Byte 7
  /-- `C_UNLOCK` -/
  cUnlock : Bool
  /-- The output trace, oldest event first (R40, R57). -/
  out : List OutEvent
  /-- The environment's side of the ports. -/
  env : Env
  /-- The value answered by the last internal operation run on its own. -/
  res : Result
deriving DecidableEq, Repr

/-- The states the invariants of 10_state.md exclude (R270: `Unreachable(reason)`).
DEDUCED, log entries 11 and 12. -/
inductive Unreachable
  /-- `TimerNegative`: `TMR.GETREM` on an armed timer with a negative count (R168, U4). -/
  | timerNegative
  /-- `TMR.TICK` on an armed timer whose count less the period leaves the 32-bit range (R165: it cannot; R8). -/
  | timerRange
  /-- A dispatch of a `C_CODE` outside the code set of its parser state (R30). -/
  | paramCode
deriving DecidableEq, Repr

/-- Why the machine stops. -/
inductive Fault
  /-- The outcome `Unreachable(reason)` of R270. Raised by `TMR.GETREM` and `Q_TIMER` (timerNegative), by
  `TMR.TICK` and `SCHED.TICK` (timerRange) and by `CMD.BYTE` (paramCode, timerNegative), each only in a state
  that breaks an invariant of 10_state.md. Safe: no reachable state raises it. -/
  | unreachable (why : Unreachable)
deriving DecidableEq, Repr

/-- Why an operation is refused. -/
inductive Refusal
  /-- An instruction without a meaning, raised by an arm of `exec`. Safe. No arm raises it. -/
  | notModelled (mnemonic : String)
  /-- `TMR.START` invoked with a duration outside [0.0, 599940.0] or NaN, which the spec says a model refuses
  (R160, U5). Also `A_TRUN` when `T_CFG_DUR` is such, a state no run reaches (R26). Safe. -/
  | durationDomain
  /-- `TMR.TICK` invoked with a period outside 1 to 2^31 - 1, which the spec says a model refuses (R165, U6). Safe. -/
  | periodDomain
  /-- An assignment whose value field holds a byte that is neither DIGIT nor COMMA: no frame of R71 (an
  ill-formed term, or a `C_BUF` no run reaches, R29). Raised by every assignment. Safe. -/
  | valueField
deriving DecidableEq, Repr

/-- The block right after the power-up `RESET` (R301): every register at the value of R301 with the seed
`SEED0`; nothing emitted, nothing pending at the ports, no result answered. Log entries 2 and 20. -/
def State.reset : State where
  fEma := Config.seed0
  fDbase := Config.seed0
  fDema := Config.seed0
  fOut := Config.seed0
  pKp := Param.kp0
  pKi := Param.ki0
  pKd := Param.kd0
  pSp := Param.sp0
  pInt := Param.zero
  pPerr := Param.zero
  pPout := Param.zero
  pEn := false
  pAct := Param.zero
  tArm := false
  tRem := 0
  tAct := false
  tCfgDur := Param.zero
  tCfgAct := false
  sDiv := 0
  rRpm := 0
  cState := .idle
  cCode := 0
  cLen := 0
  cBuf := Vector.replicate 7 0
  cUnlock := false
  out := []
  env := { events := [], temperatures := [], rpms := [], heaterDuties := [], coolerDuties := [], draws := 0 }
  res := .none

/-- The result of one step or operation. -/
abbrev Outcome := Host.Outcome State Fault Refusal

end Sys2Proof.Machine
end

