-- ==== Sys2Proof/Machine/Ops.lean ====
section
/-!
DEFINITION. The shared operations of the pseudocode (R8): `emit`, `draw`, `raise`, `invoke`, and the taking of an
input event (R275). The block has no traps and no memory: what stands in for exception entry is `takeEvent`,
which saves nothing, and what stands in for the return is the end of the transaction, which restores nothing (R276).
-/

namespace Sys2Proof.Machine

/-- `emit`: one more event at the end of the output trace (R40, R57). -/
@[simps] def emit (e : OutEvent) (s : State) : State := { s with out := s.out ++ [e] }

/-- `raise Unreachable(why)` (R270). -/
def raise (why : Unreachable) : Outcome := .fault (.unreachable why)

/-- Goes on with the state an invoked operation left, or ends as it ended (R8 `invoke`). -/
def andThen (o : Outcome) (k : State → Outcome) : Outcome :=
  match o with
  | .next s => k s
  | .fault r => .fault r
  | .refused r => .refused r

/-- Leaves the value an internal operation answers where it can be read. DESIGN CHOICE, log entry 9. -/
@[simps] def answer (r : Result) (s : State) : State := { s with res := r }

/-- An input event is taken: it leaves the environment's list, and nothing is saved and no register changes (R275). -/
@[simps] def takeEvent (rest : List Event) (s : State) : State := { s with env := { s.env with events := rest } }

/-- The first of the listed answers, or the free value where none is listed. DESIGN CHOICE, log entry 4. -/
def firstAnswer {α : Type} (answers : List α) (free : α) : α :=
  match answers with
  | [] => free
  | a :: _ => a

/-- `draw readTemperature()` (R41). -/
@[simps] def drawTemperature (s : State) : F64 × State :=
  (firstAnswer s.env.temperatures (Config.readTemperature s.env.draws),
    { s with env := { s.env with temperatures := s.env.temperatures.tail, draws := s.env.draws + 1 } })

/-- `draw readTachometerRpm()` (R41). -/
@[simps] def drawTachometerRpm (s : State) : BitVec 32 × State :=
  (firstAnswer s.env.rpms (Config.readTachometerRpm s.env.draws),
    { s with env := { s.env with rpms := s.env.rpms.tail, draws := s.env.draws + 1 } })

/-- `draw getHeaterDuty()` (R41). -/
@[simps] def drawHeaterDuty (s : State) : F64 × State :=
  (firstAnswer s.env.heaterDuties (Config.getHeaterDuty s.env.draws),
    { s with env := { s.env with heaterDuties := s.env.heaterDuties.tail, draws := s.env.draws + 1 } })

/-- `draw getCoolerDuty()` (R41). -/
@[simps] def drawCoolerDuty (s : State) : F64 × State :=
  (firstAnswer s.env.coolerDuties (Config.getCoolerDuty s.env.draws),
    { s with env := { s.env with coolerDuties := s.env.coolerDuties.tail, draws := s.env.draws + 1 } })

/-- `draw ClampNaN()` (R137, U1): a free value of [0.0, 100.0]. Every value of the range can be drawn, and
nothing else is known of it. DESIGN CHOICE, log entry 3. -/
@[simps] def drawClampNaN (s : State) : F64 × State :=
  (if inOutRange (Config.clampNaN s.env.draws) then Config.clampNaN s.env.draws else Param.zero,
    { s with env := { s.env with draws := s.env.draws + 1 } })

/-- What one output event makes the environment write to the heater and the cooler (R9, R40, R317); an
`ACT_WRITE` goes where the open parameter `ActuatorRoute` sends it. DEDUCED, log entry 18. -/
def dutyWrites : OutEvent → List DutyWrite
  | .actWrite u => Config.actuatorRoute u
  | .heaterSet v => [.heater v]
  | .coolerSet v => [.cooler v]
  | .line _ => []
  | .uiRefresh => []

end Sys2Proof.Machine
end

