-- ==== Sys2Proof/Machine/Text.lean ====
section
/-!
DEFINITION. Numbers and text: `TextToFloat` (R74), `FloatToText` (R224), `UIntToText` (R225), the format
parameters with the bounds the spec sets (R7, D23), and the three kinds of lines (R193, R204, R209).
-/

namespace Sys2Proof.Text

/-- The value of a DIGIT byte. -/
def digitValue (b : Byte) : Nat := b.toNat - Ascii.digit0.toNat

/-- The DIGIT byte of a value below ten. -/
def digitByte (n : Nat) : Byte := BitVec.ofNat 8 (Ascii.digit0.toNat + n)

/-- The decimal value of a string of digits, 0 if empty, most significant first (R47, R74). -/
def decimal (ds : List Byte) : Nat := ds.foldl (fun acc b => 10 * acc + digitValue b) 0

/-- The integer digits of a value string: up to the first COMMA. -/
def intDigits (s : List Byte) : List Byte := s.takeWhile (· != Ascii.comma)

/-- The fraction digits of a value string: between the first COMMA and the second, or the end. -/
def fracDigits (s : List Byte) : List Byte :=
  ((s.dropWhile (· != Ascii.comma)).drop 1).takeWhile (· != Ascii.comma)

/-- The numerator of the number a value string stands for, over `10 ^ (number of fraction digits)`. -/
def numerator (s : List Byte) : Nat :=
  decimal (intDigits s) * 10 ^ (fracDigits s).length + decimal (fracDigits s)

/-- `TextToFloat` (R74): the binary64 nearest to the decimal number, ties to even. R75 item 4 calls 0.00001 the smallest
positive result, but R74 gives 0.000001 for the seven characters `,000001`: that R74 is followed is the model's
choice. DEDUCED, log entry 26. -/
def textToFloat (s : List Byte) : F64 :=
  F64.ofRatio (numerator s) (10 ^ (fracDigits s).length)

/-- Decimal digits of `n`, no leading zeros, "0" for 0; `fuel` bounds their number. -/
def digitsWithin : Nat → Nat → List Byte
  | 0, _ => []
  | fuel + 1, n => if n < 10 then [digitByte n] else digitsWithin fuel (n / 10) ++ [digitByte (n % 10)]

/-- Decimal digits of `n`, no leading zeros, "0" for 0 (R224). -/
def digits (n : Nat) : List Byte := digitsWithin (Nat.log2 n + 1) n

/-- `s` left-padded with `c` to `w` characters. -/
def padLeft (w : Nat) (c : Byte) (s : List Byte) : List Byte := List.replicate (w - s.length) c ++ s

/-- ASCII characters as bytes: every emitted line is an ASCII string (R40). -/
def ascii (cs : List (BitVec 7)) : List Byte := cs.map (fun c => c.setWidth 8)

/-- The integer nearest to `x * 10^F`, exactly from the binary64 value, ties away from zero (R224). -/
def scaledDecimal (x : F64) (f : Nat) : Nat := (2 * (x.units * 10 ^ f) + F64.unitsPerOne) / (2 * F64.unitsPerOne)

/-- The length of every `FloatToText(x, W, F)` (R224, U3). -/
def fieldLength (w f : Nat) : Nat := if f = 0 then w else w + f

/-- Whether R224 gives the text: finite and `x >= 0` (both zeros included). DEDUCED, log entry 15. -/
def formattable (x : F64) : Bool := x.isFinite && (!x.sign || x.isZero)

/-- `FloatToText` of the scaled decimal `n` = nearest integer to `x * 10^F` (R224). -/
def formatScaled (n w f : Nat) : List Byte :=
  let ip := digits (n / 10 ^ f)
  let nine := digitByte 9
  let intpart := if w ≤ ip.length then List.replicate (w - 1) nine else padLeft (w - 1) Ascii.space ip
  let frac := if w ≤ ip.length then List.replicate f nine else padLeft f Ascii.digit0 (digits (n % 10 ^ f))
  if f = 0 then intpart ++ [Ascii.space] else intpart ++ [Ascii.comma] ++ frac

/-- `FloatToText(x, W, F)` (R224). Where no source says how `x` is formatted (negative, NaN, infinite), any
string of the same length: a free value (U3). -/
def floatToText (x : F64) (w f : Nat) : List Byte :=
  if formattable x then formatScaled (scaledDecimal x f) w f
  else ascii ((List.range (fieldLength w f)).map (Config.unformattableChar x w f))

/-- `UIntToText(n, N)` (R225). -/
def uintToText (n digitCount : Nat) : List Byte :=
  if 10 ^ digitCount ≤ n then List.replicate 3 Ascii.upperX
  else padLeft digitCount Ascii.digit0 (digits n)

/-- `FMT_W(code)`, at least 2 (R224). -/
def fmtW (code : Byte) : Nat := Config.fmtWidthBeyondTwo code + 2

/-- `FMT_F(code)`, at least 1 for `t` (R206, D23). -/
def fmtF (code : Byte) : Nat := Config.fmtFraction code + (if code = Ascii.t then 1 else 0)

/-- `UINT_DIGITS(code)`, at least 1 (R225). -/
def uintDigits (code : Byte) : Nat := Config.uintDigitsBeyondOne code + 1

/-- A formatted real field of the query or acknowledgement of `code`. -/
def realField (code : Byte) (x : F64) : List Byte := floatToText x (fmtW code) (fmtF code)

/-- The fields from number `n` on, each formatted one whole, with free text around them. -/
def joinFields (gap : Nat → List (BitVec 7)) : Nat → List Field → List Byte
  | n, [] => ascii (gap n)
  | n, .number t :: fs => ascii (gap n) ++ t ++ joinFields gap (n + 1) fs
  | n, .flag _ :: fs => ascii (gap n) ++ joinFields gap (n + 1) fs

/-- `QueryText(code, fields)` (R193): free text that contains each formatted field. DESIGN CHOICE, log entry 16. -/
def queryText (code : Byte) (fields : List Field) : List Byte :=
  joinFields (Config.queryGap code fields) 0 fields

/-- `AckText(code, v)` (R204): free text, which for code `t` contains the formatted setpoint (R206).
DESIGN CHOICE, log entry 16. -/
def ackText (code : Byte) (v : F64) : List Byte :=
  if code = Ascii.t then
    ascii (Config.setpointAckLead v) ++ realField code v ++ ascii (Config.setpointAckTail v)
  else ascii (Config.ackText code v)

/-- `HeaterCapErrText` (R209). -/
def heaterCapErrText : List Byte := ascii Config.heaterCapErrText

end Sys2Proof.Text
end

