-- ==== Sys2Proof/Machine/Operands.lean ====
section
/-!
DEFINITION. Operand assembly: the one operand form that is not a named argument is the value field of an
assignment frame, whose first seven bytes are read by `TextToFloat` (R71, R74).
-/

namespace Sys2Proof.Machine

/-- The characters of a value field that are kept: the first `VBUF_MAX` = 7 (R71, R192). -/
def keptChars (value : List Byte) : List Byte := value.take Param.vbufMax

/-- Runs a dispatch rule on the parsed value (R204). A field with a byte that is neither DIGIT nor COMMA is in no
frame, and is refused. DEDUCED, log entries 8 and 13. -/
def withValue (value : List Byte) (rule : F64 → Outcome) : Outcome :=
  if value.all Ascii.isValueByte then rule (Text.textToFloat (keptChars value)) else .refused .valueField

/-- The meaningful part of the value buffer: `C_BUF[0 .. C_LEN-1]` (R29). -/
def valueBuffer (s : State) : List Byte := s.cBuf.toList.take s.cLen.toNat

end Sys2Proof.Machine
end

