-- ==== Sys2Proof/Machine/Pid.lean ====
section
/-!
DEFINITION. The PID controller (41_pid.md): four setters, on, off and update.
-/

namespace Sys2Proof.Machine

/-- `PID.SETSP(v) -> accepted` (R129): an accepted value clears the integral, even an equal one (D37). -/
def pidSetsp (v : F64) (s : State) : Bool × State :=
  if setpointAccepted v then (true, { s with pSp := v, pInt := Param.zero }) else (false, s)

/-- `PID.SETKP(v)` (R130). -/
@[simps] def pidSetkp (v : F64) (s : State) : State := { s with pKp := v }

/-- `PID.SETKI(v)` (R131). -/
@[simps] def pidSetki (v : F64) (s : State) : State := { s with pKi := v }

/-- `PID.SETKD(v)` (R132). -/
@[simps] def pidSetkd (v : F64) (s : State) : State := { s with pKd := v }

/-- `PID.ON` (R134), unconditional: its callers guard it. -/
@[simps] def pidOn (s : State) : State :=
  { s with pPerr := Param.zero, pInt := Param.zero, pPout := Param.zero, pEn := true }

/-- `PID.OFF` (R135): runs the same way when the controller is already off. -/
@[simps] def pidOff (s : State) : State :=
  { emit (.actWrite Param.zero) s with pAct := Param.zero, pEn := false }

/-- `Clamp(raw)` (R137). -/
def clamp (raw : F64) (s : State) : F64 × State :=
  if raw.isNaN then drawClampNaN s
  else if F64.lt raw Param.zero then (Param.zero, s)
  else if F64.lt Param.outMax raw then (Param.outMax, s)
  else (raw, s)

/-- The error of one control step: `r[P_SP] - m` (R136 step 1). -/
def pidError (m : F64) (s : State) : F64 := F64.sub s.pSp m

/-- The integral after the anti-windup gate (R136 step 2, R138). -/
def pidIntegral (m : F64) (s : State) : F64 :=
  if gateOpen s.pPout then F64.add s.pInt (pidError m s) else s.pInt

/-- The unclamped output `((Kp*e) + (Ki*I)) + (Kd*d)` (R136 steps 3 and 4). -/
def pidRaw (m : F64) (s : State) : F64 :=
  F64.add
    (F64.add (F64.mul s.pKp (pidError m s)) (F64.mul s.pKi (pidIntegral m s)))
    (F64.mul s.pKd (F64.sub (pidError m s) s.pPerr))

/-- `PID.UPD(m) -> u` (R136). -/
def pidUpd (m : F64) (s : State) : F64 × State :=
  if s.pEn then
    clamp (pidRaw m s) { s with pInt := pidIntegral m s, pPerr := pidError m s, pPout := pidRaw m s }
  else (Param.zero, s)

/-- PID.SETSP (R129). -/
def execPidSetsp (v : F64) (s : State) : Outcome :=
  let r := pidSetsp v s
  .next (answer (.accepted r.1) r.2)

/-- PID.SETKP (R130). -/
def execPidSetkp (v : F64) (s : State) : Outcome := .next (pidSetkp v s)

/-- PID.SETKI (R131). -/
def execPidSetki (v : F64) (s : State) : Outcome := .next (pidSetki v s)

/-- PID.SETKD (R132). -/
def execPidSetkd (v : F64) (s : State) : Outcome := .next (pidSetkd v s)

/-- PID.ON (R134). -/
def execPidOn (s : State) : Outcome := .next (pidOn s)

/-- PID.OFF (R135). -/
def execPidOff (s : State) : Outcome := .next (pidOff s)

/-- PID.UPD (R136). -/
def execPidUpd (m : F64) (s : State) : Outcome :=
  let r := pidUpd m s
  .next (answer (.real r.1) r.2)

end Sys2Proof.Machine
end

