-- ==== Sys2Proof/Machine/Timer.lean ====
section
/-!
DEFINITION. The deadline timer (42_timer.md): start, abort, tick and get-remaining.
-/

namespace Sys2Proof.Machine

/-- Seconds to milliseconds: the binary64 product, then the nearest integer, ties to even (R160, D8). -/
def millisOf (durS : F64) : Int := (F64.mul durS Param.thousand).toIntTiesEven

/-- `TMR.START(durS, act)` (R160): arms whatever the timer was doing before. Outside its domain the spec has a
model refuse it (U5). DEDUCED, log entry 14. -/
def tmrStart (durS : F64) (act : Bool) (s : State) : Outcome :=
  if durationInDomain durS then
    .next { s with tRem := BitVec.ofInt 32 (millisOf durS), tAct := act, tArm := true }
  else .refused .durationDomain

/-- `TMR.ABORT` (R162): the count and the action stay, stale and unread. DEDUCED, log entry 21. -/
@[simps] def tmrAbort (s : State) : State := { s with tArm := false }

/-- The action of a fire (R165): turn-off always, turn-on only when the controller is off. -/
def tmrAction (s : State) : State :=
  if s.tAct = false then pidOff s else if s.pEn = false then pidOn s else s

/-- `TMR.TICK(periodMs)` (R165). A period outside its range is refused (U6). The difference fits 32 bits for every
count an armed timer holds (R27); a count for which it does not is unreachable. DEDUCED, log entries 11 and 14. -/
def tmrTick (periodMs : Int) (s : State) : Outcome :=
  if periodInDomain periodMs = false then .refused .periodDomain
  else if s.tArm = false then .next s
  else if s.tRem.toInt - periodMs < -(2 ^ 31) then raise .timerRange
  else
    let counted := { s with tRem := BitVec.ofInt 32 (s.tRem.toInt - periodMs) }
    if s.tRem.toInt - periodMs ≤ 0 then .next { tmrAction counted with tArm := false } else .next counted

/-- `TMR.GETREM -> n` (R168). -/
def tmrGetrem (s : State) : Except Unreachable (BitVec 32) :=
  if s.tArm = false then .ok 0
  else if s.tRem.toInt < 0 then .error .timerNegative
  else .ok s.tRem

/-- TMR.START (R160). -/
def execTmrStart (durS : F64) (act : Bool) (s : State) : Outcome := tmrStart durS act s

/-- TMR.ABORT (R162). -/
def execTmrAbort (s : State) : Outcome := .next (tmrAbort s)

/-- TMR.TICK (R165). -/
def execTmrTick (periodMs : Int) (s : State) : Outcome := tmrTick periodMs s

/-- TMR.GETREM (R168). -/
def execTmrGetrem (s : State) : Outcome :=
  match tmrGetrem s with
  | .ok n => .next (answer (.remaining n) s)
  | .error why => raise why

end Sys2Proof.Machine
end

