-- ==== Sys2Proof/Machine/Assign.lean ====
section
/-!
DEFINITION. Assignment dispatch (R204 to R218). Each rule acknowledges a success with one line; only the
heater-cap rejection speaks (C4), every other rejection changes nothing and emits nothing.
-/

namespace Sys2Proof.Machine

/-- `emit LINE(AckText(code, v))` (R204). -/
def acknowledge (code : Byte) (v : F64) (s : State) : State := emit (.line (Text.ackText code v)) s

/-- A_SP (R206). -/
def execASp (value : List Byte) (s : State) : Outcome :=
  withValue value fun v =>
    let r := pidSetsp v s
    .next (if r.1 then acknowledge Ascii.t v r.2 else r.2)

/-- A_KI (R207). -/
def execAKi (value : List Byte) (s : State) : Outcome :=
  withValue value fun v => .next (acknowledge Ascii.i v (pidSetki v s))

/-- A_COOL (R208). -/
def execACool (value : List Byte) (s : State) : Outcome :=
  withValue value fun v =>
    .next (if coolerAccepted v then acknowledge Ascii.c v (emit (.coolerSet v) s) else s)

/-- A_HEAT (R209): the one rejection with a line. -/
def execAHeat (value : List Byte) (s : State) : Outcome :=
  withValue value fun v =>
    .next (if heaterAccepted v then acknowledge Ascii.a v (emit (.heaterSet v) s)
      else emit (.line Text.heaterCapErrText) s)

/-- A_KP (R210). -/
def execAKp (value : List Byte) (s : State) : Outcome :=
  withValue value fun v => .next (acknowledge Ascii.p v (pidSetkp v s))

/-- A_KD (R211). -/
def execAKd (value : List Byte) (s : State) : Outcome :=
  withValue value fun v => .next (acknowledge Ascii.d v (pidSetkd v s))

/-- A_ONOFF (R212): `PID.ON` only from off (D15). -/
def execAOnoff (value : List Byte) (s : State) : Outcome :=
  withValue value fun v =>
    .next (
      if meansOne v then acknowledge Ascii.s v (if s.pEn = false then pidOn s else s)
      else if meansZero v then acknowledge Ascii.s v (pidOff s)
      else s)

/-- A_TACT (R214): stages the action; the running timer keeps its own. -/
def execATact (value : List Byte) (s : State) : Outcome :=
  withValue value fun v =>
    .next (
      if meansOne v then acknowledge Ascii.b v { s with tCfgAct := true }
      else if meansZero v then acknowledge Ascii.b v { s with tCfgAct := false }
      else s)

/-- A_TDUR (R216): stages the duration; above the cap, as `DUR_CAP_MODE` says. -/
def execATdur (value : List Byte) (s : State) : Outcome :=
  withValue value fun v =>
    .next (
      if durationAccepted v then acknowledge Ascii.n v { s with tCfgDur := v }
      else
        match Config.durCapMode with
        | .clamp => acknowledge Ascii.n Param.durMaxS { s with tCfgDur := Param.durMaxS }
        | .reject => s)

/-- A_TRUN (R217): start with the staged duration and action, or stop. -/
def execATrun (value : List Byte) (s : State) : Outcome :=
  withValue value fun v =>
    if meansOne v then andThen (tmrStart s.tCfgDur s.tCfgAct s) fun s' => .next (acknowledge Ascii.m v s')
    else if meansZero v then .next (acknowledge Ascii.m v (tmrAbort s))
    else .next s

/-- A_UNLOCK (R218): 0 to 1 once, never back. -/
def execAUnlock (value : List Byte) (s : State) : Outcome :=
  withValue value fun v =>
    .next (
      if s.cUnlock = false && Config.unlockOk v then acknowledge Ascii.k v { s with cUnlock := true } else s)

end Sys2Proof.Machine
end

