-- ==== Sys2Proof/Machine/Query.lean ====
section
/-!
DEFINITION. Query dispatch (R193 to R203): each query emits exactly one line, which contains its formatted
fields, and writes no register of the block.
-/

namespace Sys2Proof.Machine

/-- `emit LINE(QueryText(code, fields))` (R193). -/
def emitQuery (code : Byte) (fields : List Field) (s : State) : State :=
  emit (.line (Text.queryText code fields)) s

/-- A query whose one field is a real number (R194 to R199, R201). -/
def queryReal (code : Byte) (x : F64) (s : State) : State :=
  emitQuery code [.number (Text.realField code x)] s

/-- Q_TEMP (R194): the last filtered temperature. -/
def execQTemp (s : State) : Outcome := .next (queryReal Ascii.t s.fOut s)

/-- Q_COOL (R195): the cooler duty in percent, drawn. -/
def execQCool (s : State) : Outcome :=
  let d := drawCoolerDuty s
  .next (queryReal Ascii.c (F64.mul Param.outMax d.1) d.2)

/-- Q_HEAT (R196): the heater duty in percent, drawn. -/
def execQHeat (s : State) : Outcome :=
  let d := drawHeaterDuty s
  .next (queryReal Ascii.a (F64.mul Param.outMax d.1) d.2)

/-- Q_KP (R197). -/
def execQKp (s : State) : Outcome := .next (queryReal Ascii.p s.pKp s)

/-- Q_KI (R198). -/
def execQKi (s : State) : Outcome := .next (queryReal Ascii.i s.pKi s)

/-- Q_KD (R199). -/
def execQKd (s : State) : Outcome := .next (queryReal Ascii.d s.pKd s)

/-- Q_ONOFF (R200). -/
def execQOnoff (s : State) : Outcome := .next (emitQuery Ascii.s [.flag s.pEn] s)

/-- Q_SP (R201). -/
def execQSp (s : State) : Outcome := .next (queryReal Ascii.g s.pSp s)

/-- Q_RPM (R202): the value of the last tenth tick, no fresh draw. -/
def execQRpm (s : State) : Outcome :=
  .next (emitQuery Ascii.r [.number (Text.uintToText s.rRpm.toNat (Text.uintDigits Ascii.r))] s)

/-- Q_TIMER (R203): status and remaining milliseconds. -/
def execQTimer (s : State) : Outcome :=
  match tmrGetrem s with
  | .ok n =>
    .next (emitQuery Ascii.m [.flag s.tArm, .number (Text.uintToText n.toNat (Text.uintDigits Ascii.m))] s)
  | .error why => raise why

end Sys2Proof.Machine
end

