-- ==== Sys2Proof/Machine/Port.lean ====
section
/-!
DEFINITION. The parser of the command port: `CMD.BYTE(b)` (R191, R192), which runs a dispatch rule when a frame
completes.
-/

namespace Sys2Proof.Machine

/-- `DispatchQuery(code)` (R193), by the table of R72. DEDUCED, log entry 12. -/
def dispatchQuery (code : Byte) (s : State) : Outcome :=
  if code = Ascii.t then execQTemp s
  else if code = Ascii.c then execQCool s
  else if code = Ascii.a then execQHeat s
  else if code = Ascii.p then execQKp s
  else if code = Ascii.i then execQKi s
  else if code = Ascii.d then execQKd s
  else if code = Ascii.s then execQOnoff s
  else if code = Ascii.g then execQSp s
  else if code = Ascii.r then execQRpm s
  else if code = Ascii.m then execQTimer s
  else raise .paramCode

/-- `DispatchAssign(code, TextToFloat(value))` (R204), by the table of R73. DEDUCED, log entry 12. -/
def dispatchAssign (code : Byte) (value : List Byte) (s : State) : Outcome :=
  if code = Ascii.t then execASp value s
  else if code = Ascii.i then execAKi value s
  else if code = Ascii.c then execACool value s
  else if code = Ascii.a then execAHeat value s
  else if code = Ascii.p then execAKp value s
  else if code = Ascii.d then execAKd value s
  else if code = Ascii.s then execAOnoff value s
  else if code = Ascii.b then execATact value s
  else if code = Ascii.n then execATdur value s
  else if code = Ascii.m then execATrun value s
  else if code = Ascii.k then execAUnlock value s
  else raise .paramCode

/-- Appends a character to the value buffer; at seven characters it is dropped (R192). -/
def appendChar (b : Byte) (s : State) : State :=
  if s.cLen.toNat < Param.vbufMax then
    { s with cBuf := s.cBuf.setIfInBounds s.cLen.toNat b, cLen := s.cLen + 1 }
  else s

/-- `r[C_STATE] <- Idle`. -/
@[simps] def toIdle (s : State) : State := { s with cState := .idle }

/-- `ParserStep(state, b)` for a byte that is not `#` (R192). -/
def parserStep (b : Byte) (s : State) : Outcome :=
  match s.cState with
  | .idle => .next (toIdle s)
  | .ready =>
    if b = Ascii.g then .next { s with cState := .get }
    else if b = Ascii.s then .next { s with cState := .set }
    else .next (toIdle s)
  | .get =>
    if (queryOf b).isSome then .next { s with cCode := b, cState := .param } else .next (toIdle s)
  | .set =>
    if (assignOf b []).isSome then .next { s with cCode := b, cLen := 0, cState := .value }
    else .next (toIdle s)
  | .param => if b = Ascii.terminator then dispatchQuery s.cCode (toIdle s) else .next (toIdle s)
  | .value =>
    if Ascii.isValueByte b then .next (appendChar b s)
    else if b = Ascii.terminator then dispatchAssign s.cCode (valueBuffer s) (toIdle s)
    else .next (toIdle s)

/-- CMD.BYTE (R191): `#` is a hot-reset of the parser from every state. DEDUCED, log entry 21. -/
def execCmdByte (b : Byte) (s : State) : Outcome :=
  if b = Ascii.sentinel then .next { s with cState := .ready } else parserStep b s

/-- The frame the parser holds so far, from its SENTINEL on (R190): nothing unless a code has been received. -/
def heldFrame (s : State) : List Byte :=
  match s.cState with
  | .param => [Ascii.sentinel, Ascii.g, s.cCode]
  | .value => [Ascii.sentinel, Ascii.s, s.cCode] ++ valueBuffer s
  | .idle => []
  | .ready => []
  | .get => []
  | .set => []

/-- The block after it has received these bytes, one transaction each; it stays as it is at one that does not
complete. -/
def receive : List Byte → State → State
  | [], s => s
  | b :: bs, s =>
    match execCmdByte b s with
    | .next s' => receive bs s'
    | .fault _ => s
    | .refused _ => s

end Sys2Proof.Machine
end

