-- ==== Sys2Proof/Machine/Filter.lean ====
section
/-!
DEFINITION. The filter (40_filter.md): `FILT.INIT` and `FILT.UPD`.
-/

namespace Sys2Proof.Machine

/-- `1.0 - BETA`, computed in binary64 (R101). -/
def omb : F64 := F64.sub Param.one Param.beta

/-- One accumulator's recurrence: `BETA*input + omb*acc` (R101). -/
def smooth (input acc : F64) : F64 := F64.add (F64.mul Param.beta input) (F64.mul omb acc)

/-- `FILT.INIT(initial)` (R100). -/
@[simps] def filtInit (initial : F64) (s : State) : State :=
  { s with fEma := initial, fDbase := initial, fDema := initial }

/-- `FILT.UPD(sample) -> y` (R101): the new `F_DEMA` and `y` use the new `F_DBASE`. Two remarks of the spec disagree with
R101 computed as R8 says, and that R101 is followed is the model's choice. R103 item 4 excludes an overflow for finite
samples below about 1.4e308, but `2.0*demaBase'` overflows once `demaBase'` reaches about 8.99e307: DEDUCED, log entry 27.
R142 has the controller fed a NaN or an infinity only by the sensor, but that overflow and a seed that is no finite number
(R100) feed one too: DEDUCED, log entry 28. -/
def filtUpd (sample : F64) (s : State) : F64 × State :=
  let ema := smooth sample s.fEma
  let dbase := smooth sample s.fDbase
  let dema := smooth dbase s.fDema
  (F64.sub (F64.mul Param.two dbase) dema, { s with fEma := ema, fDbase := dbase, fDema := dema })

/-- FILT.INIT (R100). -/
def execFiltInit (initial : F64) (s : State) : Outcome := .next (filtInit initial s)

/-- FILT.UPD (R101). -/
def execFiltUpd (sample : F64) (s : State) : Outcome :=
  let r := filtUpd sample s
  .next (answer (.real r.1) r.2)

end Sys2Proof.Machine
end

