-- ==== Sys2Proof/Machine/Reset.lean ====
section
/-!
DEFINITION. `RESET(seed)` (R300, R301): one transaction that writes every register and emits nothing. What the
block has already emitted, and what the environment still holds for it, are not the block's and stay.
-/

namespace Sys2Proof.Machine

/-- RESET (R301). DESIGN CHOICE, log entry 10. -/
def execReset (seed : F64) (s : State) : Outcome :=
  .next { filtInit seed s with
    fOut := seed
    pKp := Param.kp0
    pKi := Param.ki0
    pKd := Param.kd0
    pSp := Param.sp0
    pInt := Param.zero
    pPerr := Param.zero
    pPout := Param.zero
    pEn := false
    pAct := Param.zero
    tArm := false
    tRem := 0
    tAct := false
    tCfgDur := Param.zero
    tCfgAct := false
    sDiv := 0
    rRpm := 0
    cState := .idle
    cCode := 0
    cLen := 0
    cBuf := Vector.replicate 7 0
    cUnlock := false }

end Sys2Proof.Machine
end

