-- ==== Sys2Proof/Machine/Scheduler.lean ====
section
/-!
DEFINITION. The scheduler (44_scheduler.md): `SCHED.TICK`, its four tasks in the order of R250 (D10).
-/

namespace Sys2Proof.Machine

/-- Task 1, every tick: sensor, filter, controller, actuator write (R250, R120). -/
def controlTask (s : State) : State :=
  let t := drawTemperature s
  let y := filtUpd t.1 t.2
  let u := pidUpd y.1 { y.2 with fOut := y.1 }
  emit (.actWrite u.1) { u.2 with pAct := u.1 }

/-- The sub-rate divider (R250, R251): ticks since reset, modulo 10. -/
@[simps] def divideTask (s : State) : State :=
  { s with sDiv := BitVec.ofNat 4 ((s.sDiv.toNat + 1) % Param.tachDiv) }

/-- Task 2, every 10th tick: tachometer sampling (R250). -/
def tachTask (s : State) : State :=
  if tachDue s.sDiv then
    let d := drawTachometerRpm s
    { d.2 with rRpm := d.1 }
  else s

/-- Task 3, every 5th tick: UI refresh (R250, R255). -/
def uiTask (s : State) : State := if uiDue s.sDiv then emit .uiRefresh s else s

/-- SCHED.TICK (R250); task 4, the timer decrement, runs last (R314). -/
def execSchedTick (s : State) : Outcome :=
  tmrTick Param.tickMs (uiTask (tachTask (divideTask (controlTask s))))

end Sys2Proof.Machine
end

