-- ==== Sys2Proof/Machine/Dispatch.lean ====
section
/-!
DEFINITION. One arm per operation of R76, each a direct call of its meaning.
-/

namespace Sys2Proof.Machine

def exec (i : Instr) (s : State) : Host.Outcome State Fault Refusal :=
  match i with
  -- events
  | .reset seed => Sys2Proof.Machine.execReset seed s
  | .schedTick => Sys2Proof.Machine.execSchedTick s
  | .cmdByte b => Sys2Proof.Machine.execCmdByte b s
  -- filter
  | .filtInit initial => Sys2Proof.Machine.execFiltInit initial s
  | .filtUpd sample => Sys2Proof.Machine.execFiltUpd sample s
  -- controller
  | .pidSetsp v => Sys2Proof.Machine.execPidSetsp v s
  | .pidSetkp v => Sys2Proof.Machine.execPidSetkp v s
  | .pidSetki v => Sys2Proof.Machine.execPidSetki v s
  | .pidSetkd v => Sys2Proof.Machine.execPidSetkd v s
  | .pidOn => Sys2Proof.Machine.execPidOn s
  | .pidOff => Sys2Proof.Machine.execPidOff s
  | .pidUpd m => Sys2Proof.Machine.execPidUpd m s
  -- deadline timer
  | .tmrStart durS act => Sys2Proof.Machine.execTmrStart durS act s
  | .tmrAbort => Sys2Proof.Machine.execTmrAbort s
  | .tmrTick periodMs => Sys2Proof.Machine.execTmrTick periodMs s
  | .tmrGetrem => Sys2Proof.Machine.execTmrGetrem s
  -- queries
  | .qTemp => Sys2Proof.Machine.execQTemp s
  | .qCool => Sys2Proof.Machine.execQCool s
  | .qHeat => Sys2Proof.Machine.execQHeat s
  | .qKp => Sys2Proof.Machine.execQKp s
  | .qKi => Sys2Proof.Machine.execQKi s
  | .qKd => Sys2Proof.Machine.execQKd s
  | .qOnoff => Sys2Proof.Machine.execQOnoff s
  | .qSp => Sys2Proof.Machine.execQSp s
  | .qRpm => Sys2Proof.Machine.execQRpm s
  | .qTimer => Sys2Proof.Machine.execQTimer s
  -- assignments
  | .aSp value => Sys2Proof.Machine.execASp value s
  | .aKi value => Sys2Proof.Machine.execAKi value s
  | .aCool value => Sys2Proof.Machine.execACool value s
  | .aHeat value => Sys2Proof.Machine.execAHeat value s
  | .aKp value => Sys2Proof.Machine.execAKp value s
  | .aKd value => Sys2Proof.Machine.execAKd value s
  | .aOnoff value => Sys2Proof.Machine.execAOnoff value s
  | .aTact value => Sys2Proof.Machine.execATact value s
  | .aTdur value => Sys2Proof.Machine.execATdur value s
  | .aTrun value => Sys2Proof.Machine.execATrun value s
  | .aUnlock value => Sys2Proof.Machine.execAUnlock value s

end Sys2Proof.Machine
end

