-- ==== Sys2Proof/Machine/Step.lean ====
section
/-!
DEFINITION. One step of the block: the next event the environment holds is taken and its operation runs as one
indivisible transaction (R42, R55); with no event to take the block waits (R287, R301). And how an operation's
word is placed so that the next step runs it.
-/

namespace Sys2Proof.Machine

/-- The operation an input event starts (R42). -/
def Event.instr : Event → Instr
  | .reset seed => .reset seed
  | .tick => .schedTick
  | .byte b => .cmdByte b

/-- One step: the first waiting event is taken and its operation runs. DESIGN CHOICE, log entry 5. -/
def step (s : State) : Host.Outcome State Fault Refusal :=
  match s.env.events with
  | [] => .next s
  | e :: rest => exec e.instr (takeEvent rest s)

/-- The operation's frame stored where the next step runs it: every byte but the last has been received, and the
last, the one whose transaction dispatches, is the next event. DESIGN CHOICE, log entries 6 and 7. -/
def State.withFetchWord (s : State) (nbits w : Nat) : State :=
  let frame := tableFrame nbits w
  let held := receive frame.dropLast s
  { held with env := { held.env with events := (frame.drop (frame.length - 1)).map .byte ++ held.env.events } }

end Sys2Proof.Machine
end

