-- ==== Sys2Proof/Safety.lean ====
section
/-!
DEFINITION. What counts as a safe run of the block, in the terms the statements use: the invariants of
10_state.md, the ranges of the output events (R40), and runs of several operations.
-/

namespace Sys2Proof.Machine

/-- The invariants between transactions: R23, R25, R27, R28, R30, and the legal values of the staging registers
and of the value buffer (R26, R29). -/
structure Inv (s : State) : Prop where
  /-- R23: the two accumulators are the same bits. -/
  emaIsDbase : s.fEma = s.fDbase
  /-- R25.1 -/
  offCommandZero : s.pEn = false → s.pAct = Param.zero
  /-- R25.2 -/
  setpointLegal : s.pSp = Param.zero ∨ setpointAccepted s.pSp = true
  /-- R25.3 -/
  commandInRange : inOutRange s.pAct = true
  /-- R27 -/
  armedCount : s.tArm = true → 0 ≤ s.tRem.toInt ∧ s.tRem.toInt ≤ 599940000
  /-- R26: `T_CFG_DUR` in 0.0 .. 599940.0. -/
  stagedDuration : durationInDomain s.tCfgDur = true
  /-- R28: `S_DIV` in 0 .. 9. -/
  divider : s.sDiv.toNat < 10
  /-- R30.2 -/
  queryCode : s.cState = .param → (queryOf s.cCode).isSome = true
  /-- R30.3 -/
  assignCode : s.cState = .value → (assignOf s.cCode []).isSome = true
  /-- R29: the meaningful bytes of `C_BUF` are digits and commas. -/
  bufferLegal : (valueBuffer s).all Ascii.isValueByte = true

/-- The payload of an output event lies in the range R40 gives it; a line is ASCII text. -/
def OutEvent.inRange : OutEvent → Bool
  | .actWrite u => inOutRange u
  | .heaterSet v => F64.le Param.zero v && F64.le v Param.heaterCap
  | .coolerSet v => F64.le Param.zero v && F64.le v Param.coolerMax
  | .line text => text.all (fun b => b.toNat < 128)
  | .uiRefresh => true

/-- The event is a line. -/
def OutEvent.isLine : OutEvent → Bool
  | .actWrite _ => false
  | .heaterSet _ => false
  | .coolerSet _ => false
  | .line _ => true
  | .uiRefresh => false

/-- Operations run one after the other, until one does not complete. -/
def execAll : List Instr → State → Outcome
  | [], s => .next s
  | i :: is, s => andThen (exec i s) (execAll is)

/-- `t` is `s` but for the registers of the parser. -/
def PortOnly (s t : State) : Prop :=
  t = { s with cState := t.cState, cCode := t.cCode, cLen := t.cLen, cBuf := t.cBuf }

/-- The midpoint between the largest finite magnitude and 2^1024, in units of 2^-1074: from here on rounding gives infinity. -/
@[irreducible] def overflowUnits : Nat := 2 ^ 2098 - 2 ^ 2044

/-- The values of a list's first entry, or the free value: what a draw answers. -/
def Drawn {α : Type} (answers : List α) (v : α) : Prop := ∀ a rest, answers = a :: rest → v = a

/-- Every character is a DIGIT (R70). -/
def AreDigits (ds : List Byte) : Prop := ∀ b ∈ ds, 0x30 ≤ b.toNat ∧ b.toNat ≤ 0x39

/-- What a string of digits stands for, the most significant first (R47), 0 if it is empty (R74). -/
def digitsValue (ds : List Byte) : Nat := Nat.ofDigits 10 (ds.reverse.map fun b => b.toNat - 0x30)

end Sys2Proof.Machine
end

