-- ==== Sys2Proof/Certificates/Slice0/Obligations.lean ====
section
/-!
DEFINITION. The statements for the provers, in the order of OBLIGATIONS.json. A statement about `exec` whose
conclusion is `exec i s = .next t` with `t` given is a result, a frame and a completion at once: `t` is the whole state.
-/

open Sys2Proof Sys2Proof.Machine

/-! ### Parameters and arithmetic -/

/-- R5: the fixed parameters, each real one the binary64 nearest to its decimal literal. Rests on the spec's
decisions D1, D3, D18, D19. -/
def Obligations.FixedParametersAreNearestBinary64 : Prop :=
  Param.beta = F64.ofRatio 1 10 ∧ Param.beta = ⟨0x3FB999999999999A⟩ ∧
  Param.spMin = F64.ofRatio 23 1 ∧ Param.spMax = F64.ofRatio 74 1 ∧
  Param.zero = F64.ofRatio 0 1 ∧ Param.outMax = F64.ofRatio 100 1 ∧
  Param.kp0 = F64.ofRatio 10 1 ∧ Param.ki0 = F64.ofRatio 1 10 ∧ Param.ki0 = ⟨0x3FB999999999999A⟩ ∧
  Param.kd0 = F64.ofRatio 20 1 ∧ Param.sp0 = F64.ofRatio 0 1 ∧
  Param.tickMs = 100 ∧ Param.tachDiv = 10 ∧ Param.uiDiv = 5 ∧ Param.vbufMax = 7 ∧
  Param.heaterCap = F64.ofRatio 1 2 ∧ Param.coolerMax = F64.ofRatio 1 1 ∧
  Param.durMaxS = F64.ofRatio 599940 1

/-- R8, addition. Of all finite binary64 values the result is a nearest to the exact sum, and on a tie its pattern is even;
it is finite exactly when the exact sum is below the midpoint beyond the largest finite value, and beyond it the infinity
with the sign of the sum; an exact zero is -0.0 only when both operands are negative. It is a NaN exactly for a NaN operand
and for infinities of opposite sign, and otherwise an infinite operand is the sum. Rests on the spec's decision D3. -/
def Obligations.AddRoundsToNearestTiesToEven : Prop :=
  ∀ a b : F64,
    (a.isFinite = true → b.isFinite = true →
      ((F64.add a b).isFinite = true ↔ (a.value + b.value).natAbs < overflowUnits) ∧
      ((F64.add a b).isFinite = true → ∀ c : F64, c.isFinite = true →
        ((F64.add a b).value - (a.value + b.value)).natAbs ≤ (c.value - (a.value + b.value)).natAbs ∧
        (((F64.add a b).value - (a.value + b.value)).natAbs = (c.value - (a.value + b.value)).natAbs →
          c.value ≠ (F64.add a b).value → (F64.add a b).mag % 2 = 0)) ∧
      ((F64.add a b).isFinite = false →
        F64.add a b = ⟨if a.value + b.value < 0 then 0xFFF0000000000000 else 0x7FF0000000000000⟩) ∧
      (a.value + b.value = 0 → F64.add a b = ⟨if a.sign && b.sign then 0x8000000000000000 else 0⟩)) ∧
    ((F64.add a b).isNaN = true ↔
      a.isNaN = true ∨ b.isNaN = true ∨ (a.isInf = true ∧ b.isInf = true ∧ a.sign ≠ b.sign)) ∧
    (a.isInf = true → (F64.add a b).isNaN = false → F64.add a b = a) ∧
    (b.isInf = true → (F64.add a b).isNaN = false → F64.add a b = b)

/-- R8, subtraction: `a - b` is `a + (-b)` bit for bit wherever it is no NaN, and a NaN exactly when that is. Negation
turns the sign of every value, infinities and zeros included, and keeps its class. Rests on the spec's decision D3. -/
def Obligations.SubIsAddOfTheNegated : Prop :=
  ∀ a b : F64,
    (F64.sub a b).isNaN = (F64.add a b.neg).isNaN ∧
    ((F64.sub a b).isNaN = false → F64.sub a b = F64.add a b.neg) ∧
    b.neg.sign = !b.sign ∧ b.neg.isNaN = b.isNaN ∧ b.neg.isInf = b.isInf ∧
    (b.isFinite = true → b.neg.isFinite = true ∧ b.neg.value = -b.value)

/-- R8, multiplication: as for addition, with the exact product in units of 2^-2148. The sign of every finite product, zero
included, and of every infinite one is negative exactly when the signs differ. It is a NaN exactly for a NaN operand and for
an infinity times a zero, and otherwise an infinite operand makes it infinite. Rests on the spec's decision D3. -/
def Obligations.MulRoundsToNearestTiesToEven : Prop :=
  ∀ a b : F64,
    (a.isFinite = true → b.isFinite = true →
      ((F64.mul a b).isFinite = true ↔ (a.value * b.value).natAbs < overflowUnits * F64.unitsPerOne) ∧
      ((F64.mul a b).isFinite = true → ∀ c : F64, c.isFinite = true →
        ((F64.mul a b).value * F64.unitsPerOne - a.value * b.value).natAbs
          ≤ (c.value * F64.unitsPerOne - a.value * b.value).natAbs ∧
        (((F64.mul a b).value * F64.unitsPerOne - a.value * b.value).natAbs
            = (c.value * F64.unitsPerOne - a.value * b.value).natAbs →
          c.value ≠ (F64.mul a b).value → (F64.mul a b).mag % 2 = 0)) ∧
      (F64.mul a b).sign = (a.sign != b.sign) ∧
      ((F64.mul a b).isFinite = false →
        F64.mul a b = ⟨if a.sign = b.sign then 0x7FF0000000000000 else 0xFFF0000000000000⟩)) ∧
    ((F64.mul a b).isNaN = true ↔
      a.isNaN = true ∨ b.isNaN = true ∨ (a.isInf = true ∧ b.isFinite = true ∧ b.value = 0) ∨
        (b.isInf = true ∧ a.isFinite = true ∧ a.value = 0)) ∧
    (a.isInf = true ∨ b.isInf = true → (F64.mul a b).isNaN = false →
      F64.mul a b = ⟨if a.sign = b.sign then 0x7FF0000000000000 else 0xFFF0000000000000⟩)

/-- R8, comparisons. A binary64 that is no NaN is finite or one of the two infinities. A comparison is false when either
operand is a NaN; on finite operands it is the order of the values; the infinities are the ends of the order, each equal to
itself alone. Rests on the spec's decision D3. -/
def Obligations.ComparisonsOrderValuesAndFailOnNaN : Prop :=
  ∀ a b pos neg : F64, pos = ⟨0x7FF0000000000000⟩ → neg = ⟨0xFFF0000000000000⟩ →
    (a.isInf = true ↔ a = pos ∨ a = neg) ∧
    (a.isNaN = false ↔ a.isFinite = true ∨ a.isInf = true) ∧ (a.isFinite = true → a.isInf = false) ∧
    (a.isNaN = true ∨ b.isNaN = true → F64.lt a b = false ∧ F64.le a b = false ∧ F64.eq a b = false) ∧
    (a.isFinite = true → b.isFinite = true →
      (F64.lt a b = true ↔ a.value < b.value) ∧ (F64.le a b = true ↔ a.value ≤ b.value) ∧
      (F64.eq a b = true ↔ a.value = b.value)) ∧
    (a.isNaN = false →
      F64.le a pos = true ∧ F64.le neg a = true ∧ F64.lt pos a = false ∧ F64.lt a neg = false ∧
      (F64.lt a pos = true ↔ a ≠ pos) ∧ (F64.lt neg a = true ↔ a ≠ neg) ∧
      (F64.le pos a = true ↔ a = pos) ∧ (F64.le a neg = true ↔ a = neg) ∧
      (F64.eq a pos = true ↔ a = pos) ∧ (F64.eq pos a = true ↔ a = pos) ∧
      (F64.eq a neg = true ↔ a = neg) ∧ (F64.eq neg a = true ↔ a = neg))

/-! ### Encoding and decoding -/

/-- R70 to R73: frames written out byte by byte from the spec's tables. Rests on the spec's decisions D22, D27. -/
def Obligations.SpecWordsDecode : Prop :=
  decodeTableWord 32 0x2367743B = some .qTemp ∧
  decodeTableWord 32 0x23676D3B = some .qTimer ∧
  decodeTableWord 24 0x237374 = some (.aSp []) ∧
  decodeTableWord 24 0x23736B = some (.aUnlock []) ∧
  decode [0x23, 0x73, 0x61, 0x30, 0x2C, 0x36, 0x3B] = .ok (.aHeat [0x30, 0x2C, 0x36], []) ∧
  decode [0x23, 0x73, 0x70, 0x31, 0x32, 0x23, 0x73, 0x64, 0x33, 0x3B] = .ok (.aKd [0x33], []) ∧
  decode [0x23, 0x47, 0x74, 0x3B] = .error .badSelector

/-- R71 to R73: every well-formed operation that has a frame is read back from it, whatever bytes follow. Rests on
the spec's decision D22. -/
def Obligations.DecodeEncodeRoundTrip : Prop :=
  ∀ (i : Instr) (f rest : List Byte), i.wellFormed = true → encode i = some f →
    decode (f ++ rest) = .ok (i, rest)

/-- R71, R77: what decodes is well formed, and its frame stands in the bytes, from the last SENTINEL read to the
first TERMINATOR after it. Rests on the spec's decision D22. -/
def Obligations.DecodedBytesHoldTheFrame : Prop :=
  ∀ (i : Instr) (bytes rest : List Byte), decode bytes = .ok (i, rest) →
    i.wellFormed = true ∧ ∃ before f, encode i = some f ∧ bytes = before ++ f ++ rest

/-! ### A step and a frame -/

/-- R42, R55, R287, R301: with no event to take the block holds its state; an event is taken from the front and its
operation runs, and nothing but the list of events has changed before it does (R275). Rests on the spec's decisions
D4, D5, D30, D39. -/
def Obligations.StepTakesTheNextEvent : Prop :=
  ∀ s : State,
    (s.env.events = [] → step s = .next s) ∧
    (∀ seed rest, s.env.events = .reset seed :: rest →
      step s = exec (.reset seed) { s with env := { s.env with events := rest } }) ∧
    (∀ rest, s.env.events = .tick :: rest →
      step s = exec .schedTick { s with env := { s.env with events := rest } }) ∧
    (∀ b rest, s.env.events = .byte b :: rest →
      step s = exec (.cmdByte b) { s with env := { s.env with events := rest } })

/-- A step runs the decoded instruction: when the frame the parser holds, ended by the byte that is next, decodes to
`i`, the step is `i` at the state with that byte taken and the parser in Idle (R192). Rests on the spec's decision
D4. -/
def Obligations.StepRunsTheDecodedFrame : Prop :=
  ∀ (i : Instr) (s : State) (rest : List Event), Inv s →
    decode (heldFrame s ++ [Ascii.terminator]) = .ok (i, []) →
    s.env.events = .byte Ascii.terminator :: rest →
    step s = exec i { s with cState := .idle, env := { s.env with events := rest } }

/-- The word the host places is the operation the next step runs, from any state; only the parser's registers differ
when it does. Rests on the spec's decision D38. -/
def Obligations.PlacedWordRunsAtTheNextStep : Prop :=
  ∀ (nbits w : Nat) (i : Instr) (s : State), decodeTableWord nbits w = some i →
    ∃ t, PortOnly s t ∧ t.cState = .idle ∧ step (s.withFetchWord nbits w) = exec i t

/-- R192, R193, R221: from any state whatever, the four bytes of a query frame run its query, with the parser left in
Idle and the code remembered. Rests on the spec's decision D38. -/
def Obligations.QueryFrameRunsItsQuery : Prop :=
  ∀ (code : Byte) (i : Instr) (s : State), queryOf code = some i →
    execAll ((queryFrame code).map .cmdByte) s = exec i { s with cState := .idle, cCode := code }

/-- R71, R192, R204, R221: from any state whatever, the bytes of an assignment frame run its assignment, with the
parser left in Idle, the code remembered, and the first seven value bytes in the buffer over what stood there. Rests
on the spec's decisions D22, D38. -/
def Obligations.AssignFrameRunsItsAssignment : Prop :=
  ∀ (code : Byte) (value : List Byte) (i : Instr) (s : State), assignOf code value = some i →
    value.all Ascii.isValueByte = true →
    ∃ t, PortOnly s t ∧ t.cState = .idle ∧ t.cCode = code ∧ t.cLen.toNat = min 7 value.length ∧
      t.cBuf.toList = value.take 7 ++ s.cBuf.toList.drop (min 7 value.length) ∧
      execAll ((assignFrame code value).map .cmdByte) s = exec i t

/-- R71: a value field of more than seven bytes means the same as its first seven. Rests on the spec's decision D22. -/
def Obligations.ExcessValueBytesChangeNothing : Prop :=
  ∀ (code : Byte) (value : List Byte) (i j : Instr) (s : State), value.all Ascii.isValueByte = true →
    assignOf code value = some i → assignOf code (value.take 7) = some j → exec i s = exec j s

/-! ### Invariants and whole-machine rules -/

/-- R303, R31: the power-up state, and the state any `RESET` leaves, meet every invariant. Rests on the spec's
decisions D13, D26. -/
def Obligations.ResetEstablishesTheInvariants : Prop :=
  Inv State.reset ∧ ∀ (seed : F64) (s : State), ∃ t, exec (.reset seed) s = .next t ∧ Inv t

/-- R23, R25, R27, R28, R30: every step keeps the invariants of 10_state.md, and so does every operation run on its
own. Rests on the spec's decision D4. -/
def Obligations.StepKeepsTheInvariants : Prop :=
  (∀ s t : State, Inv s → step s = .next t → Inv t) ∧
  (∀ (i : Instr) (s t : State), Inv s → exec i s = .next t → Inv t)

/-- R270: every operation ends normally on every state that meets the invariants: none faults and none is refused.
Rests on the spec's decision D4. -/
def Obligations.EveryOperationCompletes : Prop :=
  ∀ (i : Instr) (s : State), Inv s → i.wellFormed = true → ∃ t, exec i s = .next t

/-- R40: an operation only appends to the output trace, and every event it emits has its payload in the range R40
gives; every line is ASCII text. Rests on the spec's decisions D12, D14, D19, D32. -/
def Obligations.OutputsStayInRange : Prop :=
  ∀ (i : Instr) (s t : State), exec i s = .next t →
    ∃ new, t.out = s.out ++ new ∧ ∀ e ∈ new, e.inRange = true

/-- R220: a byte emits something only as the TERMINATOR of a frame whose code has been received, and no operation
emits more than one line. Rests on the spec's decision D31. -/
def Obligations.OnlyCompleteFramesEmit : Prop :=
  (∀ (b : Byte) (s t : State), exec (.cmdByte b) s = .next t → t.out ≠ s.out →
    b = Ascii.terminator ∧ (s.cState = .param ∨ s.cState = .value)) ∧
  (∀ (i : Instr) (s t : State), exec i s = .next t →
    ∃ new, t.out = s.out ++ new ∧ (new.filter (fun e => e.isLine)).length ≤ 1)

/-- R29, R277: `C_UNLOCK` is set by `A_UNLOCK` (alone or through `CMD.BYTE`) and cleared by `RESET` only. Rests on
the spec's decisions D26, D29. -/
def Obligations.UnlockChangesOnlyAsStated : Prop :=
  ∀ (i : Instr) (s t : State), exec i s = .next t →
    (s.cUnlock = true → t.cUnlock = true ∨ ∃ seed, i = .reset seed) ∧
    (s.cUnlock = false → (∀ value, i ≠ .aUnlock value) → (∀ b, i ≠ .cmdByte b) → t.cUnlock = false)

/-- R46 ("written by"): the filter's registers, the divider and the tachometer reading keep their values under every
operation but their writers. Rests on the spec's decisions D6, D35. -/
def Obligations.FilterAndReadingsChangeOnlyByTheirWriters : Prop :=
  ∀ (i : Instr) (s t : State), exec i s = .next t → (∀ seed, i ≠ .reset seed) → i ≠ .schedTick →
    t.fOut = s.fOut ∧ t.sDiv = s.sDiv ∧ t.rRpm = s.rRpm ∧
    ((∀ v, i ≠ .filtInit v) → (∀ v, i ≠ .filtUpd v) →
      t.fEma = s.fEma ∧ t.fDbase = s.fDbase ∧ t.fDema = s.fDema)

/-- R46, R24: the gains, the setpoint and the staging registers change only by their setters and assignments; no tick
and no timer operation changes them. Rests on the spec's decision D6. -/
def Obligations.TunablesChangeOnlyByTheirWriters : Prop :=
  ∀ (i : Instr) (s t : State), exec i s = .next t → (∀ seed, i ≠ .reset seed) → (∀ b, i ≠ .cmdByte b) →
    ((∀ v, i ≠ .pidSetkp v) → (∀ v, i ≠ .aKp v) → t.pKp = s.pKp) ∧
    ((∀ v, i ≠ .pidSetki v) → (∀ v, i ≠ .aKi v) → t.pKi = s.pKi) ∧
    ((∀ v, i ≠ .pidSetkd v) → (∀ v, i ≠ .aKd v) → t.pKd = s.pKd) ∧
    ((∀ v, i ≠ .pidSetsp v) → (∀ v, i ≠ .aSp v) → t.pSp = s.pSp) ∧
    ((∀ v, i ≠ .aTdur v) → t.tCfgDur = s.tCfgDur) ∧
    ((∀ v, i ≠ .aTact v) → t.tCfgAct = s.tCfgAct)

/-- R46, R26, R29: the parser's registers change by `CMD.BYTE` and `RESET` only; the timer's by the timer's
operations, the tick and `A_TRUN` (alone or through `CMD.BYTE`), and the action only by a start. Rests on the spec's
decision D6. -/
def Obligations.TimerAndParserChangeOnlyByTheirWriters : Prop :=
  ∀ (i : Instr) (s t : State), exec i s = .next t → (∀ seed, i ≠ .reset seed) → (∀ b, i ≠ .cmdByte b) →
    (t.cState = s.cState ∧ t.cCode = s.cCode ∧ t.cLen = s.cLen ∧ t.cBuf = s.cBuf) ∧
    ((∀ v, i ≠ .aTrun v) → (∀ d a, i ≠ .tmrStart d a) →
      t.tAct = s.tAct ∧ (i ≠ .schedTick → (∀ p, i ≠ .tmrTick p) →
        t.tRem = s.tRem ∧ (i ≠ .tmrAbort → t.tArm = s.tArm)))

/-! ### Reset -/

/-- R301: every register at the value of the reset sequence, no event emitted, nothing of the environment's taken.
Rests on the spec's decisions D13, D26, D30. -/
def Obligations.ResetWritesEveryRegister : Prop :=
  ∀ (seed : F64) (s : State), ∃ t, exec (.reset seed) s = .next t ∧
    t.fEma = seed ∧ t.fDbase = seed ∧ t.fDema = seed ∧ t.fOut = seed ∧
    t.pKp = ⟨0x4024000000000000⟩ ∧ t.pKi = ⟨0x3FB999999999999A⟩ ∧ t.pKd = ⟨0x4034000000000000⟩ ∧
    t.pSp = ⟨0⟩ ∧ t.pInt = ⟨0⟩ ∧ t.pPerr = ⟨0⟩ ∧ t.pPout = ⟨0⟩ ∧ t.pEn = false ∧ t.pAct = ⟨0⟩ ∧
    t.tArm = false ∧ t.tRem = 0 ∧ t.tAct = false ∧ t.tCfgDur = ⟨0⟩ ∧ t.tCfgAct = false ∧
    t.sDiv = 0 ∧ t.rRpm = 0 ∧
    t.cState = .idle ∧ t.cCode = 0 ∧ t.cLen = 0 ∧ t.cBuf.toList = [0, 0, 0, 0, 0, 0, 0] ∧ t.cUnlock = false ∧
    t.out = s.out ∧ t.env = s.env ∧ t.res = s.res

/-! ### Filter -/

/-- R100, and R101 with the constant `omb`. That the answer stands in the field `res` is the model's choice (log
entry 9). Rests on the spec's decision D3 (R101). -/
def Obligations.FilterFollowsItsRecurrence : Prop :=
  (∀ (initial : F64) (s : State),
    exec (.filtInit initial) s = .next { s with fEma := initial, fDbase := initial, fDema := initial }) ∧
  F64.sub (F64.ofRatio 1 1) (F64.ofRatio 1 10) = ⟨0x3FECCCCCCCCCCCCD⟩ ∧
  ∀ (sample : F64) (s : State), ∀ omb ema dbase dema y : F64,
    omb = F64.sub (F64.ofRatio 1 1) (F64.ofRatio 1 10) →
    ema = F64.add (F64.mul (F64.ofRatio 1 10) sample) (F64.mul omb s.fEma) →
    dbase = F64.add (F64.mul (F64.ofRatio 1 10) sample) (F64.mul omb s.fDbase) →
    dema = F64.add (F64.mul (F64.ofRatio 1 10) dbase) (F64.mul omb s.fDema) →
    y = F64.sub (F64.mul (F64.ofRatio 2 1) dbase) dema →
    exec (.filtUpd sample) s = .next { s with fEma := ema, fDbase := dbase, fDema := dema, res := .real y }

/-- R103.1: a NaN sample makes all three accumulators and the output NaN, and once the accumulators are NaN every
later sample leaves them and the output NaN. R103.2: a sample of +infinity on finite accumulators makes them +infinity and
the output NaN, and an accumulator that is infinite or NaN stays so under every sample. -/
def Obligations.FilterNaNPersists : Prop :=
  (∀ (sample : F64) (s : State),
    (sample.isNaN = true ∨ (s.fEma.isNaN = true ∧ s.fDbase.isNaN = true ∧ s.fDema.isNaN = true)) →
    ∃ t y, exec (.filtUpd sample) s = .next t ∧ t.res = .real y ∧ y.isNaN = true ∧
      t.fEma.isNaN = true ∧ t.fDbase.isNaN = true ∧ t.fDema.isNaN = true) ∧
  (∀ s : State, s.fEma.isFinite = true → s.fDbase.isFinite = true → s.fDema.isFinite = true →
    ∃ t y, exec (.filtUpd ⟨0x7FF0000000000000⟩) s = .next t ∧ t.res = .real y ∧ y.isNaN = true ∧
      t.fEma = ⟨0x7FF0000000000000⟩ ∧ t.fDbase = ⟨0x7FF0000000000000⟩ ∧ t.fDema = ⟨0x7FF0000000000000⟩) ∧
  (∀ (sample : F64) (s : State), ∃ t, exec (.filtUpd sample) s = .next t ∧
    (s.fEma.isFinite = false → t.fEma.isFinite = false) ∧ (s.fDbase.isFinite = false → t.fDbase.isFinite = false) ∧
    (s.fDema.isFinite = false → t.fDema.isFinite = false))

/-- R104: the outputs of a sequence of updates depend on the accumulators and the samples alone. With no sample there is no
output, and the last answer is what it was. -/
def Obligations.FilterOutputIsAFunctionOfSeedAndSamples : Prop :=
  ∀ (samples : List F64) (s s' : State),
    s.fEma = s'.fEma → s.fDbase = s'.fDbase → s.fDema = s'.fDema →
    ∃ t t', execAll (samples.map .filtUpd) s = .next t ∧ execAll (samples.map .filtUpd) s' = .next t' ∧
      (samples ≠ [] ∨ s.res = s'.res → t.res = t'.res) ∧
      t.fEma = t'.fEma ∧ t.fDbase = t'.fDbase ∧ t.fDema = t'.fDema

/-! ### Controller -/

/-- R129: accepted exactly for 23.0 <= v <= 74.0, NaN included among the rejected. Rests on the spec's decision D37. -/
def Obligations.PidSetspAcceptsOnlyItsRange : Prop :=
  ∀ (v : F64) (s : State),
    (F64.le (F64.ofRatio 23 1) v = true ∧ F64.le v (F64.ofRatio 74 1) = true →
      exec (.pidSetsp v) s = .next { s with pSp := v, pInt := ⟨0⟩, res := .accepted true }) ∧
    (¬ (F64.le (F64.ofRatio 23 1) v = true ∧ F64.le v (F64.ofRatio 74 1) = true) →
      exec (.pidSetsp v) s = .next { s with res := .accepted false }) ∧
    (v.isNaN = true → exec (.pidSetsp v) s = .next { s with res := .accepted false })

/-- R130, R131, R132: any binary64 is stored, and nothing else is touched. -/
def Obligations.GainSettersStoreAnyValue : Prop :=
  ∀ (v : F64) (s : State),
    exec (.pidSetkp v) s = .next { s with pKp := v } ∧
    exec (.pidSetki v) s = .next { s with pKi := v } ∧
    exec (.pidSetkd v) s = .next { s with pKd := v }

/-- R134 and R135, in every state, on or off. Rests on the spec's decision D12 (R135). -/
def Obligations.PidOnClearsAndPidOffForcesZero : Prop :=
  ∀ s : State,
    exec .pidOn s = .next { s with pPerr := ⟨0⟩, pInt := ⟨0⟩, pPout := ⟨0⟩, pEn := true } ∧
    exec .pidOff s = .next { s with pAct := ⟨0⟩, out := s.out ++ [.actWrite ⟨0⟩], pEn := false }

/-- R141: disabled, the update answers positive zero and writes nothing. R136, R137, R138: enabled, with `e`, the
gated integral, `raw` and the clamp as the rules give them. For a NaN `raw` the answer is a free value, of which only
the range is known (U1), and that one draw is counted is the model's choice (log entry 3, DESIGN CHOICE). Rests on
the spec's decisions D3, D14 (R136, R137). -/
def Obligations.PidUpdFollowsItsSteps : Prop :=
  (∀ (m : F64) (s : State), s.pEn = false → exec (.pidUpd m) s = .next { s with res := .real ⟨0⟩ }) ∧
  ∀ (m : F64) (s : State), s.pEn = true → ∀ e int d raw : F64,
    e = F64.sub s.pSp m →
    int = (if F64.le ⟨0⟩ s.pPout = true ∧ F64.lt s.pPout (F64.ofRatio 100 1) = true then F64.add s.pInt e
      else s.pInt) →
    d = F64.sub e s.pPerr →
    raw = F64.add (F64.add (F64.mul s.pKp e) (F64.mul s.pKi int)) (F64.mul s.pKd d) →
    ∃ u env, exec (.pidUpd m) s =
        .next { s with pInt := int, pPerr := e, pPout := raw, env := env, res := .real u } ∧
      (raw.isNaN = true →
        F64.le ⟨0⟩ u = true ∧ F64.le u (F64.ofRatio 100 1) = true ∧
          env = { s.env with draws := s.env.draws + 1 }) ∧
      (raw.isNaN = false → env = s.env ∧
        u = if F64.lt raw ⟨0⟩ = true then ⟨0⟩
            else if F64.lt (F64.ofRatio 100 1) raw = true then F64.ofRatio 100 1 else raw)

/-- R144: for every state and every measurement, NaN and infinities included, the update answers a value of [0, 100],
and exactly 0.0 when disabled. Rests on the spec's decision D14. -/
def Obligations.PidOutputStaysInRange : Prop :=
  ∀ (m : F64) (s : State), ∃ t u, exec (.pidUpd m) s = .next t ∧ t.res = .real u ∧
    F64.le ⟨0⟩ u = true ∧ F64.le u (F64.ofRatio 100 1) = true ∧ (s.pEn = false → u = ⟨0⟩)

/-- R139, R140, R142: after an update whose unclamped output is at least 100, negative or NaN, the next update leaves
the integral as it is. -/
def Obligations.SaturatedUpdateFreezesTheIntegral : Prop :=
  ∀ (m m' : F64) (s t t' : State), exec (.pidUpd m) s = .next t →
    F64.le (F64.ofRatio 100 1) t.pPout = true ∨ F64.lt t.pPout ⟨0⟩ = true ∨ t.pPout.isNaN = true →
    exec (.pidUpd m') t = .next t' → t'.pInt = t.pInt

/-- R142: a NaN measurement makes the previous error and the unclamped output NaN, and the integral too if the
gate was open. -/
def Obligations.NaNMeasurementPoisonsTheController : Prop :=
  ∀ (m : F64) (s : State), s.pEn = true → m.isNaN = true → ∃ t, exec (.pidUpd m) s = .next t ∧
    t.pPerr.isNaN = true ∧ t.pPout.isNaN = true ∧
    (F64.le ⟨0⟩ s.pPout = true ∧ F64.lt s.pPout (F64.ofRatio 100 1) = true → t.pInt.isNaN = true) ∧
    (¬ (F64.le ⟨0⟩ s.pPout = true ∧ F64.lt s.pPout (F64.ofRatio 100 1) = true) → t.pInt = s.pInt)

/-! ### Deadline timer -/

/-- R160, U5: inside its domain a start arms whatever the timer was doing, with the rounded product as the count: no integer
is nearer to the binary64 product, and where another is as near the count is even (D8). The count lies in 0 .. 599940000.
Outside the domain, NaN included, a start is refused (log entry 14, DEDUCED). Rests on the spec's decision D8. -/
def Obligations.TmrStartArmsWithRoundedMilliseconds : Prop :=
  ∀ (durS : F64) (act : Bool) (s : State),
    (F64.le ⟨0⟩ durS = true ∧ F64.le durS (F64.ofRatio 599940 1) = true →
      ∃ (rem : BitVec 32) (product : F64), product = F64.mul durS (F64.ofRatio 1000 1) ∧ product.isFinite = true ∧
        exec (.tmrStart durS act) s = .next { s with tRem := rem, tAct := act, tArm := true } ∧
        rem.toInt = product.toIntTiesEven ∧
        (∀ c : Int, (rem.toInt * F64.unitsPerOne - product.value).natAbs ≤ (c * F64.unitsPerOne - product.value).natAbs ∧
          ((rem.toInt * F64.unitsPerOne - product.value).natAbs = (c * F64.unitsPerOne - product.value).natAbs →
            c ≠ rem.toInt → rem.toInt % 2 = 0)) ∧
        0 ≤ rem.toInt ∧ rem.toInt ≤ 599940000) ∧
    (¬ (F64.le ⟨0⟩ durS = true ∧ F64.le durS (F64.ofRatio 599940 1) = true) →
      exec (.tmrStart durS act) s = .refused .durationDomain)

/-- R165: a tick of the timer, in every case of the rule. U6: a period outside 1 .. 2^31 - 1 is refused (log entry
14, DEDUCED); R165 marks the range as the spec's own. Rests on the spec's decisions D10, D36. -/
def Obligations.TmrTickCountsDownAndFires : Prop :=
  ∀ (p : Int) (s : State),
    (¬ (1 ≤ p ∧ p ≤ 2 ^ 31 - 1) → exec (.tmrTick p) s = .refused .periodDomain) ∧
    (1 ≤ p → p ≤ 2 ^ 31 - 1 →
      (s.tArm = false → exec (.tmrTick p) s = .next s) ∧
      (s.tArm = true → 0 ≤ s.tRem.toInt → ∃ rem : BitVec 32, rem.toInt = s.tRem.toInt - p ∧
        (0 < rem.toInt → exec (.tmrTick p) s = .next { s with tRem := rem }) ∧
        (rem.toInt ≤ 0 → s.tAct = false → exec (.tmrTick p) s =
          .next { s with tRem := rem, tArm := false, pAct := ⟨0⟩, out := s.out ++ [.actWrite ⟨0⟩], pEn := false }) ∧
        (rem.toInt ≤ 0 → s.tAct = true → s.pEn = false → exec (.tmrTick p) s =
          .next { s with tRem := rem, tArm := false, pPerr := ⟨0⟩, pInt := ⟨0⟩, pPout := ⟨0⟩, pEn := true }) ∧
        (rem.toInt ≤ 0 → s.tAct = true → s.pEn = true → exec (.tmrTick p) s =
          .next { s with tRem := rem, tArm := false })))

/-- R166: an armed timer with `ms` left, ticked with a constant period, stays armed for `max(1, ceil(ms / p)) - 1` ticks
and fires on the next, leaving the controller as its action says. -/
def Obligations.TimerFiresOnItsTick : Prop :=
  ∀ (p ms : Nat) (s : State), 1 ≤ p → p ≤ 2 ^ 31 - 1 → s.tArm = true → s.tRem.toInt = (ms : Int) →
    (∀ k < max 1 ((ms + p - 1) / p), ∃ t, execAll (List.replicate k (.tmrTick p)) s = .next t ∧
      t.tArm = true ∧ t.tRem.toInt = (ms : Int) - k * p ∧ t.pEn = s.pEn ∧ t.out = s.out) ∧
    (∃ t, execAll (List.replicate (max 1 ((ms + p - 1) / p)) (.tmrTick p)) s = .next t ∧
      t.tArm = false ∧ t.pEn = s.tAct ∧ t.out = s.out ++ (if s.tAct then [] else [.actWrite ⟨0⟩]))

/-- R162, R167: an abort disarms and changes nothing else, and while the timer is disarmed any number of its ticks leaves
the whole state as it is: the action never runs. -/
def Obligations.AbortedTimerNeverFires : Prop :=
  (∀ s : State, exec .tmrAbort s = .next { s with tArm := false }) ∧
  (∀ (k : Nat) (p : Int) (s : State), 1 ≤ p → p ≤ 2 ^ 31 - 1 → s.tArm = false →
    execAll (List.replicate k (.tmrTick p)) s = .next s) ∧
  (∀ (k : Nat) (p : Int) (s : State), 1 ≤ p → p ≤ 2 ^ 31 - 1 →
    execAll (.tmrAbort :: List.replicate k (.tmrTick p)) s = .next { s with tArm := false })

/-- R168, U4: the remaining time, 0 when disarmed; on an armed negative count, which no run reaches, the outcome
`Unreachable(TimerNegative)`. -/
def Obligations.TmrGetremReportsTheCount : Prop :=
  ∀ s : State,
    (s.tArm = false → exec .tmrGetrem s = .next { s with res := .remaining 0 }) ∧
    (s.tArm = true → 0 ≤ s.tRem.toInt → ∃ n : BitVec 32, (n.toNat : Int) = s.tRem.toInt ∧
      exec .tmrGetrem s = .next { s with res := .remaining n }) ∧
    (s.tArm = true → s.tRem.toInt < 0 → exec .tmrGetrem s = .fault (.unreachable .timerNegative))

/-! ### Scheduler -/

/-- R250: a tick is its four tasks in the order of the rule, each invoking the operation the rule names. Rests on the
spec's decisions D9, D10, D11, D12. -/
def Obligations.SchedTickRunsItsTasksInOrder : Prop :=
  ∀ s : State, ∃ sample y u s1 s2 s3 s4 s5 s6, Drawn s.env.temperatures sample ∧
    s1 = { s with env := { s.env with temperatures := s.env.temperatures.tail, draws := s.env.draws + 1 } } ∧
    exec (.filtUpd sample) s1 = .next s2 ∧ s2.res = .real y ∧
    exec (.pidUpd y) { s2 with fOut := y } = .next s3 ∧ s3.res = .real u ∧
    s4 = { s3 with pAct := u, out := s3.out ++ [.actWrite u], res := s.res,
                   sDiv := BitVec.ofNat 4 ((s.sDiv.toNat + 1) % 10) } ∧
    (s4.sDiv = 0 → ∃ n, Drawn s4.env.rpms n ∧
      s5 = { s4 with rRpm := n, env := { s4.env with rpms := s4.env.rpms.tail, draws := s4.env.draws + 1 } }) ∧
    (s4.sDiv ≠ 0 → s5 = s4) ∧
    s6 = (if s5.sDiv = 0 ∨ s5.sDiv = 5 then { s5 with out := s5.out ++ [.uiRefresh] } else s5) ∧
    exec .schedTick s = exec (.tmrTick 100) s6

/-- R251: the divider counts ticks modulo 10, over any number of ticks from a legal value. Rests on the spec's
decision D11. -/
def Obligations.DividerCountsTicksModuloTen : Prop :=
  ∀ (k : Nat) (s t : State), s.sDiv.toNat < 10 → execAll (List.replicate k .schedTick) s = .next t →
    t.sDiv.toNat = (s.sDiv.toNat + k) % 10

/-- R251, R253, R255: the tachometer is sampled on the ticks that bring the divider to 0, the refresh is emitted on
those that bring it to 0 or 5, and on no other tick. Rests on the spec's decisions D11, D32, D35. -/
def Obligations.SubRateTasksRunOnTheirTicks : Prop :=
  ∀ s t : State, s.sDiv.toNat < 10 → exec .schedTick s = .next t →
    ((s.sDiv.toNat + 1) % 10 ≠ 0 → t.rRpm = s.rRpm ∧ t.env.rpms = s.env.rpms) ∧
    ((s.sDiv.toNat + 1) % 10 = 0 → Drawn s.env.rpms t.rRpm ∧ t.env.rpms = s.env.rpms.tail) ∧
    (t.out.count .uiRefresh = s.out.count .uiRefresh + if (s.sDiv.toNat + 1) % 5 = 0 then 1 else 0)

/-- R252, R314, R321: every tick first emits the command of the control step, 0.0 while the controller was off; a
turn-off fire adds a second `ACT_WRITE(0.0)` at the end, and a turn-on fire adds nothing. Rests on the spec's
decisions D10, D12. -/
def Obligations.EveryTickWritesTheActuator : Prop :=
  ∀ s : State, (s.tArm = true → 0 ≤ s.tRem.toInt) → ∃ t u ui, exec .schedTick s = .next t ∧
    (s.pEn = false → u = ⟨0⟩) ∧ (ui = [] ∨ ui = [.uiRefresh]) ∧
    (s.tArm = true ∧ s.tRem.toInt ≤ 100 ∧ s.tAct = false →
      t.out = s.out ++ [.actWrite u] ++ ui ++ [.actWrite ⟨0⟩] ∧ t.pEn = false ∧ t.pAct = ⟨0⟩ ∧ t.tArm = false) ∧
    (s.tArm = true ∧ s.tRem.toInt ≤ 100 ∧ s.tAct = true →
      t.out = s.out ++ [.actWrite u] ++ ui ∧ t.pEn = true ∧ t.pAct = u ∧ t.tArm = false) ∧
    (¬ (s.tArm = true ∧ s.tRem.toInt ≤ 100) →
      t.out = s.out ++ [.actWrite u] ++ ui ∧ t.pEn = s.pEn ∧ t.pAct = u ∧ t.tArm = s.tArm)

/-! ### Command port -/

/-- R191: `#` is a hot-reset from every state, and writes only the parser state: that it keeps the code, the length
and the buffer is the model's reading (log entry 21, DEDUCED; U7 leaves them free). R192: the transition table, for
every other byte; at a TERMINATOR the parser is in Idle and the dispatch of the remembered code runs. Rests on the
spec's decision D38 (R191). -/
def Obligations.ParserFollowsItsTransitionTable : Prop :=
  (∀ s : State, exec (.cmdByte 0x23) s = .next { s with cState := .ready }) ∧
  ∀ (b : Byte) (s : State), b ≠ 0x23 →
    (s.cState = .idle → exec (.cmdByte b) s = .next s) ∧
    (s.cState = .ready → exec (.cmdByte b) s =
      .next { s with cState := if b = 0x67 then .get else if b = 0x73 then .set else .idle }) ∧
    (s.cState = .get → b ∈ [0x74, 0x63, 0x61, 0x70, 0x69, 0x64, 0x73, 0x67, 0x72, 0x6D] →
      exec (.cmdByte b) s = .next { s with cCode := b, cState := .param }) ∧
    (s.cState = .get → b ∉ [0x74, 0x63, 0x61, 0x70, 0x69, 0x64, 0x73, 0x67, 0x72, 0x6D] →
      exec (.cmdByte b) s = .next { s with cState := .idle }) ∧
    (s.cState = .set → b ∈ [0x74, 0x69, 0x63, 0x61, 0x70, 0x64, 0x73, 0x62, 0x6E, 0x6D, 0x6B] →
      exec (.cmdByte b) s = .next { s with cCode := b, cLen := 0, cState := .value }) ∧
    (s.cState = .set → b ∉ [0x74, 0x69, 0x63, 0x61, 0x70, 0x64, 0x73, 0x62, 0x6E, 0x6D, 0x6B] →
      exec (.cmdByte b) s = .next { s with cState := .idle }) ∧
    (s.cState = .param → b ≠ 0x3B → exec (.cmdByte b) s = .next { s with cState := .idle }) ∧
    (s.cState = .param → b = 0x3B → ∀ i, queryOf s.cCode = some i →
      exec (.cmdByte b) s = exec i { s with cState := .idle }) ∧
    (s.cState = .value → (0x30 ≤ b.toNat ∧ b.toNat ≤ 0x39) ∨ b = 0x2C → s.cLen.toNat < 7 →
      ∃ t, exec (.cmdByte b) s = .next { s with cBuf := t, cLen := s.cLen + 1 } ∧
        t.toList = s.cBuf.toList.set s.cLen.toNat b) ∧
    (s.cState = .value → (0x30 ≤ b.toNat ∧ b.toNat ≤ 0x39) ∨ b = 0x2C → s.cLen.toNat = 7 →
      exec (.cmdByte b) s = .next s) ∧
    (s.cState = .value → b = 0x3B → ∀ i, assignOf s.cCode (s.cBuf.toList.take s.cLen.toNat) = some i →
      exec (.cmdByte b) s = exec i { s with cState := .idle }) ∧
    (s.cState = .value → ¬ ((0x30 ≤ b.toNat ∧ b.toNat ≤ 0x39) ∨ b = 0x2C) → b ≠ 0x3B →
      exec (.cmdByte b) s = .next { s with cState := .idle })

/-! ### Queries -/

/-- R194, R197, R198, R199, R201, R193: one line that contains the formatted register, and nothing else. That the
rest of the line is free text is the model's choice (log entry 16, DESIGN CHOICE). Rests on the spec's decisions D21,
D25, D31 (R193, R194). -/
def Obligations.RegisterQueriesEmitOneLine : Prop :=
  ∀ s : State, ∀ entry ∈ [(Instr.qTemp, Ascii.t, s.fOut), (.qKp, Ascii.p, s.pKp), (.qKi, Ascii.i, s.pKi),
      (.qKd, Ascii.d, s.pKd), (.qSp, Ascii.g, s.pSp)],
    ∃ text, exec entry.1 s = .next { s with out := s.out ++ [.line text] } ∧
      Text.floatToText entry.2.2 (Text.fmtW entry.2.1) (Text.fmtF entry.2.1) <:+: text

/-- R195, R196: one draw of the collaborator's duty, reported in percent. Rests on the spec's decision D24. -/
def Obligations.DutyQueriesDrawAndReportPercent : Prop :=
  ∀ s : State,
    (∃ duty text, Drawn s.env.coolerDuties duty ∧
      exec .qCool s = .next { s with out := s.out ++ [.line text], env := { s.env with
        coolerDuties := s.env.coolerDuties.tail, draws := s.env.draws + 1 } } ∧
      Text.floatToText (F64.mul (F64.ofRatio 100 1) duty) (Text.fmtW 0x63) (Text.fmtF 0x63) <:+: text) ∧
    (∃ duty text, Drawn s.env.heaterDuties duty ∧
      exec .qHeat s = .next { s with out := s.out ++ [.line text], env := { s.env with
        heaterDuties := s.env.heaterDuties.tail, draws := s.env.draws + 1 } } ∧
      Text.floatToText (F64.mul (F64.ofRatio 100 1) duty) (Text.fmtW 0x61) (Text.fmtF 0x61) <:+: text)

/-- R200, R202, R203: the on/off line; the line with the stored tachometer reading; the line with the timer's status
and remaining milliseconds (R168), 0 when disarmed. On an armed negative count, which no run reaches, `Q_TIMER` ends
as `TMR.GETREM` does. Rests on the spec's decisions D21, D23. -/
def Obligations.StatusQueriesEmitOneLine : Prop :=
  ∀ s : State,
    exec .qOnoff s = .next { s with out := s.out ++ [.line (Text.queryText 0x73 [.flag s.pEn])] } ∧
    (∃ text, exec .qRpm s = .next { s with out := s.out ++ [.line text] } ∧
      Text.uintToText s.rRpm.toNat (Text.uintDigits 0x72) <:+: text) ∧
    (∀ n : Nat, ((s.tArm = false ∧ n = 0) ∨ (s.tArm = true ∧ s.tRem.toInt = (n : Int))) → ∃ text,
      text = Text.queryText 0x6D [.flag s.tArm, .number (Text.uintToText n (Text.uintDigits 0x6D))] ∧
      exec .qTimer s = .next { s with out := s.out ++ [.line text] } ∧
      Text.uintToText n (Text.uintDigits 0x6D) <:+: text) ∧
    (s.tArm = true → s.tRem.toInt < 0 → exec .qTimer s = .fault (.unreachable .timerNegative))

/-- R50: a query changes no register of the block, and two identical queries in a row emit the same line, the draws
of `ga` and `gc` answering the same. -/
def Obligations.QueriesChangeNothingAndRepeat : Prop :=
  ∀ (code : Byte) (i : Instr) (s t u : State), queryOf code = some i →
    exec i s = .next t → exec i t = .next u →
    t = { s with out := t.out, env := t.env } ∧
    ((i = .qCool → ∃ d rest, s.env.coolerDuties = d :: d :: rest) →
     (i = .qHeat → ∃ d rest, s.env.heaterDuties = d :: d :: rest) →
      ∃ text, t.out = s.out ++ [.line text] ∧ u.out = s.out ++ [.line text, .line text])

/-- R193, R224, the example of §8: at 23.4 the answer to `#gt;` contains the formatted 23.4, and with one fraction
digit that is `23,4`, at every width with room for the two integer digits. Rests on the spec's decisions D21, D23,
D25. -/
def Obligations.TemperatureAnswerContains23Comma4 : Prop :=
  (∀ s : State, s.fOut = ⟨0x4037666666666666⟩ →
    ∃ text, exec .qTemp s = .next { s with out := s.out ++ [.line text] } ∧
      Text.floatToText ⟨0x4037666666666666⟩ (Text.fmtW 0x74) (Text.fmtF 0x74) <:+: text) ∧
  (∀ w, 3 ≤ w → [0x32, 0x33, 0x2C, 0x34] <:+: Text.floatToText ⟨0x4037666666666666⟩ w 1) ∧
  Text.floatToText ⟨0x4037666666666666⟩ 3 1 = [0x32, 0x33, 0x2C, 0x34]

/-! ### Assignments -/

/-- R206: an accepted setpoint clears the integral and is acknowledged by a line that contains it; another changes
nothing and emits nothing. Rests on the spec's decisions D21, D22, D23. -/
def Obligations.SetpointAssignmentIsAppliedOrSilent : Prop :=
  ∀ (value : List Byte) (s : State) (v : F64), value.all Ascii.isValueByte = true →
    v = Text.textToFloat (value.take 7) →
    (F64.lt v (F64.ofRatio 23 1) = false ∧ F64.lt (F64.ofRatio 74 1) v = false →
      exec (.aSp value) s =
        .next { s with pSp := v, pInt := ⟨0⟩, out := s.out ++ [.line (Text.ackText 0x74 v)] } ∧
      Text.floatToText v (Text.fmtW 0x74) (Text.fmtF 0x74) <:+: Text.ackText 0x74 v ∧ 1 ≤ Text.fmtF 0x74) ∧
    (F64.lt v (F64.ofRatio 23 1) = true ∨ F64.lt (F64.ofRatio 74 1) v = true → exec (.aSp value) s = .next s)

/-- R207, R210, R211. -/
def Obligations.GainAssignmentsAreStoredAndAcknowledged : Prop :=
  ∀ (value : List Byte) (s : State) (v : F64), value.all Ascii.isValueByte = true →
    v = Text.textToFloat (value.take 7) →
    exec (.aKi value) s = .next { s with pKi := v, out := s.out ++ [.line (Text.ackText 0x69 v)] } ∧
    exec (.aKp value) s = .next { s with pKp := v, out := s.out ++ [.line (Text.ackText 0x70 v)] } ∧
    exec (.aKd value) s = .next { s with pKd := v, out := s.out ++ [.line (Text.ackText 0x64 v)] }

/-- R208, R209: the duties leave the block; above its cap the cooler's is dropped in silence and the heater's is
answered by the error line. The cooler's cap is the spec's own decision. Rests on the spec's decision D19 (R208). -/
def Obligations.DutyAssignmentsRespectTheirCaps : Prop :=
  ∀ (value : List Byte) (s : State) (v : F64), value.all Ascii.isValueByte = true →
    v = Text.textToFloat (value.take 7) →
    exec (.aCool value) s = .next (if F64.le v (F64.ofRatio 1 1) = true then
      { s with out := s.out ++ [.coolerSet v, .line (Text.ackText 0x63 v)] } else s) ∧
    exec (.aHeat value) s = .next (if F64.le v (F64.ofRatio 1 2) = true then
      { s with out := s.out ++ [.heaterSet v, .line (Text.ackText 0x61 v)] }
      else { s with out := s.out ++ [.line Text.heaterCapErrText] })

/-- R212: 1 turns on from off and is acknowledged either way, 0 turns off, and another value is dropped in silence.
Rests on the spec's decision D15. -/
def Obligations.OnOffAssignmentTurnsOnOnlyFromOff : Prop :=
  ∀ (value : List Byte) (s : State) (v : F64), value.all Ascii.isValueByte = true →
    v = Text.textToFloat (value.take 7) →
    (F64.eq v (F64.ofRatio 1 1) = true → s.pEn = false → exec (.aOnoff value) s =
      .next { s with pPerr := ⟨0⟩, pInt := ⟨0⟩, pPout := ⟨0⟩, pEn := true,
                     out := s.out ++ [.line (Text.ackText 0x73 v)] }) ∧
    (F64.eq v (F64.ofRatio 1 1) = true → s.pEn = true → exec (.aOnoff value) s =
      .next { s with out := s.out ++ [.line (Text.ackText 0x73 v)] }) ∧
    (F64.eq v ⟨0⟩ = true → exec (.aOnoff value) s =
      .next { s with pAct := ⟨0⟩, pEn := false,
                     out := s.out ++ [.actWrite ⟨0⟩, .line (Text.ackText 0x73 v)] }) ∧
    (F64.eq v (F64.ofRatio 1 1) = false → F64.eq v ⟨0⟩ = false → exec (.aOnoff value) s = .next s)

/-- R214, R216: the staging registers, with both readings of the duration's cap (`DUR_CAP_MODE`, D18). Rests on the
spec's decisions D16, D18. -/
def Obligations.StagingAssignmentsLeaveTheTimerAlone : Prop :=
  ∀ (value : List Byte) (s : State) (v : F64), value.all Ascii.isValueByte = true →
    v = Text.textToFloat (value.take 7) →
    (F64.eq v (F64.ofRatio 1 1) = true → exec (.aTact value) s =
      .next { s with tCfgAct := true, out := s.out ++ [.line (Text.ackText 0x62 v)] }) ∧
    (F64.eq v ⟨0⟩ = true → exec (.aTact value) s =
      .next { s with tCfgAct := false, out := s.out ++ [.line (Text.ackText 0x62 v)] }) ∧
    (F64.eq v (F64.ofRatio 1 1) = false → F64.eq v ⟨0⟩ = false → exec (.aTact value) s = .next s) ∧
    (F64.le v (F64.ofRatio 599940 1) = true → exec (.aTdur value) s =
      .next { s with tCfgDur := v, out := s.out ++ [.line (Text.ackText 0x6E v)] }) ∧
    (F64.le v (F64.ofRatio 599940 1) = false → exec (.aTdur value) s =
      .next (if Config.durCapMode = .clamp then
        { s with tCfgDur := F64.ofRatio 599940 1,
                 out := s.out ++ [.line (Text.ackText 0x6E (F64.ofRatio 599940 1))] } else s))

/-- R217: 1 starts the timer with the staged duration and action, 0 stops it, each acknowledged; another value is
dropped in silence. Rests on the spec's decision D17. -/
def Obligations.RunAssignmentStartsAndStopsTheTimer : Prop :=
  ∀ (value : List Byte) (s : State) (v : F64), Inv s → value.all Ascii.isValueByte = true →
    v = Text.textToFloat (value.take 7) →
    (F64.eq v (F64.ofRatio 1 1) = true → ∃ t, exec (.tmrStart s.tCfgDur s.tCfgAct) s = .next t ∧
      exec (.aTrun value) s = .next { t with out := t.out ++ [.line (Text.ackText 0x6D v)] }) ∧
    (F64.eq v ⟨0⟩ = true → exec (.aTrun value) s =
      .next { s with tArm := false, out := s.out ++ [.line (Text.ackText 0x6D v)] }) ∧
    (F64.eq v (F64.ofRatio 1 1) = false → F64.eq v ⟨0⟩ = false → exec (.aTrun value) s = .next s)

/-- R218: the one-shot unlock, for whichever values the open parameter `UNLOCK_OK` accepts (log entry 17). Rests on
the spec's decision D20. -/
def Obligations.UnlockAssignmentIsOneShot : Prop :=
  ∀ (value : List Byte) (s : State) (v : F64), value.all Ascii.isValueByte = true →
    v = Text.textToFloat (value.take 7) →
    exec (.aUnlock value) s = .next (if s.cUnlock = false ∧ Config.unlockOk v = true then
      { s with cUnlock := true, out := s.out ++ [.line (Text.ackText 0x6B v)] } else s)

/-! ### Text -/

/-- R74. The exact decimal number: the digits `ip` before the first comma, over those `fp` between it and the second, or the
end; what follows the second comma counts for nothing, and a string without a comma is its integer part. The parsed value
is a nearest binary64 to it, and on a tie its pattern is even; for strings of any length whose value is finite, as every
string of seven characters or fewer has. Rests on the spec's decision D22. -/
def Obligations.TextToFloatRoundsExactly : Prop :=
  (∀ ip fp rest : List Byte, AreDigits ip → AreDigits fp →
    (Text.numerator ip = digitsValue ip ∧ (Text.fracDigits ip).length = 0) ∧
    (∀ s ∈ [ip ++ 0x2C :: fp, ip ++ 0x2C :: fp ++ 0x2C :: rest],
      Text.numerator s = digitsValue ip * 10 ^ fp.length + digitsValue fp ∧
      (Text.fracDigits s).length = fp.length)) ∧
  (∀ (s : List Byte) (c : F64), s.all Ascii.isValueByte = true → (Text.textToFloat s).isFinite = true →
    c.isFinite = true →
    ((Text.textToFloat s).value * 10 ^ (Text.fracDigits s).length - (Text.numerator s : Int) * F64.unitsPerOne).natAbs
      ≤ (c.value * 10 ^ (Text.fracDigits s).length - (Text.numerator s : Int) * F64.unitsPerOne).natAbs ∧
    (((Text.textToFloat s).value * 10 ^ (Text.fracDigits s).length - (Text.numerator s : Int) * F64.unitsPerOne).natAbs
        = (c.value * 10 ^ (Text.fracDigits s).length - (Text.numerator s : Int) * F64.unitsPerOne).natAbs →
      c.value ≠ (Text.textToFloat s).value → (Text.textToFloat s).mag % 2 = 0))

/-- R75.1: what the command port can write is never negative, NaN or infinite, and lies in [0.0, 9999999.0]. Rests on
the spec's decision D22. -/
def Obligations.TextToFloatStaysInRange : Prop :=
  ∀ s : List Byte, s.all Ascii.isValueByte = true → s.length ≤ 7 →
    (Text.textToFloat s).sign = false ∧ (Text.textToFloat s).isFinite = true ∧
    F64.le ⟨0⟩ (Text.textToFloat s) = true ∧ F64.le (Text.textToFloat s) (F64.ofRatio 9999999 1) = true

/-- R224, R225: the length of every formatted field, finite or not; the saturated field, where the number rounded to `f`
fraction digits, ties away from zero, reaches `10^(w-1)`: nines, with the comma or the blank; the digits of an unsigned
field, and its overflow marker. Rests on the spec's decision D23. -/
def Obligations.FormattedFieldsHaveTheirLength : Prop :=
  (∀ (x : F64) (w f : Nat), 2 ≤ w → (Text.floatToText x w f).length = if f = 0 then w else w + f) ∧
  (∀ (x : F64) (w f : Nat), 2 ≤ w → x.isFinite = true → F64.le ⟨0⟩ x = true →
    2 * 10 ^ (w - 1 + f) * (F64.unitsPerOne : Int) ≤ 2 * (x.value * 10 ^ f) + F64.unitsPerOne →
    Text.floatToText x w f =
      List.replicate (w - 1) 0x39 ++ if f = 0 then [0x20] else 0x2C :: List.replicate f 0x39) ∧
  (∀ n count : Nat, 1 ≤ count →
    (10 ^ count ≤ n → Text.uintToText n count = [0x58, 0x58, 0x58]) ∧
    (n < 10 ^ count → (Text.uintToText n count).length = count ∧ AreDigits (Text.uintToText n count) ∧
      digitsValue (Text.uintToText n count) = n))

/-- R226 (the round trip, for the fields that do not saturate): the decimal number a formatted field shows, its
spaces removed, is within half a unit of its last digit of the value formatted. Rests on the spec's decision D23. -/
def Obligations.FormattedFieldParsesWithinItsResolution : Prop :=
  ∀ (x : F64) (w f : Nat) (text : List Byte), 2 ≤ w → x.isFinite = true → F64.le ⟨0⟩ x = true →
    (Text.digits (Text.scaledDecimal x f / 10 ^ f)).length < w →
    text = (Text.floatToText x w f).filter (fun b => b != 0x20) →
    text.all Ascii.isValueByte = true ∧ (Text.fracDigits text).length = f ∧
    2 * ((Text.numerator text : Int) * F64.unitsPerOne - x.value * 10 ^ f).natAbs ≤ F64.unitsPerOne
end

