-- ==== Sys2Proof/Laws/Binary64.lean ====
section
/-!
SUPPORT. Lemmas of the binary64 arithmetic: the parts of a pattern, the order of the finite values, and what
rounding does, so that no later proof unfolds them. `unitsOf` names the magnitude of a pattern as a function of the
pattern alone.
-/

namespace Sys2Proof.F64

/-- The magnitude, in units of 2^-1074, of the magnitude pattern `m`. -/
def unitsOf (m : Nat) : Nat :=
  if m / 2 ^ 52 = 0 then m else (2 ^ 52 + m % 2 ^ 52) * 2 ^ (m / 2 ^ 52 - 1)

theorem units_eq (x : F64) : x.units = unitsOf x.mag := rfl

theorem mag_lt (x : F64) : x.mag < 2 ^ 63 := Nat.mod_lt _ (by decide)

theorem infMag_lt : infMag < 2 ^ 63 := by decide

theorem toNat_ofMag (neg : Bool) (m : Nat) (h : m < 2 ^ 63) :
    (ofMag neg m).bits.toNat = (if neg then 2 ^ 63 else 0) + m := by
  have : (if neg then 2 ^ 63 else 0) + m < 2 ^ 64 := by cases neg <;> simp <;> omega
  simp only [ofMag, BitVec.toNat_ofNat]
  exact Nat.mod_eq_of_lt this

@[simp] theorem mag_ofMag (neg : Bool) (m : Nat) (h : m < 2 ^ 63) : (ofMag neg m).mag = m := by
  rw [mag, toNat_ofMag neg m h]
  cases neg
  · simpa using h
  · have : (if true = true then 2 ^ 63 else 0) + m = m + 2 ^ 63 := by simp; omega
    rw [this, Nat.add_mod_right, Nat.mod_eq_of_lt h]

@[simp] theorem sign_ofMag (neg : Bool) (m : Nat) (h : m < 2 ^ 63) : (ofMag neg m).sign = neg := by
  rw [sign, toNat_ofMag neg m h]
  cases neg
  · simpa using h
  · simp

/-- A pattern is its sign and its magnitude pattern. -/
theorem ofMag_sign_mag (x : F64) : ofMag x.sign x.mag = x := by
  obtain ⟨b⟩ := x
  have hb := b.isLt
  simp only [ofMag, sign, mag, F64.mk.injEq]
  apply BitVec.eq_of_toNat_eq
  simp only [BitVec.toNat_ofNat, decide_eq_true_eq]
  split <;> omega

theorem ext_sign_mag {x y : F64} (hs : x.sign = y.sign) (hm : x.mag = y.mag) : x = y := by
  rw [← ofMag_sign_mag x, ← ofMag_sign_mag y, hs, hm]

@[simp] theorem mag_neg (x : F64) : x.neg.mag = x.mag := mag_ofMag _ _ (mag_lt x)
@[simp] theorem sign_neg (x : F64) : x.neg.sign = !x.sign := sign_ofMag _ _ (mag_lt x)
@[simp] theorem isNaN_neg (x : F64) : x.neg.isNaN = x.isNaN := by simp [isNaN]
@[simp] theorem isInf_neg (x : F64) : x.neg.isInf = x.isInf := by simp [isInf]
@[simp] theorem isFinite_neg (x : F64) : x.neg.isFinite = x.isFinite := by simp [isFinite]
@[simp] theorem units_neg (x : F64) : x.neg.units = x.units := by simp [units_eq]

theorem value_neg (x : F64) : x.neg.value = -x.value := by
  simp only [value, sign_neg, units_neg]
  cases x.sign <;> simp

theorem natAbs_value (x : F64) : x.value.natAbs = x.units := by
  simp only [value]; split <;> simp

/-- Finite, infinite and NaN exclude each other and leave nothing out. -/
theorem class_cases (x : F64) :
    (x.isFinite = true ∧ x.isInf = false ∧ x.isNaN = false) ∨
    (x.isFinite = false ∧ x.isInf = true ∧ x.isNaN = false) ∨
    (x.isFinite = false ∧ x.isInf = false ∧ x.isNaN = true) := by
  simp only [isFinite, isInf, isNaN]
  rcases Nat.lt_trichotomy x.mag infMag with h | h | h
  · left; simp; omega
  · right; left; simp [h]
  · right; right; simp; omega

theorem finite_not_nan {x : F64} (h : x.isFinite = true) : x.isNaN = false := by
  simp [isFinite, isNaN] at *; omega

theorem finite_not_inf {x : F64} (h : x.isFinite = true) : x.isInf = false := by
  simp [isFinite, isInf] at *; omega

/-- A quiet NaN is a NaN, whatever its free bits are. -/
@[simp] theorem isNaN_quietNaN (p : BitVec 52) : (quietNaN p).isNaN = true := by
  have hp : p.toNat % 2 ^ 51 < 2 ^ 51 := Nat.mod_lt _ (by decide)
  have h : infMag + 2 ^ 51 + p.toNat % 2 ^ 51 < 2 ^ 63 := by
    have : infMag + 2 ^ 51 + 2 ^ 51 ≤ 2 ^ 63 := by decide
    omega
  simp only [isNaN, quietNaN, mag_ofMag _ _ h, decide_eq_true_eq]
  omega

/-! ### The order of the finite values -/

/-- The pattern of `M * 2^k` units, for a mantissa of 53 bits (or a carry out of it). -/
theorem unitsOf_encode (k M : Nat) (hM : M ≤ 2 ^ 53) (hk : k = 0 ∨ 2 ^ 52 ≤ M) :
    unitsOf (k * 2 ^ 52 + M) = M * 2 ^ k := by
  have h52 : (2 : Nat) ^ 53 = 2 * 2 ^ 52 := by norm_num
  rcases Nat.lt_trichotomy M (2 ^ 52) with h | h | h
  · have hk0 : k = 0 := by omega
    subst hk0
    rw [Nat.zero_mul, Nat.zero_add, unitsOf, if_pos (Nat.div_eq_of_lt h), pow_zero, Nat.mul_one]
  · subst h
    have e : k * 2 ^ 52 + 2 ^ 52 = (k + 1) * 2 ^ 52 := by ring
    have d : (k + 1) * 2 ^ 52 / 2 ^ 52 = k + 1 := Nat.mul_div_cancel _ (by norm_num)
    have m : (k + 1) * 2 ^ 52 % 2 ^ 52 = 0 := Nat.mul_mod_left _ _
    rw [e, unitsOf, d, m]; simp
  · rcases Nat.lt_or_ge M (2 ^ 53) with h3 | h3
    · have e : k * 2 ^ 52 + M = (M - 2 ^ 52) + (k + 1) * 2 ^ 52 := by
        have : (k + 1) * 2 ^ 52 = k * 2 ^ 52 + 2 ^ 52 := by ring
        omega
      have lt : M - 2 ^ 52 < 2 ^ 52 := by omega
      have d : ((M - 2 ^ 52) + (k + 1) * 2 ^ 52) / 2 ^ 52 = k + 1 := by
        rw [Nat.add_mul_div_right _ _ (by norm_num), Nat.div_eq_of_lt lt]; omega
      have m : ((M - 2 ^ 52) + (k + 1) * 2 ^ 52) % 2 ^ 52 = M - 2 ^ 52 := by
        rw [Nat.add_mul_mod_self_right, Nat.mod_eq_of_lt lt]
      rw [e, unitsOf, d, m]
      rw [if_neg (by omega), Nat.add_sub_cancel, Nat.add_sub_cancel' (Nat.le_of_lt h)]
    · have e : k * 2 ^ 52 + M = (k + 2) * 2 ^ 52 := by
        have : (k + 2) * 2 ^ 52 = k * 2 ^ 52 + 2 * 2 ^ 52 := by ring
        omega
      have d : (k + 2) * 2 ^ 52 / 2 ^ 52 = k + 2 := Nat.mul_div_cancel _ (by norm_num)
      have m : (k + 2) * 2 ^ 52 % 2 ^ 52 = 0 := Nat.mul_mod_left _ _
      have hM2 : M = 2 ^ 53 := by omega
      rw [e, unitsOf, d, m, hM2]
      have : k + 2 - 1 = k + 1 := by omega
      simp only [this, Nat.add_zero]
      rw [if_neg (by omega), pow_succ]
      ring

/-- Every magnitude pattern is a mantissa below 2^53 times a power of two, the mantissa at least 2^52 unless the power is 1. -/
theorem unitsOf_parts (m : Nat) : ∃ k M, m = k * 2 ^ 52 + M ∧ M < 2 ^ 53 ∧ (k = 0 ∨ 2 ^ 52 ≤ M) ∧
    unitsOf m = M * 2 ^ k := by
  rcases Nat.eq_zero_or_pos (m / 2 ^ 52) with h | h
  · have : m < 2 ^ 52 := by
      by_contra hc
      have := Nat.div_pos (Nat.le_of_not_lt hc) (by norm_num : 0 < 2 ^ 52)
      omega
    exact ⟨0, m, by simp, by omega, .inl rfl, by rw [unitsOf, if_pos h, pow_zero, Nat.mul_one]⟩
  · have hm : m % 2 ^ 52 < 2 ^ 52 := Nat.mod_lt _ (by norm_num)
    have hd := Nat.div_add_mod m (2 ^ 52)
    refine ⟨m / 2 ^ 52 - 1, 2 ^ 52 + m % 2 ^ 52, ?_, by omega, .inr (by omega), ?_⟩
    · have : (m / 2 ^ 52 - 1) * 2 ^ 52 = 2 ^ 52 * (m / 2 ^ 52) - 2 ^ 52 := by
        rw [Nat.sub_mul, Nat.one_mul, Nat.mul_comm]
      omega
    · rw [unitsOf, if_neg (by omega)]

theorem unitsOf_lt_succ (m : Nat) : unitsOf m < unitsOf (m + 1) := by
  obtain ⟨k, M, rfl, hM, hk, h⟩ := unitsOf_parts m
  rw [h, Nat.add_assoc, unitsOf_encode k (M + 1) (by omega) (by omega)]
  exact Nat.mul_lt_mul_of_pos_right (by omega) (by positivity)

theorem unitsOf_strictMono : StrictMono unitsOf := strictMono_nat_of_lt_succ unitsOf_lt_succ

@[simp] theorem unitsOf_zero : unitsOf 0 = 0 := rfl

theorem unitsOf_infMag : unitsOf infMag = 2 ^ 2098 := by
  have := unitsOf_encode 2046 (2 ^ 52) (by norm_num) (.inr (Nat.le_refl _))
  have e : infMag = 2046 * 2 ^ 52 + 2 ^ 52 := by simp [infMag]
  rw [e, this, ← pow_add]

theorem value_lt_iff_key_lt (a b : F64) : a.value < b.value ↔ a.key < b.key := by
  have hz : ∀ x : F64, x.units = 0 ↔ x.mag = 0 := fun x => by
    rw [units_eq]
    exact ⟨fun h => unitsOf_strictMono.injective (by simpa using h), fun h => by simp [h]⟩
  have hlt : a.units < b.units ↔ a.mag < b.mag := by rw [units_eq, units_eq]; exact unitsOf_strictMono.lt_iff_lt
  have hgt : b.units < a.units ↔ b.mag < a.mag := by rw [units_eq, units_eq]; exact unitsOf_strictMono.lt_iff_lt
  have ha := hz a
  have hb := hz b
  simp only [value, key]
  cases a.sign <;> cases b.sign <;> simp <;> omega

theorem value_eq_iff_key_eq (a b : F64) : a.value = b.value ↔ a.key = b.key := by
  have h1 := value_lt_iff_key_lt a b
  have h2 := value_lt_iff_key_lt b a
  omega

theorem value_le_iff_key_le (a b : F64) : a.value ≤ b.value ↔ a.key ≤ b.key := by
  have h1 := value_lt_iff_key_lt b a
  omega

/-- The value of a sign-free pattern is its magnitude. -/
theorem value_of_sign_false {x : F64} (h : x.sign = false) : x.value = (x.units : Int) := by simp [value, h]

/-! ### Zero and the comparisons -/

theorem mk_zero : (⟨0⟩ : F64) = Param.zero := rfl

@[simp] theorem isNaN_zero : Param.zero.isNaN = false := by decide
@[simp] theorem isFinite_zero : Param.zero.isFinite = true := by decide
@[simp] theorem key_zero : Param.zero.key = 0 := by decide

theorem zero_le_iff (x : F64) : le Param.zero x = true ↔ x.isNaN = false ∧ (x.sign = false ∨ x.mag = 0) := by
  have h : 0 ≤ x.key ↔ (x.sign = false ∨ x.mag = 0) := by
    unfold key
    cases x.sign <;> simp
  simp only [le, isNaN_zero, key_zero, Bool.not_false, Bool.true_and, Bool.and_eq_true, Bool.not_eq_true',
    decide_eq_true_eq, h]

theorem le_iff_of_not_nan {a b : F64} (ha : a.isNaN = false) (hb : b.isNaN = false) :
    le a b = true ↔ a.key ≤ b.key := by simp [le, ha, hb]

theorem lt_iff_of_not_nan {a b : F64} (ha : a.isNaN = false) (hb : b.isNaN = false) :
    lt a b = true ↔ a.key < b.key := by simp [lt, ha, hb]

theorem le_eq_false_iff_lt {a b : F64} (ha : a.isNaN = false) (hb : b.isNaN = false) :
    le a b = false ↔ lt b a = true := by
  rw [lt_iff_of_not_nan hb ha, ← Bool.not_eq_true, le_iff_of_not_nan ha hb]; omega

theorem unitsPerOne_pos : 0 < unitsPerOne := by
  unfold unitsPerOne
  exact Nat.two_pow_pos 1074

/-! ### Rounding -/

/-- `divTiesEven n d` is a nearest integer to `n / d`, and even on a tie. -/
theorem divTiesEven_nearest (n d c : Nat) (hd : 0 < d) :
    ((divTiesEven n d * d : Nat) - (n : Int)).natAbs ≤ ((c * d : Nat) - (n : Int)).natAbs ∧
    (((divTiesEven n d * d : Nat) - (n : Int)).natAbs = ((c * d : Nat) - (n : Int)).natAbs →
      c ≠ divTiesEven n d → divTiesEven n d % 2 = 0) := by
  have hq := Nat.div_add_mod n d
  have hr : n % d < d := Nat.mod_lt _ hd
  generalize n / d = q at *
  generalize hr' : n % d = r at *
  -- the distance of `c`
  have key : ∀ c : Nat, (c ≤ q → ((c * d : Nat) - (n : Int)).natAbs = (q - c) * d + r) ∧
      (q < c → ((c * d : Nat) - (n : Int)).natAbs = (c - q) * d - r) := by
    intro c
    constructor
    · intro h
      have : (q - c) * d + c * d = q * d := by rw [← Nat.add_mul]; congr 1; omega
      have h2 : d * q = q * d := Nat.mul_comm _ _
      omega
    · intro h
      have : (c - q) * d + q * d = c * d := by rw [← Nat.add_mul]; congr 1; omega
      have h2 : d * q = q * d := Nat.mul_comm _ _
      have h3 : d ≤ (c - q) * d := Nat.le_mul_of_pos_left d (by omega)
      omega
  have hval : divTiesEven n d = if 2 * r < d then q else if d < 2 * r then q + 1 else q + q % 2 := by
    simp only [divTiesEven, hr']
    have : n / d = q := by
      rw [← hq, Nat.mul_add_div hd, Nat.div_eq_of_lt hr]; omega
    rw [this]
  have kq := (key q).1 (Nat.le_refl _)
  have kq1 := (key (q + 1)).2 (by omega)
  simp only [Nat.sub_self, Nat.zero_mul, Nat.zero_add, Nat.add_sub_cancel_left, Nat.one_mul] at kq kq1
  have low : c < q → d ≤ (q - c) * d := fun h => Nat.le_mul_of_pos_left d (by omega)
  have high : q + 1 < c → 2 * d ≤ (c - q) * d := fun h => Nat.mul_le_mul_right d (by omega)
  rw [hval]
  rcases Nat.lt_trichotomy c q with h | h | h
  · have kc := (key c).1 (by omega)
    have := low h
    split
    · rw [kq, kc]; constructor <;> intros <;> omega
    · split
      · rw [kq1, kc]; constructor <;> intros <;> omega
      · rcases Nat.mod_two_eq_zero_or_one q with e | e
        · rw [e, Nat.add_zero, kq, kc]; constructor <;> intros <;> omega
        · rw [e, kq1, kc]; constructor <;> intros <;> omega
  · subst h
    split
    · rw [kq]; constructor <;> intros <;> omega
    · split
      · rw [kq1, kq]; constructor <;> intros <;> omega
      · rcases Nat.mod_two_eq_zero_or_one c with e | e
        · rw [e, Nat.add_zero]; constructor <;> intros <;> omega
        · rw [e, kq1, kq]; constructor <;> intros <;> omega
  · have kc := (key c).2 h
    rcases Nat.lt_or_ge (q + 1) c with h1 | h1
    · have := high h1
      split
      · rw [kq, kc]; constructor <;> intros <;> omega
      · split
        · rw [kq1, kc]; constructor <;> intros <;> omega
        · rcases Nat.mod_two_eq_zero_or_one q with e | e
          · rw [e, Nat.add_zero, kq, kc]; constructor <;> intros <;> omega
          · rw [e, kq1, kc]; constructor <;> intros <;> omega
    · have hc : c = q + 1 := by omega
      subst hc
      split
      · rw [kq, kq1]; constructor <;> intros <;> omega
      · split
        · rw [kq1]; constructor <;> intros <;> omega
        · rcases Nat.mod_two_eq_zero_or_one q with e | e
          · rw [e, Nat.add_zero, kq, kq1]; constructor <;> intros <;> omega
          · rw [e]; constructor <;> intros <;> omega

/-- The mantissa and the exponent step that rounding chooses. -/
theorem binade_bounds (n d : Nat) (hd : 0 < d) :
    divTiesEven n (d * 2 ^ binade n d) ≤ 2 ^ 53 ∧ n < d * 2 ^ binade n d * 2 ^ 53 ∧
    (binade n d = 0 ∨ (2 ^ 52 ≤ divTiesEven n (d * 2 ^ binade n d) ∧ d * 2 ^ binade n d * 2 ^ 52 ≤ n)) := by
  have hpos : 0 < d * 2 ^ binade n d := Nat.mul_pos hd (by positivity)
  have hlog : n / d < 2 ^ (binade n d + 53) := by
    rcases Nat.eq_zero_or_pos (n / d) with h0 | h0
    · rw [h0]; positivity
    · have := Nat.lt_log2_self (n := n / d)
      refine Nat.lt_of_lt_of_le this (Nat.pow_le_pow_right (by norm_num) ?_)
      simp only [binade]; omega
  have hlt : n < d * 2 ^ binade n d * 2 ^ 53 := by
    have := (Nat.div_lt_iff_lt_mul hd).1 hlog
    rw [pow_add] at this
    calc n < 2 ^ binade n d * 2 ^ 53 * d := this
      _ = d * 2 ^ binade n d * 2 ^ 53 := by ring
  have hq : n / (d * 2 ^ binade n d) < 2 ^ 53 := by
    rw [Nat.div_lt_iff_lt_mul hpos]
    calc n < d * 2 ^ binade n d * 2 ^ 53 := hlt
      _ = 2 ^ 53 * (d * 2 ^ binade n d) := by ring
  have hup : divTiesEven n (d * 2 ^ binade n d) ≤ n / (d * 2 ^ binade n d) + 1 := by
    simp only [divTiesEven]; split
    · omega
    · split <;> omega
  have hlow : n / (d * 2 ^ binade n d) ≤ divTiesEven n (d * 2 ^ binade n d) := by
    simp only [divTiesEven]; split
    · omega
    · split <;> omega
  refine ⟨by omega, hlt, ?_⟩
  by_cases hk : binade n d = 0
  · exact .inl hk
  · right
    have h0 : n / d ≠ 0 := by
      intro h; apply hk; simp [binade, h]
    have hge : 2 ^ (52 + binade n d) ≤ n / d := by
      have := Nat.log2_self_le h0
      have e : 52 + binade n d = (n / d).log2 := by simp only [binade] at hk ⊢; omega
      rw [e]; exact this
    have hge2 : d * 2 ^ binade n d * 2 ^ 52 ≤ n := by
      have := (Nat.le_div_iff_mul_le hd).1 hge
      rw [pow_add] at this
      calc d * 2 ^ binade n d * 2 ^ 52 = 2 ^ 52 * 2 ^ binade n d * d := by ring
        _ ≤ n := this
    refine ⟨Nat.le_trans ?_ hlow, hge2⟩
    rw [Nat.le_div_iff_mul_le hpos]
    calc 2 ^ 52 * (d * 2 ^ binade n d) = d * 2 ^ binade n d * 2 ^ 52 := by ring
      _ ≤ n := hge2

/-- The magnitude pattern rounding makes, before it is capped at infinity. -/
def roundMag (n d : Nat) : Nat := binade n d * 2 ^ 52 + divTiesEven n (d * 2 ^ binade n d)

theorem unitsOf_roundMag (n d : Nat) (hd : 0 < d) :
    unitsOf (roundMag n d) = divTiesEven n (d * 2 ^ binade n d) * 2 ^ binade n d := by
  obtain ⟨h1, -, h3⟩ := binade_bounds n d hd
  exact unitsOf_encode _ _ h1 (h3.imp_right And.left)

theorem roundUnits_eq (neg : Bool) (n d : Nat) : roundUnits neg n d = ofMag neg (min infMag (roundMag n d)) := rfl

theorem min_infMag_lt (m : Nat) : min infMag m < 2 ^ 63 := Nat.lt_of_le_of_lt (Nat.min_le_left _ _) infMag_lt

@[simp] theorem sign_roundUnits (neg : Bool) (n d : Nat) : (roundUnits neg n d).sign = neg :=
  sign_ofMag _ _ (min_infMag_lt _)

theorem mag_roundUnits (neg : Bool) (n d : Nat) : (roundUnits neg n d).mag = min infMag (roundMag n d) :=
  mag_ofMag _ _ (min_infMag_lt _)

@[simp] theorem isNaN_roundUnits (neg : Bool) (n d : Nat) : (roundUnits neg n d).isNaN = false := by
  simp [isNaN, mag_roundUnits]

theorem isFinite_roundUnits_iff_mag (neg : Bool) (n d : Nat) :
    (roundUnits neg n d).isFinite = true ↔ roundMag n d < infMag := by
  simp [isFinite, mag_roundUnits]

/-- What rounding answers is a nearest magnitude among all magnitude patterns, and an even pattern on a tie. -/
theorem roundMag_nearest (n d m : Nat) (hd : 0 < d) :
    ((unitsOf (roundMag n d) * d : Nat) - (n : Int)).natAbs ≤ ((unitsOf m * d : Nat) - (n : Int)).natAbs ∧
    (((unitsOf (roundMag n d) * d : Nat) - (n : Int)).natAbs = ((unitsOf m * d : Nat) - (n : Int)).natAbs →
      unitsOf m ≠ unitsOf (roundMag n d) → roundMag n d % 2 = 0) := by
  obtain ⟨hM, hlt, hk⟩ := binade_bounds n d hd
  rw [unitsOf_roundMag n d hd]
  have hpos : 0 < d * 2 ^ binade n d := Nat.mul_pos hd (by positivity)
  have assoc : ∀ a : Nat, a * 2 ^ binade n d * d = a * (d * 2 ^ binade n d) := fun a => by ring
  obtain ⟨j, M', rfl, hM', hj, hu⟩ := unitsOf_parts m
  rw [hu]
  by_cases hjk : binade n d ≤ j
  · -- `c` is a multiple of the step
    have e : M' * 2 ^ j = M' * 2 ^ (j - binade n d) * 2 ^ binade n d := by
      rw [Nat.mul_assoc, ← pow_add]; congr 2; omega
    rw [e, assoc, assoc]
    have := divTiesEven_nearest n (d * 2 ^ binade n d) (M' * 2 ^ (j - binade n d)) hpos
    refine ⟨this.1, fun h hne => ?_⟩
    have hne' : M' * 2 ^ (j - binade n d) ≠ divTiesEven n (d * 2 ^ binade n d) := fun h' => hne (by rw [h'])
    have := this.2 h hne'
    simp only [roundMag]
    omega
  · -- `c` lies below the binade
    have hk' := hk.resolve_left (by omega)
    have hc : M' * 2 ^ j < 2 ^ 52 * 2 ^ binade n d := by
      calc M' * 2 ^ j < 2 ^ 53 * 2 ^ j := Nat.mul_lt_mul_of_pos_right hM' (by positivity)
        _ = 2 ^ 52 * 2 ^ (j + 1) := by rw [pow_succ 2 j]; ring
        _ ≤ 2 ^ 52 * 2 ^ binade n d := Nat.mul_le_mul_left _ (Nat.pow_le_pow_right (by norm_num) (by omega))
    have hcd : M' * 2 ^ j * d < 2 ^ 52 * (d * 2 ^ binade n d) := by
      rw [← assoc]; exact Nat.mul_lt_mul_of_pos_right hc hd
    have hb := (divTiesEven_nearest n (d * 2 ^ binade n d) (2 ^ 52) hpos).1
    have hle : 2 ^ 52 * (d * 2 ^ binade n d) ≤ n := by
      rw [Nat.mul_comm]; exact hk'.2
    rw [assoc]
    constructor
    · omega
    · intro h; exfalso; omega

/-- Rounding stays finite exactly below the midpoint beyond the largest finite value. -/
theorem roundMag_lt_infMag_iff (n d : Nat) (hd : 0 < d) :
    roundMag n d < infMag ↔ n < (2 ^ 2098 - 2 ^ 2044) * d := by
  obtain ⟨hM, hlt, hk⟩ := binade_bounds n d hd
  have hmono : roundMag n d < infMag ↔ unitsOf (roundMag n d) < 2 ^ 2098 := by
    rw [← unitsOf_infMag]; exact unitsOf_strictMono.lt_iff_lt.symm
  rw [hmono, unitsOf_roundMag n d hd]
  have hpos : 0 < d * 2 ^ binade n d := Nat.mul_pos hd (by positivity)
  have e98 : (2 : Nat) ^ 2098 - 2 ^ 2044 = (2 ^ 54 - 1) * 2 ^ 2044 := by
    rw [Nat.sub_mul, ← pow_add, Nat.one_mul]
  rw [e98]
  generalize hkk : binade n d = k at *
  rcases Nat.lt_trichotomy k 2045 with h | h | h
  · have p : (2:Nat) ^ k ≤ 2 ^ 2044 := Nat.pow_le_pow_right (by norm_num) (by omega)
    have l1 : divTiesEven n (d * 2 ^ k) * 2 ^ k < 2 ^ 2098 := by
      calc divTiesEven n (d * 2 ^ k) * 2 ^ k ≤ 2 ^ 53 * 2 ^ 2044 := Nat.mul_le_mul hM p
        _ = 2 ^ 2097 := by rw [← pow_add]
        _ < 2 ^ 2098 := Nat.pow_lt_pow_right (by norm_num) (by norm_num)
    have l2 : n < (2 ^ 54 - 1) * 2 ^ 2044 * d := by
      calc n < d * 2 ^ k * 2 ^ 53 := hlt
        _ ≤ d * 2 ^ 2044 * 2 ^ 53 := Nat.mul_le_mul_right _ (Nat.mul_le_mul_left _ p)
        _ = 2 ^ 53 * (2 ^ 2044 * d) := by ring
        _ ≤ (2 ^ 54 - 1) * (2 ^ 2044 * d) := Nat.mul_le_mul_right _ (by norm_num)
        _ = _ := by ring
    simp only [l1, l2]
  · subst h
    have e : (2:Nat) ^ 2098 = 2 ^ 53 * 2 ^ 2045 := by rw [← pow_add]
    have e2 : (2:Nat)^2045 = 2 * 2 ^ 2044 := pow_succ' 2 2044
    rw [e, Nat.mul_lt_mul_right (by positivity)]
    have key : (2 ^ 54 - 1) * 2 ^ 2044 * d = (2 ^ 54 - 1) * (2 ^ 2044 * d) := by ring
    rw [key]
    have e3 : d * 2 ^ 2045 = 2 * (2 ^ 2044 * d) := by rw [e2]; ring
    have hD : 0 < 2 ^ 2044 * d := Nat.mul_pos (Nat.pow_pos (by norm_num)) hd
    rw [e3]
    clear hlt hk hmono hkk hM hpos e3 key e e2 e98
    generalize 2 ^ 2044 * d = D at *
    have hq := Nat.div_add_mod n (2 * D)
    have hr : n % (2 * D) < 2 * D := Nat.mod_lt _ (by omega)
    simp only [divTiesEven]
    generalize n / (2 * D) = q at *
    generalize n % (2 * D) = r at *
    constructor
    · intro hx
      have hq' : q ≤ 2 ^ 53 - 1 := by
        by_contra hc
        split at hx <;> [skip; split at hx] <;> omega
      rcases Nat.lt_or_ge q (2^53-1) with h1 | h1
      · have : 2 * D * (q + 1) ≤ 2 * D * (2 ^ 53 - 1) := Nat.mul_le_mul_left _ (by omega)
        have e1 : 2 * D * (q + 1) = 2 * D * q + 2 * D := by ring
        have e2 : 2 * D * (2 ^ 53 - 1) = (2^54 - 2) * D := by
          rw [show (2:Nat)^54 - 2 = 2 * (2^53-1) by norm_num]; ring
        have e3 : (2^54 - 2) * D ≤ (2 ^ 54 - 1) * D := Nat.mul_le_mul_right _ (by norm_num)
        omega
      · have hqe : q = 2^53 - 1 := by omega
        subst hqe
        have hlt : r < D := by
          by_contra hc
          split at hx
          · omega
          · split at hx
            · omega
            · norm_num at hx
        have e2 : 2 * D * (2 ^ 53 - 1) = (2^54 - 2) * D := by
          rw [show (2:Nat)^54 - 2 = 2 * (2^53-1) by norm_num]; ring
        have e3 : (2 ^ 54 - 1) * D = (2^54 - 2) * D + D := by
          rw [show (2:Nat)^54 - 1 = (2^54-2) + 1 by norm_num]; ring
        omega
    · intro hx
      have hq' : q ≤ 2 ^ 53 - 1 := by
        by_contra hc
        have : 2 * D * 2 ^ 53 ≤ 2 * D * q := Nat.mul_le_mul_left _ (by omega)
        have e2 : 2 * D * 2 ^ 53 = 2 ^ 54 * D := by ring
        have e3 : (2 ^ 54 - 1) * D ≤ 2 ^ 54 * D := Nat.mul_le_mul_right _ (by norm_num)
        omega
      rcases Nat.lt_or_ge q (2^53-1) with h1 | h1
      · have : q % 2 ≤ 1 := by omega
        split
        · omega
        · split <;> omega
      · have hqe : q = 2^53 - 1 := by omega
        subst hqe
        have e2 : 2 * D * (2 ^ 53 - 1) = (2^54 - 2) * D := by
          rw [show (2:Nat)^54 - 2 = 2 * (2^53-1) by norm_num]; ring
        have e3 : (2 ^ 54 - 1) * D = (2^54 - 2) * D + D := by
          rw [show (2:Nat)^54 - 1 = (2^54-2) + 1 by norm_num]; ring
        rw [if_pos (by omega)]; norm_num
  · have hk' := hk.resolve_left (by omega)
    have p : (2:Nat) ^ 2046 ≤ 2 ^ k := Nat.pow_le_pow_right (by norm_num) (by omega)
    have l1 : 2 ^ 2098 ≤ divTiesEven n (d * 2 ^ k) * 2 ^ k := by
      calc (2:Nat) ^ 2098 = 2 ^ 52 * 2 ^ 2046 := by rw [← pow_add]
        _ ≤ _ := Nat.mul_le_mul hk'.1 p
    have l2 : (2 ^ 54 - 1) * 2 ^ 2044 * d ≤ n := by
      calc (2 ^ 54 - 1) * 2 ^ 2044 * d ≤ 2 ^ 54 * 2 ^ 2044 * d :=
            Nat.mul_le_mul_right _ (Nat.mul_le_mul_right _ (by norm_num))
        _ = d * (2 ^ 52 * 2 ^ 2046) := by rw [← pow_add, ← pow_add, Nat.mul_comm]
        _ = d * 2 ^ 2046 * 2 ^ 52 := by ring
        _ ≤ d * 2 ^ k * 2 ^ 52 := Nat.mul_le_mul_right _ (Nat.mul_le_mul_left _ p)
        _ ≤ n := hk'.2
    constructor
    · intro hx; exact absurd hx (Nat.not_lt.2 l1)
    · intro hx; exact absurd hx (Nat.not_lt.2 l2)

/-- A finite result of rounding is a nearest value among all finite values, and an even pattern on a tie; `z` is the signed
quantity rounded, in units of 2^-1074 over `d`. -/
theorem roundUnits_nearest (neg : Bool) (n d : Nat) (hd : 0 < d) (z : Int)
    (hz : z = if neg then -(n : Int) else n) (hf : (roundUnits neg n d).isFinite = true) (c : F64) :
    ((roundUnits neg n d).value * d - z).natAbs ≤ (c.value * d - z).natAbs ∧
    (((roundUnits neg n d).value * d - z).natAbs = (c.value * d - z).natAbs →
      c.value ≠ (roundUnits neg n d).value → (roundUnits neg n d).mag % 2 = 0) := by
  have hm : (roundUnits neg n d).mag = roundMag n d := by
    rw [mag_roundUnits]; exact Nat.min_eq_right (Nat.le_of_lt ((isFinite_roundUnits_iff_mag _ _ _).1 hf))
  have hval : (roundUnits neg n d).value = if neg then -(unitsOf (roundMag n d) : Int) else unitsOf (roundMag n d) := by
    simp only [value, sign_roundUnits, units_eq, hm]
  rw [hm, hval]
  have h1 := roundMag_nearest n d c.mag hd
  have h0 := roundMag_nearest n d 0 hd
  rw [← units_eq] at h1
  simp only [unitsOf_zero, Nat.zero_mul, Nat.cast_zero] at h0
  generalize unitsOf (roundMag n d) = R at *
  have ec : ((c.units * d : Nat) : Int) = (c.units : Int) * d := by push_cast; ring
  have eR : ((R * d : Nat) : Int) = (R : Int) * d := by push_cast; ring
  have hposm : 0 ≤ (c.units : Int) * d := by positivity
  have hcd : c.units ≠ 0 → 0 < (c.units : Int) * d := fun h => by have := Nat.pos_of_ne_zero h; positivity
  rw [ec, eR] at h1
  rw [eR] at h0
  simp only [value]
  subst hz
  have hgo : c.units = 0 → (c.units : Int) * d = 0 := fun h => by rw [h]; simp
  cases neg <;> cases hs : c.sign <;>
    simp only [Bool.false_eq_true, if_false, if_true, Int.neg_mul] <;>
    (refine ⟨by omega, fun he hne => ?_⟩) <;>
    by_cases hc0 : c.units = 0 <;> (try have := hgo hc0) <;> (try have := hcd hc0) <;> (try (apply h1.2 <;> omega))

/-- Rounding stays below every representable bound of the exact quotient. -/
theorem roundMag_le_of_le (n d m : Nat) (hd : 0 < d) (h : n ≤ unitsOf m * d) : roundMag n d ≤ m := by
  by_contra hc
  have h1 := (roundMag_nearest n d m hd).1
  have h2 : unitsOf m < unitsOf (roundMag n d) := unitsOf_strictMono (Nat.lt_of_not_le hc)
  have h3 : unitsOf m * d < unitsOf (roundMag n d) * d := Nat.mul_lt_mul_of_pos_right h2 hd
  generalize unitsOf (roundMag n d) * d = x at *
  generalize unitsOf m * d = y at *
  omega

/-- Rounding to an integer stays below every integer bound of the exact quotient. -/
theorem divTiesEven_le_of_le (n d c : Nat) (hd : 0 < d) (h : n ≤ c * d) : divTiesEven n d ≤ c := by
  by_contra hc
  have h1 := (divTiesEven_nearest n d c hd).1
  have h3 : c * d < divTiesEven n d * d := Nat.mul_lt_mul_of_pos_right (Nat.lt_of_not_le hc) hd
  generalize divTiesEven n d * d = x at *
  generalize c * d = y at *
  omega

/-! ### What the operations answer -/

/-- A sum of finite values is the rounded exact sum, or the zero the signs choose. -/
theorem add_of_finite {a b : F64} (ha : a.isFinite = true) (hb : b.isFinite = true) :
    add a b = if a.value + b.value = 0 then zero (a.sign && b.sign)
      else roundUnits (a.value + b.value < 0) (a.value + b.value).natAbs 1 := by
  simp [add, addOr, finite_not_nan ha, finite_not_nan hb, finite_not_inf ha, finite_not_inf hb]

/-- A product of finite values is the rounded exact product with the sign of the signs. -/
theorem mul_of_finite {a b : F64} (ha : a.isFinite = true) (hb : b.isFinite = true) :
    mul a b = roundUnits (a.sign != b.sign) (a.units * b.units) unitsPerOne := by
  simp [mul, finite_not_nan ha, finite_not_nan hb, finite_not_inf ha, finite_not_inf hb]

theorem isNaN_addOr_of_nan {nan a b : F64} (hn : nan.isNaN = true) (h : a.isNaN = true ∨ b.isNaN = true) :
    (addOr nan a b).isNaN = true := by
  rw [addOr, if_pos (by simpa using h), hn]

theorem isNaN_add_of_nan {a b : F64} (h : a.isNaN = true ∨ b.isNaN = true) : (add a b).isNaN = true :=
  isNaN_addOr_of_nan (isNaN_quietNaN _) h

theorem isNaN_sub_of_nan {a b : F64} (h : a.isNaN = true ∨ b.isNaN = true) : (sub a b).isNaN = true :=
  isNaN_addOr_of_nan (isNaN_quietNaN _) (by simpa using h)

theorem isNaN_mul_of_nan {a b : F64} (h : a.isNaN = true ∨ b.isNaN = true) : (mul a b).isNaN = true := by
  rw [mul, if_pos (by simpa using h), isNaN_quietNaN]

@[simp] theorem isFinite_zero_signed (neg : Bool) : (zero neg).isFinite = true := by cases neg <;> decide +kernel
@[simp] theorem isNaN_zero_signed (neg : Bool) : (zero neg).isNaN = false := finite_not_nan (isFinite_zero_signed neg)
@[simp] theorem value_zero_signed (neg : Bool) : (zero neg).value = 0 := by cases neg <;> decide +kernel

/-- An infinity is one of two patterns. -/
theorem eq_inf_of_isInf {x : F64} (h : x.isInf = true) : x = inf x.sign := by
  refine ext_sign_mag ?_ ?_
  · rw [inf, sign_ofMag _ _ infMag_lt]
  · rw [inf, mag_ofMag _ _ infMag_lt]; simpa [isInf] using h

@[simp] theorem isInf_inf (neg : Bool) : (inf neg).isInf = true := by cases neg <;> decide
@[simp] theorem isNaN_inf (neg : Bool) : (inf neg).isNaN = false := by cases neg <;> decide
@[simp] theorem isFinite_inf (neg : Bool) : (inf neg).isFinite = false := by cases neg <;> decide
@[simp] theorem sign_inf (neg : Bool) : (inf neg).sign = neg := by cases neg <;> decide

/-- Rounding that is not finite is the infinity with the sign asked for. -/
theorem roundUnits_of_not_finite {neg : Bool} {n d : Nat} (h : (roundUnits neg n d).isFinite = false) :
    roundUnits neg n d = inf neg := by
  rcases class_cases (roundUnits neg n d) with h' | h' | h'
  · rw [h] at h'; cases h'.1
  · have := eq_inf_of_isInf h'.2.1; rwa [sign_roundUnits] at this
  · rw [isNaN_roundUnits] at h'; cases h'.2.2

@[simp] theorem isFinite_quietNaN (p : BitVec 52) : (quietNaN p).isFinite = false := by
  by_contra h
  have := finite_not_nan (x := quietNaN p) (by simpa using h)
  rw [isNaN_quietNaN] at this; cases this

/-- Infinities and NaNs do not become finite by addition. -/
theorem not_isFinite_add {a b : F64} (h : a.isFinite = false ∨ b.isFinite = false) : (add a b).isFinite = false := by
  rcases class_cases a with ⟨a1, a2, a3⟩ | ⟨a1, a2, a3⟩ | ⟨a1, a2, a3⟩ <;>
    rcases class_cases b with ⟨b1, b2, b3⟩ | ⟨b1, b2, b3⟩ | ⟨b1, b2, b3⟩
  · simp [a1, b1] at h
  all_goals simp [add, addOr, *]
  split <;> simp [*]

/-- Infinities and NaNs do not become finite by multiplication. -/
theorem not_isFinite_mul {a b : F64} (h : a.isFinite = false ∨ b.isFinite = false) : (mul a b).isFinite = false := by
  rcases class_cases a with ⟨a1, a2, a3⟩ | ⟨a1, a2, a3⟩ | ⟨a1, a2, a3⟩ <;>
    rcases class_cases b with ⟨b1, b2, b3⟩ | ⟨b1, b2, b3⟩ | ⟨b1, b2, b3⟩
  · simp [a1, b1] at h
  all_goals simp [mul, *]
  all_goals split <;> simp

/-- A factor of at most one keeps a finite value finite. -/
theorem isFinite_mul_of_le_one {a x : F64} (ha : a.isFinite = true) (hx : x.isFinite = true)
    (h : a.units ≤ unitsPerOne) : (mul a x).isFinite = true := by
  rw [mul_of_finite ha hx, isFinite_roundUnits_iff_mag]
  refine Nat.lt_of_le_of_lt (roundMag_le_of_le _ _ x.mag unitsPerOne_pos ?_) (by simpa [isFinite] using hx)
  rw [Nat.mul_comm, ← units_eq]
  exact Nat.mul_le_mul_left _ h

/-- `toIntTiesEven` is a nearest integer to a value, and even on a tie. -/
theorem toIntTiesEven_nearest (x : F64) (c : Int) :
    (x.toIntTiesEven * unitsPerOne - x.value).natAbs ≤ (c * unitsPerOne - x.value).natAbs ∧
    ((x.toIntTiesEven * unitsPerOne - x.value).natAbs = (c * unitsPerOne - x.value).natAbs →
      c ≠ x.toIntTiesEven → x.toIntTiesEven % 2 = 0) := by
  have hp := unitsPerOne_pos
  have near := divTiesEven_nearest x.units unitsPerOne
  have atZero := near 0 hp
  have atAbs := near c.natAbs hp
  generalize hq : divTiesEven x.units unitsPerOne = q at *
  generalize hP : unitsPerOne = P at *
  have cast : ∀ n : Nat, ((n * P : Nat) : Int) = (n : Int) * P := fun n => by push_cast; rfl
  have hc : c * P = if c < 0 then -((c.natAbs * P : Nat) : Int) else ((c.natAbs * P : Nat) : Int) := by
    rw [cast]
    split
    · rw [show c = -(c.natAbs : Int) by omega]; simp
    · rw [show c = (c.natAbs : Int) by omega]; simp
  have pos : c ≠ 0 → 0 < c.natAbs * P := fun h => Nat.mul_pos (by omega) hp
  simp only [toIntTiesEven, value, hq, hP, hc]
  generalize c.natAbs * P = cP at *
  have hqP : -(q : Int) * P = -((q * P : Nat) : Int) := by push_cast; ring
  simp only [Nat.zero_mul, Nat.cast_zero] at atZero
  cases x.sign <;> simp only [Bool.false_eq_true, if_false, if_true, hqP, ← cast] <;> generalize q * P = qP at * <;>
    by_cases hn : c < 0 <;> simp only [hn, if_true, if_false] <;> omega

end Sys2Proof.F64
end

