-- ==== Sys2Proof/Laws/Decode.lean ====
section
/-!
SUPPORT. Lemmas of the decoder: its equation, what the bytes of a value field are not, and the frames behind the
two code tables.
-/

namespace Sys2Proof

theorem ne_sentinel_of_isValueByte {b : Byte} (h : Ascii.isValueByte b = true) : b ≠ Ascii.sentinel := by
  rintro rfl; exact absurd h (by decide)

theorem ne_terminator_of_isValueByte {b : Byte} (h : Ascii.isValueByte b = true) : b ≠ Ascii.terminator := by
  rintro rfl; exact absurd h (by decide)

theorem ne_sentinel_of_queryOf {c : Byte} {i : Instr} (h : queryOf c = some i) : c ≠ Ascii.sentinel := by
  rintro rfl
  exact absurd h (by simp [queryOf, Ascii.sentinel, Ascii.t, Ascii.c, Ascii.a, Ascii.p, Ascii.i, Ascii.d, Ascii.s,
    Ascii.g, Ascii.r, Ascii.m])

theorem ne_sentinel_of_assignOf {c : Byte} {v : List Byte} {i : Instr} (h : assignOf c v = some i) :
    c ≠ Ascii.sentinel := by
  rintro rfl
  exact absurd h (by simp [assignOf, Ascii.sentinel, Ascii.t, Ascii.i, Ascii.c, Ascii.a, Ascii.p, Ascii.d, Ascii.s,
    Ascii.b, Ascii.n, Ascii.m, Ascii.k])

/-- A SENTINEL restarts the decoder from every point of a frame (R71). -/
theorem decodeFrom_sentinel (st : DecodeState) (rest : List Byte) :
    decodeFrom st (Ascii.sentinel :: rest) = decodeFrom .ready rest := by
  simp [decodeFrom]

/-- Whether a code is in the Set code set does not depend on the value (R73). -/
theorem isSome_assignOf (c : Byte) (v w : List Byte) : (assignOf c v).isSome = (assignOf c w).isSome := by
  simp only [assignOf, apply_ite Option.isSome, Option.isSome_some]

/-- A value field in mid-frame: its bytes are collected up to the TERMINATOR. -/
theorem decodeFrom_value (code : Byte) (value soFar rest : List Byte) (i : Instr)
    (h : value.all Ascii.isValueByte = true) (hi : assignOf code (soFar ++ value) = some i) :
    decodeFrom (.value code soFar) (value ++ [Ascii.terminator] ++ rest) = .ok (i, rest) := by
  induction value generalizing soFar with
  | nil =>
    have e1 : Ascii.isValueByte Ascii.terminator = false := by decide
    have e2 : ¬ Ascii.terminator = Ascii.sentinel := by decide
    rw [List.append_nil] at hi
    simp [decodeFrom, e1, e2, hi]
  | cons b bs ih =>
    simp only [List.all_cons, Bool.and_eq_true] at h
    simp only [List.cons_append, decodeFrom, if_neg (ne_sentinel_of_isValueByte h.1), h.1, if_true]
    exact ih (soFar ++ [b]) h.2 (by simpa using hi)

/-- A query and its code: the instruction is well formed and its frame is the code's. -/
theorem queryOf_spec {c : Byte} {i : Instr} (h : queryOf c = some i) :
    i.wellFormed = true ∧ encode i = some (queryFrame c) := by
  simp only [queryOf] at h
  repeat' (split at h)
  all_goals first
    | contradiction
    | (rw [Option.some.injEq] at h; subst h; subst_vars; exact ⟨rfl, rfl⟩)

/-- An assignment and its code: the instruction is well formed when the value is, and its frame is the code's. -/
theorem assignOf_spec {c : Byte} {v : List Byte} {i : Instr} (h : assignOf c v = some i) :
    i.wellFormed = v.all Ascii.isValueByte ∧ encode i = some (assignFrame c v) := by
  simp only [assignOf] at h
  repeat' (split at h)
  all_goals first
    | contradiction
    | (rw [Option.some.injEq] at h; subst h; subst_vars; exact ⟨rfl, rfl⟩)

end Sys2Proof
end

