-- ==== Sys2Proof/Laws/State.lean ====
section
/-!
SUPPORT. What each update of the state leaves in the state. The simp lemmas of `emit`, `answer`, `takeEvent`, the
draws, `filtInit`, the gain setters, `pidOn`, `pidOff`, `tmrAbort`, `divideTask` and `toIdle` are generated beside
their definitions; here stand those of the remaining shared operations, as one equation for the whole state
each. The block has no addressable memory (R45), so there are no memory lemmas.
-/

namespace Sys2Proof.Machine

@[simp] theorem filtUpd_snd (x : F64) (s : State) : (filtUpd x s).2 =
    { s with fEma := smooth x s.fEma, fDbase := smooth x s.fDbase, fDema := smooth (smooth x s.fDbase) s.fDema } := by
  simp only [filtUpd]

@[simp] theorem filtUpd_fst (x : F64) (s : State) : (filtUpd x s).1 =
    F64.sub (F64.mul Param.two (smooth x s.fDbase)) (smooth (smooth x s.fDbase) s.fDema) := by
  simp only [filtUpd]

theorem pidSetsp_accepted {v : F64} (s : State) (h : setpointAccepted v = true) :
    pidSetsp v s = (true, { s with pSp := v, pInt := Param.zero }) := by simp [pidSetsp, h]

theorem pidSetsp_rejected {v : F64} (s : State) (h : setpointAccepted v = false) : pidSetsp v s = (false, s) := by
  simp [pidSetsp, h]

@[simp] theorem pidUpd_disabled {s : State} (m : F64) (h : s.pEn = false) : pidUpd m s = (Param.zero, s) := by
  simp [pidUpd, h]

theorem pidUpd_enabled {s : State} (m : F64) (h : s.pEn = true) : pidUpd m s =
    clamp (pidRaw m s) { s with pInt := pidIntegral m s, pPerr := pidError m s, pPout := pidRaw m s } := by
  simp [pidUpd, h]

theorem acknowledge_eq (code : Byte) (v : F64) (s : State) :
    acknowledge code v s = { s with out := s.out ++ [.line (Text.ackText code v)] } := rfl

theorem emitQuery_eq (code : Byte) (fields : List Field) (s : State) :
    emitQuery code fields s = { s with out := s.out ++ [.line (Text.queryText code fields)] } := rfl

theorem appendChar_full {s : State} (b : Byte) (h : 7 ≤ s.cLen.toNat) : appendChar b s = s := by
  simp [appendChar, Param.vbufMax, Nat.not_lt.2 h]

theorem appendChar_room {s : State} (b : Byte) (h : s.cLen.toNat < 7) : appendChar b s =
    { s with cBuf := s.cBuf.setIfInBounds s.cLen.toNat b, cLen := s.cLen + 1 } := by
  simp [appendChar, Param.vbufMax, h]

end Sys2Proof.Machine
end

