-- ==== Sys2Proof/Laws/Ops.lean ====
section
/-!
SUPPORT. For each shared operation, what it does when it answers a next state: to be cited instead of unfolding it.
-/

namespace Sys2Proof.Machine

/-! ### Composition -/

theorem andThen_next (s : State) (k : State → Outcome) : andThen (.next s) k = k s := rfl

theorem andThen_eq_next {o : Outcome} {k : State → Outcome} {t : State} :
    andThen o k = .next t ↔ ∃ s, o = .next s ∧ k s = .next t := by
  cases o <;> simp [andThen]

theorem execAll_cons (i : Instr) (is : List Instr) (s : State) :
    execAll (i :: is) s = andThen (exec i s) (execAll is) := rfl

theorem execAll_of_next {i : Instr} {is : List Instr} {s t : State} (h : exec i s = .next t) :
    execAll (i :: is) s = execAll is t := by rw [execAll_cons, h, andThen_next]

theorem execAll_single (i : Instr) (s : State) : execAll [i] s = exec i s := by
  rw [execAll_cons]; cases exec i s <;> rfl

theorem execAll_append (is js : List Instr) (s : State) :
    execAll (is ++ js) s = andThen (execAll is s) (execAll js) := by
  induction is generalizing s with
  | nil => rfl
  | cons i is ih =>
    rw [List.cons_append, execAll_cons, execAll_cons]
    cases exec i s with
    | next t => exact ih t
    | fault r => rfl
    | refused r => rfl

/-! ### Draws -/

theorem firstAnswer_drawn {α : Type} (answers : List α) (free : α) : Drawn answers (firstAnswer answers free) := by
  rintro a rest rfl; rfl

theorem inOutRange_zero : inOutRange Param.zero = true := by decide +kernel
theorem inOutRange_outMax : inOutRange Param.outMax = true := by decide +kernel

theorem drawClampNaN_inRange (s : State) : inOutRange (drawClampNaN s).1 = true := by
  simp only [drawClampNaN]
  split
  · assumption
  · exact inOutRange_zero

/-! ### The controller -/

/-- `Clamp` answers a value of the output range (R137). -/
theorem clamp_inRange (raw : F64) (s : State) : inOutRange (clamp raw s).1 = true := by
  simp only [clamp]
  split
  · exact drawClampNaN_inRange s
  · split
    · exact inOutRange_zero
    · split
      · exact inOutRange_outMax
      · rename_i hn hl hg
        have h0 : F64.le Param.zero raw = true := by
          rw [← Bool.not_eq_false, F64.le_eq_false_iff_lt F64.isNaN_zero (by simpa using hn)]; exact hl
        have h1 : F64.le raw Param.outMax = true := by
          rw [← Bool.not_eq_false, F64.le_eq_false_iff_lt (by simpa using hn) (by decide +kernel)]; exact hg
        simp [inOutRange, h0, h1]

/-- `Clamp` changes nothing but the environment, and that only to count a draw on a NaN. -/
theorem clamp_state (raw : F64) (s : State) : (clamp raw s).2 =
    { s with env := if raw.isNaN then { s.env with draws := s.env.draws + 1 } else s.env } := by
  simp only [clamp, drawClampNaN]
  split
  · simp [*]
  · split
    · simp [*]
    · split <;> simp [*]

/-- `PID.UPD` answers a value of the output range (R144). -/
theorem pidUpd_inRange (m : F64) (s : State) : inOutRange (pidUpd m s).1 = true := by
  rw [pidUpd]
  split
  · exact clamp_inRange _ _
  · exact inOutRange_zero

/-- What `PID.UPD` may change: the integral, the previous error, the unclamped output and the count of draws. -/
theorem pidUpd_state (m : F64) (s : State) : ∃ int perr pout env, (pidUpd m s).2 =
    { s with pInt := int, pPerr := perr, pPout := pout, env := env } ∧ env.events = s.env.events ∧
      env.rpms = s.env.rpms ∧ env.temperatures = s.env.temperatures := by
  rw [pidUpd]
  split
  · refine ⟨_, _, _, _, clamp_state _ _, ?_⟩
    split <;> simp
  · exact ⟨s.pInt, s.pPerr, s.pPout, s.env, rfl, rfl, rfl, rfl⟩

/-! ### The timer -/

theorem periodInDomain_iff (p : Int) : periodInDomain p = true ↔ 1 ≤ p ∧ p ≤ 2 ^ 31 - 1 := by
  simp [periodInDomain]

theorem toInt_ofInt32 (z : Int) (h1 : -(2 ^ 31) ≤ z) (h2 : z < 2 ^ 31) : (BitVec.ofInt 32 z).toInt = z := by
  rw [BitVec.toInt_ofInt, Int.bmod_def]; omega

/-- What a tick of the timer can do (R165). -/
theorem tmrTick_cases {p : Int} {s t : State} (h : tmrTick p s = .next t) :
    periodInDomain p = true ∧
    ((s.tArm = false ∧ t = s) ∨
     (s.tArm = true ∧ -(2 ^ 31) ≤ s.tRem.toInt - p ∧ 0 < s.tRem.toInt - p ∧
       t = { s with tRem := BitVec.ofInt 32 (s.tRem.toInt - p) }) ∨
     (s.tArm = true ∧ -(2 ^ 31) ≤ s.tRem.toInt - p ∧ s.tRem.toInt - p ≤ 0 ∧
       t = { tmrAction { s with tRem := BitVec.ofInt 32 (s.tRem.toInt - p) } with tArm := false })) := by
  simp only [tmrTick] at h
  split at h
  · cases h
  · rename_i hp
    refine ⟨by simpa using hp, ?_⟩
    split at h
    · rename_i ha
      exact .inl ⟨ha, by injection h with h; exact h.symm⟩
    · rename_i ha
      split at h
      · cases h
      · rename_i hr
        split at h <;> rename_i hz <;> injection h with h
        · exact .inr (.inr ⟨by simpa using ha, by omega, hz, h.symm⟩)
        · exact .inr (.inl ⟨by simpa using ha, by omega, by omega, h.symm⟩)

/-- A tick of the timer completes on every count an armed timer holds (R27, R165). -/
theorem tmrTick_completes {p : Int} {s : State} (hp : periodInDomain p = true)
    (hs : s.tArm = true → 0 ≤ s.tRem.toInt) : ∃ t, tmrTick p s = .next t := by
  have hq := (periodInDomain_iff p).1 hp
  simp only [tmrTick, hp]
  by_cases ha : s.tArm = true
  · have := hs ha
    rw [if_neg (by simp), if_neg (by simp [ha]), if_neg (by omega)]
    split <;> exact ⟨_, rfl⟩
  · simp [ha]

/-- What the action of a fire does: at most one event, and never to the timer or its staging (R165). -/
theorem tmrAction_cases (s : State) :
    (s.tAct = false ∧ tmrAction s = pidOff s) ∨
    (s.tAct = true ∧ s.pEn = false ∧ tmrAction s = pidOn s) ∨
    (s.tAct = true ∧ s.pEn = true ∧ tmrAction s = s) := by
  rw [tmrAction]
  cases s.tAct <;> cases s.pEn <;> simp

/-- A duration in the domain of a start is finite, and its magnitude is no larger than the cap's. -/
theorem durationInDomain_spec {d : F64} (h : durationInDomain d = true) :
    d.isNaN = false ∧ (d.sign = false ∨ d.mag = 0) ∧ d.mag ≤ Param.durMaxS.mag := by
  simp only [durationInDomain, Bool.and_eq_true] at h
  obtain ⟨hn, hs⟩ := (F64.zero_le_iff d).1 h.1
  refine ⟨hn, hs, ?_⟩
  rcases hs with hs | hs
  · have hk := (F64.le_iff_of_not_nan hn (by decide +kernel)).1 h.2
    have e : Param.durMaxS.key = (Param.durMaxS.mag : Int) := by decide +kernel
    rw [e, F64.key, hs] at hk
    simp at hk; exact hk
  · rw [hs]; exact Nat.zero_le _

/-- The product of a start is finite and not above 599940000.0 (R160). -/
theorem durationProduct_spec {d : F64} (h : durationInDomain d = true) :
    (F64.mul d Param.thousand).isFinite = true ∧
      (F64.mul d Param.thousand).units ≤ 599940000 * F64.unitsPerOne ∧
      (d.sign = true → (F64.mul d Param.thousand).units = 0) ∧ (F64.mul d Param.thousand).sign = d.sign := by
  obtain ⟨-, hs, hm⟩ := durationInDomain_spec h
  have hP := F64.unitsPerOne_pos
  have hfin : d.isFinite = true := by
    have : Param.durMaxS.mag < F64.infMag := by decide +kernel
    simp [F64.isFinite]; omega
  have hmul : F64.mul d Param.thousand = F64.roundUnits d.sign (d.units * Param.thousand.units) F64.unitsPerOne := by
    rw [F64.mul_of_finite hfin (by decide +kernel), show Param.thousand.sign = false by decide +kernel, Bool.bne_false]
  have hu : d.units ≤ Param.durMaxS.units := by
    rw [F64.units_eq, F64.units_eq]; exact F64.unitsOf_strictMono.monotone hm
  have e4 : Param.durMaxS.units * Param.thousand.units
      = F64.unitsOf (F64.ofRatio 599940000 1).mag * F64.unitsPerOne := by decide +kernel
  have hle : d.units * Param.thousand.units ≤ F64.unitsOf (F64.ofRatio 599940000 1).mag * F64.unitsPerOne := by
    rw [← e4]; exact Nat.mul_le_mul_right _ hu
  have hr := F64.roundMag_le_of_le _ _ _ hP hle
  have e5 : F64.unitsOf (F64.ofRatio 599940000 1).mag = 599940000 * F64.unitsPerOne := by decide +kernel
  have e6 : (F64.ofRatio 599940000 1).mag < F64.infMag := by decide +kernel
  rw [hmul]
  refine ⟨(F64.isFinite_roundUnits_iff_mag _ _ _).2 (Nat.lt_of_le_of_lt hr e6), ?_, fun hneg => ?_, F64.sign_roundUnits _ _ _⟩
  · rw [F64.units_eq, F64.mag_roundUnits, ← e5]
    exact F64.unitsOf_strictMono.monotone (Nat.le_trans (Nat.min_le_right _ _) hr)
  · have hu0 : d.units = 0 := by rw [F64.units_eq, hs.resolve_left (by simp [hneg])]; rfl
    have : F64.roundMag 0 F64.unitsPerOne ≤ 0 := F64.roundMag_le_of_le _ _ _ hP (by simp)
    rw [F64.units_eq, F64.mag_roundUnits, hu0, Nat.zero_mul, Nat.le_zero.1 this]; simp

/-- The millisecond count of a start (R160, R27). -/
theorem millisOf_range {d : F64} (h : durationInDomain d = true) : 0 ≤ millisOf d ∧ millisOf d ≤ 599940000 := by
  obtain ⟨-, hx, h0, hsx⟩ := durationProduct_spec h
  have hP := F64.unitsPerOne_pos
  have hd := F64.divTiesEven_le_of_le _ _ _ hP hx
  rw [millisOf, F64.toIntTiesEven, hsx]
  cases hs : d.sign
  · simp; exact_mod_cast hd
  · have := F64.divTiesEven_le_of_le _ _ 0 hP (Nat.le_of_eq ((h0 hs).trans (Nat.zero_mul _).symm))
    rw [Nat.le_zero.1 this]; simp

theorem tmrStart_cases {d : F64} {act : Bool} {s t : State} (h : tmrStart d act s = .next t) :
    durationInDomain d = true ∧
      t = { s with tRem := BitVec.ofInt 32 (millisOf d), tAct := act, tArm := true } := by
  rw [tmrStart] at h
  split at h
  · exact ⟨‹_›, by injection h with h; exact h.symm⟩
  · cases h

/-! ### The command port -/

/-- An assignment completes only on a value field of digits and commas, and then as its rule says (R71, R204). -/
theorem withValue_eq_next {value : List Byte} {rule : F64 → Outcome} {t : State} :
    withValue value rule = .next t ↔
      value.all Ascii.isValueByte = true ∧ rule (Text.textToFloat (keptChars value)) = .next t := by
  rw [withValue]
  split <;> simp [*]

/-- The same, with the parsed value as a variable, which keeps later steps from unfolding the parser. -/
theorem withValue_next {value : List Byte} {rule : F64 → Outcome} {t : State} (h : withValue value rule = .next t) :
    value.all Ascii.isValueByte = true ∧ ∃ v, v = Text.textToFloat (keptChars value) ∧ rule v = .next t :=
  ⟨(withValue_eq_next.1 h).1, _, rfl, (withValue_eq_next.1 h).2⟩

theorem withValue_legal {value : List Byte} (rule : F64 → Outcome) (h : value.all Ascii.isValueByte = true) :
    withValue value rule = rule (Text.textToFloat (value.take 7)) := by
  rw [withValue, if_pos h, keptChars, Param.vbufMax]

/-- The dispatch of a query's code runs the query the table of R72 gives it. -/
theorem dispatchQuery_eq {code : Byte} {i : Instr} (s : State) (h : queryOf code = some i) :
    dispatchQuery code s = exec i s := by
  simp only [queryOf] at h
  simp only [dispatchQuery]
  repeat' (split at h)
  all_goals first
    | contradiction
    | (rw [Option.some.injEq] at h; subst h; simp only [*, if_true]; rfl)

/-- The dispatch of an assignment's code runs the assignment the table of R73 gives it. -/
theorem dispatchAssign_eq {code : Byte} {value : List Byte} {i : Instr} (s : State) (h : assignOf code value = some i) :
    dispatchAssign code value s = exec i s := by
  simp only [assignOf] at h
  simp only [dispatchAssign]
  repeat' (split at h)
  all_goals first
    | contradiction
    | (rw [Option.some.injEq] at h; subst h; simp only [*, if_true]; rfl)

theorem dispatchQuery_none {code : Byte} (s : State) (h : queryOf code = none) :
    dispatchQuery code s = raise .paramCode := by
  simp only [queryOf] at h
  simp only [dispatchQuery]
  repeat' (split at h)
  all_goals first | contradiction | simp only [*, if_false]

theorem dispatchAssign_none {code : Byte} {value : List Byte} (s : State) (h : assignOf code value = none) :
    dispatchAssign code value s = raise .paramCode := by
  simp only [assignOf] at h
  simp only [dispatchAssign]
  repeat' (split at h)
  all_goals first | contradiction | simp only [*, if_false]

/-! ### The scheduler -/

/-- One tick is its tasks up to the display, then the timer (R250, R314). -/
theorem execSchedTick_eq (s : State) :
    exec .schedTick s = tmrTick 100 (uiTask (tachTask (divideTask (controlTask s)))) := rfl

end Sys2Proof.Machine
end

