-- ==== Sys2Proof/Laws/Port.lean ====
section
/-!
SUPPORT. Lemmas of the parser: one byte that is no SENTINEL, and a run of value bytes into the seven-character buffer.
-/

namespace Sys2Proof.Machine

theorem cmdByte_of_ne_sentinel {b : Byte} (s : State) (h : b ≠ Ascii.sentinel) :
    exec (.cmdByte b) s = parserStep b s := if_neg h

/-- The value bytes received one after the other. -/
def appendAll (value : List Byte) (s : State) : State := value.foldl (fun s b => appendChar b s) s

theorem appendAll_cons (b : Byte) (bs : List Byte) (s : State) :
    appendAll (b :: bs) s = appendAll bs (appendChar b s) := rfl

/-- An append changes the buffer and its length only. -/
theorem appendChar_portOnly (b : Byte) (s : State) :
    appendChar b s = { s with cBuf := (appendChar b s).cBuf, cLen := (appendChar b s).cLen } := by
  rw [appendChar]; split <;> rfl

/-- In the state Value, value bytes only fill the buffer (R192). -/
theorem execAll_valueBytes (value : List Byte) (s : State) (hs : s.cState = .value)
    (h : value.all Ascii.isValueByte = true) :
    execAll (value.map .cmdByte) s = .next (appendAll value s) := by
  induction value generalizing s with
  | nil => rfl
  | cons b bs ih =>
    simp only [List.all_cons, Bool.and_eq_true] at h
    have e : exec (.cmdByte b) s = .next (appendChar b s) := by
      rw [cmdByte_of_ne_sentinel _ (ne_sentinel_of_isValueByte h.1), parserStep, hs]
      simp [h.1]
    rw [List.map_cons, execAll_of_next e, appendAll_cons]
    exact ih _ (by rw [appendChar_portOnly]; exact hs) h.2

/-- The buffer after a run of value bytes from a length within its seven places: the characters kept are the first
that fit, the rest are dropped, and what stood beyond them stays (R71, R192). -/
theorem appendAll_spec (value : List Byte) (s : State) (hs : s.cLen.toNat ≤ 7) :
    appendAll value s = { s with cBuf := (appendAll value s).cBuf, cLen := (appendAll value s).cLen } ∧
    (appendAll value s).cLen.toNat = min 7 (s.cLen.toNat + value.length) ∧
    (appendAll value s).cBuf.toList = s.cBuf.toList.take s.cLen.toNat ++ value.take (7 - s.cLen.toNat) ++
      s.cBuf.toList.drop (min 7 (s.cLen.toNat + value.length)) := by
  induction value generalizing s with
  | nil =>
    refine ⟨rfl, ?_, ?_⟩
    · simp [appendAll, hs]
    · simp [appendAll, Nat.min_eq_right hs]
  | cons b bs ih =>
    rw [appendAll_cons]
    rcases Nat.lt_or_ge s.cLen.toNat 7 with h7 | h7
    · have el : (s.cLen + 1).toNat = s.cLen.toNat + 1 := by
        rw [BitVec.toNat_add]
        have : (1 : BitVec 3).toNat = 1 := rfl
        omega
      rw [appendChar_room b h7]
      have := ih { s with cBuf := s.cBuf.setIfInBounds s.cLen.toNat b, cLen := s.cLen + 1 } (by simp only [el]; omega)
      simp only [el] at this
      obtain ⟨h1, h2, h3⟩ := this
      refine ⟨h1, ?_, ?_⟩
      · rw [h2, List.length_cons]; congr 1; omega
      · rw [h3]
        have hb : s.cBuf.toList.length = 7 := by simp
        have hl : (s.cBuf.setIfInBounds s.cLen.toNat b).toList = s.cBuf.toList.set s.cLen.toNat b := by
          simp [Vector.toList, Vector.setIfInBounds]
        rw [hl]
        have e1 : (s.cBuf.toList.set s.cLen.toNat b).take (s.cLen.toNat + 1) = s.cBuf.toList.take s.cLen.toNat ++ [b] := by
          rw [List.take_add_one, List.take_set_of_le (Nat.le_refl _), List.getElem?_set_self (by omega)]; rfl
        have e2 : ∀ k, s.cLen.toNat < k → (s.cBuf.toList.set s.cLen.toNat b).drop k = s.cBuf.toList.drop k := by
          intro k hk; rw [List.drop_set_of_lt hk]
        rw [e1, e2 _ (by omega)]
        have e3 : 7 - s.cLen.toNat = (7 - (s.cLen.toNat + 1)) + 1 := by omega
        rw [e3, List.take_succ_cons, List.length_cons]
        have e4 : s.cLen.toNat + (bs.length + 1) = s.cLen.toNat + 1 + bs.length := by omega
        rw [e4]
        simp
    · have e7 : s.cLen.toNat = 7 := by omega
      rw [appendChar_full b h7]
      obtain ⟨h1, h2, h3⟩ := ih s hs
      refine ⟨h1, ?_, ?_⟩
      · rw [h2, List.length_cons]; omega
      · rw [h3, e7]; simp

end Sys2Proof.Machine
end

