-- ==== Sys2Proof/Laws/Text.lean ====
section
/-!
SUPPORT. Lemmas of numbers and text: what strings of digits stand for, the parts of a value string, the digits
of a number and their length, and that every text of the block is ASCII.
-/

namespace Sys2Proof.Text

/-! ### Digits and their value -/

theorem decimal_nil : decimal [] = 0 := rfl

theorem decimal_append_one (ds : List Byte) (b : Byte) : decimal (ds ++ [b]) = 10 * decimal ds + digitValue b := by
  simp [decimal]

theorem digitValue_le {b : Byte} (h : Ascii.isDigit b = true) : digitValue b ≤ 9 := by
  simp [Ascii.isDigit, Ascii.digit0, Ascii.digit9, digitValue] at *; omega

theorem decimal_lt (ds : List Byte) (h : ds.all Ascii.isDigit = true) : decimal ds < 10 ^ ds.length := by
  induction ds using List.reverseRecOn with
  | nil => simp [decimal]
  | append_singleton ds b ih =>
    simp only [List.all_append, Bool.and_eq_true, List.all_cons, List.all_nil] at h
    have := ih h.1
    have := digitValue_le h.2.1
    rw [decimal_append_one, List.length_append, List.length_singleton, pow_succ]
    omega

theorem decimal_append (xs ys : List Byte) : decimal (xs ++ ys) = decimal xs * 10 ^ ys.length + decimal ys := by
  induction ys using List.reverseRecOn with
  | nil => simp [decimal]
  | append_singleton ys b ih =>
    rw [← List.append_assoc, decimal_append_one, decimal_append_one, ih, List.length_append,
      List.length_singleton, pow_succ]
    ring

theorem decimal_replicate_zero (k : Nat) (ds : List Byte) :
    decimal (List.replicate k Ascii.digit0 ++ ds) = decimal ds := by
  have h : decimal (List.replicate k Ascii.digit0) = 0 := by
    induction k with
    | zero => rfl
    | succ k ih =>
      rw [List.replicate_succ', decimal_append_one, ih]; rfl
  rw [decimal_append, h]; simp

theorem toNat_digitByte {n : Nat} (h : n < 10) : (digitByte n).toNat = 48 + n := by
  simp [digitByte, Ascii.digit0]; omega

@[simp] theorem isDigit_digitByte {n : Nat} (h : n < 10) : Ascii.isDigit (digitByte n) = true := by
  simp [Ascii.isDigit, toNat_digitByte h, Ascii.digit0, Ascii.digit9]; omega

theorem digitValue_digitByte {n : Nat} (h : n < 10) : digitValue (digitByte n) = n := by
  simp [digitValue, toNat_digitByte h, Ascii.digit0]

theorem digitsWithin_isDigit (fuel n : Nat) : (digitsWithin fuel n).all Ascii.isDigit = true := by
  induction fuel generalizing n with
  | zero => rfl
  | succ fuel ih =>
    rw [digitsWithin]
    split
    · next h => simp [isDigit_digitByte h]
    · simp [ih, isDigit_digitByte (Nat.mod_lt n (by decide : 0 < 10))]

theorem digits_isDigit (n : Nat) : (digits n).all Ascii.isDigit = true := digitsWithin_isDigit _ _

theorem decimal_digitsWithin (fuel n : Nat) (h : n < 2 ^ fuel) (hf : 0 < fuel) : decimal (digitsWithin fuel n) = n := by
  induction fuel generalizing n with
  | zero => omega
  | succ fuel ih =>
    rw [digitsWithin]
    split
    · next h10 => simp [decimal, digitValue_digitByte h10]
    · next h10 =>
      have hf0 : 0 < fuel := by
        rcases Nat.eq_zero_or_pos fuel with rfl | h0
        · simp at h; omega
        · exact h0
      have hlt : n / 10 < 2 ^ fuel := by rw [pow_succ] at h; omega
      rw [decimal_append_one, ih _ hlt hf0, digitValue_digitByte (Nat.mod_lt n (by decide))]
      omega

/-- The digits of a number stand for it. -/
theorem decimal_digits (n : Nat) : decimal (digits n) = n :=
  decimal_digitsWithin _ n Nat.lt_log2_self (by omega)

theorem length_digitsWithin_le (fuel n k : Nat) (hk : 0 < k) (h : n < 10 ^ k) : (digitsWithin fuel n).length ≤ k := by
  induction fuel generalizing n k with
  | zero => simp [digitsWithin]
  | succ fuel ih =>
    rw [digitsWithin]
    split
    · simp; omega
    · next h10 =>
      obtain ⟨k, rfl⟩ : ∃ j, k = j + 1 := ⟨k - 1, by omega⟩
      have hk0 : 0 < k := by
        rcases Nat.eq_zero_or_pos k with rfl | h0
        · simp at h; omega
        · exact h0
      have : n / 10 < 10 ^ k := by rw [pow_succ] at h; omega
      have := ih _ k hk0 this
      simp; omega

/-- A number below `10^k` has at most `k` digits. -/
theorem length_digits_le {n k : Nat} (hk : 0 < k) (h : n < 10 ^ k) : (digits n).length ≤ k :=
  length_digitsWithin_le _ n k hk h

theorem length_padLeft (w : Nat) (c : Byte) (s : List Byte) (h : s.length ≤ w) : (padLeft w c s).length = w := by
  simp [padLeft]; omega

/-- A number from `10^k` on has more than `k` digits. -/
theorem lt_length_digits {n k : Nat} (h : 10 ^ k ≤ n) : k < (digits n).length := by
  have hlt := decimal_lt (digits n) (digits_isDigit n)
  rw [decimal_digits] at hlt
  exact (Nat.pow_lt_pow_iff_right (by norm_num)).1 (Nat.lt_of_le_of_lt h hlt)

theorem padLeft_isDigit (w : Nat) {s : List Byte} (h : s.all Ascii.isDigit = true) :
    (padLeft w Ascii.digit0 s).all Ascii.isDigit = true := by
  rw [padLeft, List.all_append, h, Bool.and_true, List.all_eq_true]
  intro b hb
  rw [(List.mem_replicate.1 hb).2]; decide

/-- The value of a string of digits in Mathlib's terms, whose lists have the least significant digit first. -/
theorem decimal_eq_ofDigits (ds : List Byte) : decimal ds = Nat.ofDigits 10 (ds.reverse.map digitValue) := by
  induction ds using List.reverseRecOn with
  | nil => rfl
  | append_singleton ds b ih =>
    rw [decimal_append_one, ih, List.reverse_append, List.reverse_singleton, List.singleton_append, List.map_cons,
      Nat.ofDigits_cons]
    simp; omega

/-! ### The parts of a value string -/

theorem isValueByte_of_isDigit {b : Byte} (h : Ascii.isDigit b = true) : Ascii.isValueByte b = true := by
  simp [Ascii.isValueByte, h]

theorem not_comma_of_isDigit {b : Byte} (h : Ascii.isDigit b = true) : (b != Ascii.comma) = true := by
  simp only [bne_iff_ne, ne_eq]
  rintro rfl
  exact absurd h (by decide)

theorem isDigit_of_isValueByte {b : Byte} (h : Ascii.isValueByte b = true) (hc : (b != Ascii.comma) = true) :
    Ascii.isDigit b = true := by
  simp [Ascii.isValueByte] at h
  rcases h with h | h
  · exact h
  · simp [h] at hc

theorem takeWhile_isDigit (s : List Byte) (h : s.all Ascii.isValueByte = true) :
    (s.takeWhile (· != Ascii.comma)).all Ascii.isDigit = true := by
  rw [List.all_eq_true] at *
  intro b hb
  exact isDigit_of_isValueByte (h b ((List.takeWhile_sublist _).subset hb)) (List.mem_takeWhile_imp (p := (· != Ascii.comma)) hb)

theorem intDigits_isDigit (s : List Byte) (h : s.all Ascii.isValueByte = true) :
    (intDigits s).all Ascii.isDigit = true := takeWhile_isDigit s h

theorem fracDigits_isDigit (s : List Byte) (h : s.all Ascii.isValueByte = true) :
    (fracDigits s).all Ascii.isDigit = true := by
  apply takeWhile_isDigit
  rw [List.all_eq_true] at *
  intro b hb
  exact h b ((List.dropWhile_sublist _).subset ((List.drop_sublist _ _).subset hb))

/-- Digits up to a comma are what comes before it. -/
theorem split_at_comma {ds : List Byte} (r : List Byte) (h : ds.all Ascii.isDigit = true) :
    (ds ++ Ascii.comma :: r).takeWhile (· != Ascii.comma) = ds ∧
    (ds ++ Ascii.comma :: r).dropWhile (· != Ascii.comma) = Ascii.comma :: r := by
  have hp : ∀ b ∈ ds, (b != Ascii.comma) = true := fun b hb => not_comma_of_isDigit (List.all_eq_true.1 h b hb)
  constructor
  · rw [List.takeWhile_append_of_pos hp]; simp
  · rw [List.dropWhile_append_of_pos hp]; simp

/-- Digits alone hold no comma. -/
theorem split_digits {ds : List Byte} (h : ds.all Ascii.isDigit = true) :
    ds.takeWhile (· != Ascii.comma) = ds ∧ ds.dropWhile (· != Ascii.comma) = [] := by
  have hp : ∀ b ∈ ds, (b != Ascii.comma) = true := fun b hb => not_comma_of_isDigit (List.all_eq_true.1 h b hb)
  exact ⟨List.takeWhile_eq_self_iff.2 hp, List.dropWhile_eq_nil_iff.2 hp⟩

theorem intDigits_of_digits {ip : List Byte} (h : ip.all Ascii.isDigit = true) : intDigits ip = ip := (split_digits h).1

theorem fracDigits_of_digits {ip : List Byte} (h : ip.all Ascii.isDigit = true) : fracDigits ip = [] := by
  rw [fracDigits, (split_digits h).2]; rfl

theorem intDigits_at_comma {ip : List Byte} (r : List Byte) (h : ip.all Ascii.isDigit = true) :
    intDigits (ip ++ Ascii.comma :: r) = ip := (split_at_comma r h).1

theorem fracDigits_at_comma {ip : List Byte} (r : List Byte) (h : ip.all Ascii.isDigit = true) :
    fracDigits (ip ++ Ascii.comma :: r) = intDigits r := by
  rw [fracDigits, (split_at_comma r h).2]; rfl

/-- The digits of a value string, and the comma between them if there is one, fit its length. -/
theorem length_parts_le (s : List Byte) :
    (intDigits s).length + (fracDigits s).length ≤ s.length ∧
    ((fracDigits s).length ≠ 0 → (intDigits s).length + (fracDigits s).length + 1 ≤ s.length) := by
  have h1 : (intDigits s).length + (s.dropWhile (· != Ascii.comma)).length = s.length := by
    rw [← List.length_append, intDigits, List.takeWhile_append_dropWhile]
  have h2 : (fracDigits s).length ≤ ((s.dropWhile (· != Ascii.comma)).drop 1).length :=
    (List.takeWhile_sublist _).length_le
  rw [List.length_drop] at h2
  omega

/-- A value of at most seven characters stands for at most 9999999 (R75). -/
theorem numerator_le (s : List Byte) (h : s.all Ascii.isValueByte = true) (h7 : s.length ≤ 7) :
    numerator s ≤ 9999999 * 10 ^ (fracDigits s).length := by
  have hi := decimal_lt _ (intDigits_isDigit s h)
  have hf := decimal_lt _ (fracDigits_isDigit s h)
  obtain ⟨h1, h2⟩ := length_parts_le s
  simp only [numerator]
  rcases Nat.eq_zero_or_pos (fracDigits s).length with h0 | h0
  · have : (10 : Nat) ^ (intDigits s).length ≤ 10 ^ 7 := Nat.pow_le_pow_right (by norm_num) (by omega)
    have e : fracDigits s = [] := List.length_eq_zero_iff.1 h0
    rw [e, decimal_nil, List.length_nil, pow_zero]
    omega
  · have : (10 : Nat) ^ (intDigits s).length ≤ 10 ^ 6 := Nat.pow_le_pow_right (by norm_num) (by omega)
    have hi' : decimal (intDigits s) + 1 ≤ 10 ^ 6 := by omega
    have := Nat.mul_le_mul_right (10 ^ (fracDigits s).length) hi'
    have e : (decimal (intDigits s) + 1) * 10 ^ (fracDigits s).length
      = decimal (intDigits s) * 10 ^ (fracDigits s).length + 10 ^ (fracDigits s).length := by ring
    have : (10 : Nat) ^ 6 * 10 ^ (fracDigits s).length ≤ 9999999 * 10 ^ (fracDigits s).length :=
      Nat.mul_le_mul_right _ (by norm_num)
    omega

/-! ### Formatted numbers -/

/-- `FloatToText` where the integer part has room (R224). -/
theorem formatScaled_of_fits (n w f : Nat) (h : (digits (n / 10 ^ f)).length < w) :
    formatScaled n w f = padLeft (w - 1) Ascii.space (digits (n / 10 ^ f)) ++
      (if f = 0 then [Ascii.space] else Ascii.comma :: padLeft f Ascii.digit0 (digits (n % 10 ^ f))) := by
  have h' := Nat.not_le.2 h
  rw [formatScaled]
  split <;> simp [*]

/-- `FloatToText` where it saturates (R224). -/
theorem formatScaled_of_overflow (n w f : Nat) (h : w ≤ (digits (n / 10 ^ f)).length) :
    formatScaled n w f = List.replicate (w - 1) (digitByte 9) ++
      (if f = 0 then [Ascii.space] else Ascii.comma :: List.replicate f (digitByte 9)) := by
  rw [formatScaled]
  split <;> simp [*]

/-- The scaled decimal is a nearest integer to the value, which stands above zero. -/
theorem scaledDecimal_near (f : Nat) (x : F64) (hx : x.value = (x.units : Int)) :
    2 * ((scaledDecimal x f : Int) * F64.unitsPerOne - x.value * 10 ^ f).natAbs ≤ F64.unitsPerOne := by
  rw [hx]
  have e : ((x.units : Int) * 10 ^ f) = ((x.units * 10 ^ f : Nat) : Int) := by push_cast; rfl
  rw [e, scaledDecimal]
  generalize x.units * 10 ^ f = v
  have hp := F64.unitsPerOne_pos
  generalize F64.unitsPerOne = P at *
  have h1 := Nat.div_add_mod (2 * v + P) (2 * P)
  have h2 := Nat.mod_lt (2 * v + P) (by omega : 0 < 2 * P)
  have e3 : 2 * P * ((2 * v + P) / (2 * P)) = 2 * ((2 * v + P) / (2 * P) * P) := by ring
  have e4 : (((2 * v + P) / (2 * P) : Nat) : Int) * (P : Int) = (((2 * v + P) / (2 * P) * P : Nat) : Int) := by
    push_cast; rfl
  rw [e4]
  generalize (2 * v + P) / (2 * P) * P = X at *
  omega

/-- The scaled decimal reaches `m` where the value does, rounded with ties away from zero. -/
theorem le_scaledDecimal_iff (m f : Nat) (x : F64) :
    m ≤ scaledDecimal x f ↔ 2 * m * F64.unitsPerOne ≤ 2 * (x.units * 10 ^ f) + F64.unitsPerOne := by
  rw [scaledDecimal, Nat.le_div_iff_mul_le (Nat.mul_pos (by norm_num) F64.unitsPerOne_pos)]
  rw [show m * (2 * F64.unitsPerOne) = 2 * m * F64.unitsPerOne by ring]

/-! ### ASCII -/

theorem ascii_lt (cs : List (BitVec 7)) : ∀ b ∈ ascii cs, b.toNat < 128 := by
  intro b hb
  simp only [ascii, List.mem_map] at hb
  obtain ⟨c, -, rfl⟩ := hb
  have := c.isLt
  simp; omega

theorem isDigit_lt {b : Byte} (h : Ascii.isDigit b = true) : b.toNat < 128 := by
  simp [Ascii.isDigit, Ascii.digit0, Ascii.digit9] at h; omega

theorem padLeft_lt (w : Nat) (c : Byte) (s : List Byte) (hc : c.toNat < 128) (hs : ∀ b ∈ s, b.toNat < 128) :
    ∀ b ∈ padLeft w c s, b.toNat < 128 := by
  intro b hb
  simp only [padLeft, List.mem_append, List.mem_replicate] at hb
  rcases hb with ⟨-, rfl⟩ | hb
  · exact hc
  · exact hs b hb

theorem digits_lt (n : Nat) : ∀ b ∈ digits n, b.toNat < 128 := fun b hb =>
  isDigit_lt (List.all_eq_true.1 (digits_isDigit n) b hb)

theorem formatScaled_lt (n w f : Nat) : ∀ b ∈ formatScaled n w f, b.toNat < 128 := by
  have hrep : ∀ k, ∀ b ∈ List.replicate k (digitByte 9), b.toNat < 128 := by
    intro k b hb; rw [(List.mem_replicate.1 hb).2]; decide
  have hp := padLeft_lt (w - 1) Ascii.space _ (by decide) (digits_lt (n / 10 ^ f))
  have hq := padLeft_lt f Ascii.digit0 _ (by decide) (digits_lt (n % 10 ^ f))
  intro b hb
  simp only [formatScaled] at hb
  split at hb
  · rcases List.mem_append.1 hb with hb | hb
    · split at hb
      · exact hrep _ b hb
      · exact hp b hb
    · rw [List.mem_singleton.1 hb]; decide
  · rcases List.mem_append.1 hb with hb | hb
    · rcases List.mem_append.1 hb with hb | hb
      · split at hb
        · exact hrep _ b hb
        · exact hp b hb
      · rw [List.mem_singleton.1 hb]; decide
    · split at hb
      · exact hrep _ b hb
      · exact hq b hb

theorem floatToText_lt (x : F64) (w f : Nat) : ∀ b ∈ floatToText x w f, b.toNat < 128 := by
  rw [floatToText]
  split
  · exact formatScaled_lt _ _ _
  · exact ascii_lt _

theorem uintToText_lt (n k : Nat) : ∀ b ∈ uintToText n k, b.toNat < 128 := by
  rw [uintToText]
  split
  · intro b hb; rw [(List.mem_replicate.1 hb).2]; decide
  · exact padLeft_lt _ _ _ (by decide) (digits_lt n)

/-- The text of a query is ASCII when its formatted fields are. -/
theorem joinFields_lt (gap : Nat → List (BitVec 7)) (n : Nat) (fs : List Field)
    (h : ∀ t, Field.number t ∈ fs → ∀ b ∈ t, b.toNat < 128) : ∀ b ∈ joinFields gap n fs, b.toNat < 128 := by
  induction fs generalizing n with
  | nil => exact ascii_lt _
  | cons f fs ih =>
    have ih := ih (n + 1) (fun t ht => h t (List.mem_cons_of_mem _ ht))
    intro b hb
    cases f with
    | number t =>
      simp only [joinFields, List.mem_append] at hb
      rcases hb with (hb | hb) | hb
      · exact ascii_lt _ b hb
      · exact h t List.mem_cons_self b hb
      · exact ih b hb
    | flag v =>
      simp only [joinFields, List.mem_append] at hb
      rcases hb with hb | hb
      · exact ascii_lt _ b hb
      · exact ih b hb

theorem ackText_lt (code : Byte) (v : F64) : ∀ b ∈ ackText code v, b.toNat < 128 := by
  intro b hb
  rw [ackText] at hb
  split at hb
  · simp only [List.mem_append] at hb
    rcases hb with (hb | hb) | hb
    · exact ascii_lt _ b hb
    · exact floatToText_lt _ _ _ b hb
    · exact ascii_lt _ b hb
  · exact ascii_lt _ b hb

/-- A line contains each of its formatted fields as a contiguous substring (R193). -/
theorem number_isInfix_joinFields (gap : Nat → List (BitVec 7)) (n : Nat) (fs : List Field) (t : List Byte)
    (h : Field.number t ∈ fs) : t <:+: joinFields gap n fs := by
  induction fs generalizing n with
  | nil => simp at h
  | cons f fs ih =>
    rcases List.mem_cons.1 h with rfl | h
    · exact ⟨ascii (gap n), joinFields gap (n + 1) fs, rfl⟩
    · have ih := ih (n + 1) h
      cases f with
      | number u =>
        obtain ⟨p, q, e⟩ := ih
        exact ⟨ascii (gap n) ++ u ++ p, q, by simp [joinFields, ← e, List.append_assoc]⟩
      | flag v =>
        obtain ⟨p, q, e⟩ := ih
        exact ⟨ascii (gap n) ++ p, q, by simp [joinFields, ← e, List.append_assoc]⟩

end Sys2Proof.Text
end

