-- ==== Sys2Proof/Laws/Effects.lean ====
section
/-!
SUPPORT. For each assignment, each query, a byte and a tick: everything it can do when it answers a next state, in
one lemma each. Later proofs cite these and do not unfold the meanings. A parsed value appears as a variable.
-/

namespace Sys2Proof.Machine

/-! ### Assignments -/

theorem aSp_effect {value : List Byte} {s t : State} (h : exec (.aSp value) s = .next t) :
    t = s ∨ ∃ v, setpointAccepted v = true ∧
      t = { s with pSp := v, pInt := Param.zero, out := s.out ++ [.line (Text.ackText Ascii.t v)] } := by
  change execASp value s = _ at h
  rw [execASp] at h
  obtain ⟨-, v, -, h⟩ := withValue_next h
  injection h with h
  cases hv : setpointAccepted v with
  | true => rw [pidSetsp_accepted s hv] at h; exact .inr ⟨v, hv, h.symm⟩
  | false => rw [pidSetsp_rejected s hv] at h; exact .inl h.symm

theorem aKi_effect {value : List Byte} {s t : State} (h : exec (.aKi value) s = .next t) :
    ∃ v, t = { s with pKi := v, out := s.out ++ [.line (Text.ackText Ascii.i v)] } := by
  change execAKi value s = _ at h
  rw [execAKi] at h
  obtain ⟨-, v, -, h⟩ := withValue_next h
  injection h with h
  exact ⟨v, h.symm⟩

theorem aKp_effect {value : List Byte} {s t : State} (h : exec (.aKp value) s = .next t) :
    ∃ v, t = { s with pKp := v, out := s.out ++ [.line (Text.ackText Ascii.p v)] } := by
  change execAKp value s = _ at h
  rw [execAKp] at h
  obtain ⟨-, v, -, h⟩ := withValue_next h
  injection h with h
  exact ⟨v, h.symm⟩

theorem aKd_effect {value : List Byte} {s t : State} (h : exec (.aKd value) s = .next t) :
    ∃ v, t = { s with pKd := v, out := s.out ++ [.line (Text.ackText Ascii.d v)] } := by
  change execAKd value s = _ at h
  rw [execAKd] at h
  obtain ⟨-, v, -, h⟩ := withValue_next h
  injection h with h
  exact ⟨v, h.symm⟩

theorem aCool_effect {value : List Byte} {s t : State} (h : exec (.aCool value) s = .next t) :
    value.all Ascii.isValueByte = true ∧ (t = s ∨ ∃ v, v = Text.textToFloat (keptChars value) ∧ coolerAccepted v = true ∧
      t = { s with out := s.out ++ [.coolerSet v] ++ [.line (Text.ackText Ascii.c v)] }) := by
  change execACool value s = _ at h
  rw [execACool] at h
  obtain ⟨hl, v, e, h⟩ := withValue_next h
  refine ⟨hl, ?_⟩
  injection h with h
  split at h
  · exact .inr ⟨v, e, ‹_›, h.symm⟩
  · exact .inl h.symm

theorem aHeat_effect {value : List Byte} {s t : State} (h : exec (.aHeat value) s = .next t) :
    value.all Ascii.isValueByte = true ∧ (t = { s with out := s.out ++ [.line Text.heaterCapErrText] } ∨
    ∃ v, v = Text.textToFloat (keptChars value) ∧ heaterAccepted v = true ∧
      t = { s with out := s.out ++ [.heaterSet v] ++ [.line (Text.ackText Ascii.a v)] }) := by
  change execAHeat value s = _ at h
  rw [execAHeat] at h
  obtain ⟨hl, v, e, h⟩ := withValue_next h
  refine ⟨hl, ?_⟩
  injection h with h
  split at h
  · exact .inr ⟨v, e, ‹_›, h.symm⟩
  · exact .inl h.symm

theorem aOnoff_effect {value : List Byte} {s t : State} (h : exec (.aOnoff value) s = .next t) :
    t = s ∨ ∃ v, (s.pEn = false ∧ t = acknowledge Ascii.s v (pidOn s)) ∨ (s.pEn = true ∧ t = acknowledge Ascii.s v s) ∨
      t = acknowledge Ascii.s v (pidOff s) := by
  change execAOnoff value s = _ at h
  rw [execAOnoff] at h
  obtain ⟨-, v, -, h⟩ := withValue_next h
  injection h with h
  split at h
  · split at h
    · exact .inr ⟨v, .inl ⟨‹_›, h.symm⟩⟩
    · rename_i he
      exact .inr ⟨v, .inr (.inl ⟨by simpa using he, h.symm⟩)⟩
  · split at h
    · exact .inr ⟨v, .inr (.inr h.symm)⟩
    · exact .inl h.symm

theorem aTact_effect {value : List Byte} {s t : State} (h : exec (.aTact value) s = .next t) :
    t = s ∨ ∃ v b, t = { s with tCfgAct := b, out := s.out ++ [.line (Text.ackText Ascii.b v)] } := by
  change execATact value s = _ at h
  rw [execATact] at h
  obtain ⟨-, v, -, h⟩ := withValue_next h
  injection h with h
  split at h
  · exact .inr ⟨v, true, h.symm⟩
  · split at h
    · exact .inr ⟨v, false, h.symm⟩
    · exact .inl h.symm

theorem aTdur_effect {value : List Byte} {s t : State} (h : exec (.aTdur value) s = .next t) :
    value.all Ascii.isValueByte = true ∧ (t = s ∨ ∃ v, (v = Text.textToFloat (keptChars value) ∧ durationAccepted v = true ∨ v = Param.durMaxS) ∧
      t = { s with tCfgDur := v, out := s.out ++ [.line (Text.ackText Ascii.n v)] }) := by
  change execATdur value s = _ at h
  rw [execATdur] at h
  obtain ⟨hl, v, e, h⟩ := withValue_next h
  refine ⟨hl, ?_⟩
  injection h with h
  split at h
  · exact .inr ⟨v, .inl ⟨e, ‹_›⟩, h.symm⟩
  · split at h
    · exact .inr ⟨Param.durMaxS, .inr rfl, h.symm⟩
    · exact .inl h.symm

theorem aTrun_effect {value : List Byte} {s t : State} (h : exec (.aTrun value) s = .next t) :
    t = s ∨ ∃ v, (∃ u, tmrStart s.tCfgDur s.tCfgAct s = .next u ∧ t = acknowledge Ascii.m v u) ∨
      t = { s with tArm := false, out := s.out ++ [.line (Text.ackText Ascii.m v)] } := by
  change execATrun value s = _ at h
  rw [execATrun] at h
  obtain ⟨-, v, -, h⟩ := withValue_next h
  split at h
  · obtain ⟨u, h1, h2⟩ := andThen_eq_next.1 h
    injection h2 with h2
    exact .inr ⟨v, .inl ⟨u, h1, h2.symm⟩⟩
  · split at h
    · injection h with h
      exact .inr ⟨v, .inr h.symm⟩
    · injection h with h
      exact .inl h.symm

theorem aUnlock_effect {value : List Byte} {s t : State} (h : exec (.aUnlock value) s = .next t) :
    t = s ∨ ∃ v, s.cUnlock = false ∧
      t = { s with cUnlock := true, out := s.out ++ [.line (Text.ackText Ascii.k v)] } := by
  change execAUnlock value s = _ at h
  rw [execAUnlock] at h
  obtain ⟨-, v, -, h⟩ := withValue_next h
  injection h with h
  split at h
  · rename_i hc
    exact .inr ⟨v, by simp at hc; exact hc.1, h.symm⟩
  · exact .inl h.symm

/-! ### Queries -/

/-- A query emits one line of ASCII text and writes no register (R193, R50). -/
theorem query_effect {code : Byte} {i : Instr} {s t : State} (hi : queryOf code = some i) (h : exec i s = .next t) :
    ∃ text env, t = { s with out := s.out ++ [.line text], env := env } ∧ (∀ b ∈ text, b.toNat < 128) ∧
      env.events = s.env.events ∧ env.temperatures = s.env.temperatures ∧ env.rpms = s.env.rpms := by
  have one : ∀ (c : Byte) (n : List Byte) (env : Env), (∀ b ∈ n, b.toNat < 128) → env.events = s.env.events →
      env.temperatures = s.env.temperatures → env.rpms = s.env.rpms →
      t = emitQuery c [.number n] { s with env := env } →
      ∃ text env, t = { s with out := s.out ++ [.line text], env := env } ∧ (∀ b ∈ text, b.toNat < 128) ∧
        env.events = s.env.events ∧ env.temperatures = s.env.temperatures ∧ env.rpms = s.env.rpms := by
    intro c n env hn h1 h2 h3 ht
    refine ⟨_, env, ht, Text.joinFields_lt _ _ _ ?_, h1, h2, h3⟩
    intro u hu
    rw [List.mem_singleton] at hu
    injection hu with hu
    rw [hu]; exact hn
  have tm : i = .qTimer → ∃ text env, t = { s with out := s.out ++ [.line text], env := env } ∧
      (∀ b ∈ text, b.toNat < 128) ∧ env.events = s.env.events ∧ env.temperatures = s.env.temperatures ∧
      env.rpms = s.env.rpms := by
    rintro rfl
    change execQTimer s = _ at h
    rw [execQTimer] at h
    split at h
    · injection h with h
      refine ⟨_, s.env, h.symm, Text.joinFields_lt _ _ _ ?_, rfl, rfl, rfl⟩
      intro u hu
      simp only [List.mem_cons, reduceCtorEq, false_or, List.not_mem_nil, or_false] at hu
      injection hu with hu
      rw [hu]; exact Text.uintToText_lt _ _
    · cases h
  cases i with
  | qTimer => exact tm rfl
  | qOnoff =>
    injection h with h
    refine ⟨_, s.env, h.symm, Text.joinFields_lt _ _ _ ?_, rfl, rfl, rfl⟩
    intro u hu
    rw [List.mem_singleton] at hu
    cases hu
  | qTemp => injection h with h; exact one _ _ s.env (Text.floatToText_lt _ _ _) rfl rfl rfl h.symm
  | qKp => injection h with h; exact one _ _ s.env (Text.floatToText_lt _ _ _) rfl rfl rfl h.symm
  | qKi => injection h with h; exact one _ _ s.env (Text.floatToText_lt _ _ _) rfl rfl rfl h.symm
  | qKd => injection h with h; exact one _ _ s.env (Text.floatToText_lt _ _ _) rfl rfl rfl h.symm
  | qSp => injection h with h; exact one _ _ s.env (Text.floatToText_lt _ _ _) rfl rfl rfl h.symm
  | qRpm => injection h with h; exact one _ _ s.env (Text.uintToText_lt _ _) rfl rfl rfl h.symm
  | qCool =>
    injection h with h
    exact one _ _ (drawCoolerDuty s).2.env (Text.floatToText_lt _ _ _) rfl rfl rfl h.symm
  | qHeat =>
    injection h with h
    exact one _ _ (drawHeaterDuty s).2.env (Text.floatToText_lt _ _ _) rfl rfl rfl h.symm
  | _ => exact absurd (queryOf_spec hi).2 (by simp [encode, queryFrame, assignFrame, Ascii.g, Ascii.s])

/-! ### A byte -/

/-- A byte writes the parser's registers only, or it is the TERMINATOR of a complete frame, whose operation then runs
with the parser in Idle (R192, R220). -/
theorem cmdByte_effect {b : Byte} {s t : State} (h : exec (.cmdByte b) s = .next t) :
    PortOnly s t ∨ (b = Ascii.terminator ∧ ∃ i, exec i (toIdle s) = .next t ∧
      ((s.cState = .param ∧ queryOf s.cCode = some i) ∨
       (s.cState = .value ∧ assignOf s.cCode (valueBuffer s) = some i))) := by
  have idle : ∀ {t}, Host.Outcome.next (toIdle s) = (.next t : Outcome) → PortOnly s t := fun e => by
    injection e with e; rw [← e]; rfl
  by_cases hb : b = Ascii.sentinel
  · rw [show exec (.cmdByte b) s = .next { s with cState := .ready } from if_pos hb] at h
    injection h with h; rw [← h]; exact .inl rfl
  · rw [cmdByte_of_ne_sentinel _ hb, parserStep] at h
    split at h
    · exact .inl (idle h)
    · split at h
      · injection h with h; rw [← h]; exact .inl rfl
      · split at h
        · injection h with h; rw [← h]; exact .inl rfl
        · exact .inl (idle h)
    · split at h
      · injection h with h; rw [← h]; exact .inl rfl
      · exact .inl (idle h)
    · split at h
      · injection h with h; rw [← h]; exact .inl rfl
      · exact .inl (idle h)
    · rename_i hs
      split at h
      · rename_i ht
        cases hq : queryOf s.cCode with
        | none => exact absurd h (by rw [dispatchQuery_none _ hq]; simp [raise])
        | some i => rw [dispatchQuery_eq _ hq] at h; exact .inr ⟨ht, i, h, .inl ⟨hs, rfl⟩⟩
      · exact .inl (idle h)
    · rename_i hs
      split at h
      · injection h with h
        rw [← h, appendChar_portOnly]; exact .inl rfl
      · split at h
        · rename_i ht
          cases hq : assignOf s.cCode (valueBuffer s) with
          | none => exact absurd h (by rw [dispatchAssign_none _ hq]; simp [raise])
          | some i => rw [dispatchAssign_eq _ hq] at h; exact .inr ⟨ht, i, h, .inr ⟨hs, rfl⟩⟩
        · exact .inl (idle h)

/-! ### A tick -/

/-- A tick of the scheduler up to the timer: the filter, the controller, the command written and emitted, the divider,
the tachometer reading and the display (R250). -/
theorem schedTick_effect (s : State) : ∃ u int perr pout env ui rpm,
    exec .schedTick s = tmrTick 100
      { s with
        fEma := smooth (drawTemperature s).1 s.fEma
        fDbase := smooth (drawTemperature s).1 s.fDbase
        fDema := smooth (smooth (drawTemperature s).1 s.fDbase) s.fDema
        fOut := (filtUpd (drawTemperature s).1 s).1
        pInt := int
        pPerr := perr
        pPout := pout
        pAct := u
        sDiv := BitVec.ofNat 4 ((s.sDiv.toNat + 1) % 10)
        rRpm := rpm
        env := env
        out := s.out ++ [.actWrite u] ++ ui } ∧
    inOutRange u = true ∧ (s.pEn = false → u = Param.zero) ∧
    ui = (if uiDue (BitVec.ofNat 4 ((s.sDiv.toNat + 1) % 10)) then [.uiRefresh] else []) ∧
    env.events = s.env.events ∧ env.temperatures = s.env.temperatures.tail ∧
    (tachDue (BitVec.ofNat 4 ((s.sDiv.toNat + 1) % 10)) = true →
      Drawn s.env.rpms rpm ∧ env.rpms = s.env.rpms.tail) ∧
    (tachDue (BitVec.ofNat 4 ((s.sDiv.toNat + 1) % 10)) = false → rpm = s.rRpm ∧ env.rpms = s.env.rpms) := by
  rw [execSchedTick_eq, controlTask]
  have hr := pidUpd_inRange (filtUpd (drawTemperature s).1 (drawTemperature s).2).1
    { (filtUpd (drawTemperature s).1 (drawTemperature s).2).2 with
      fOut := (filtUpd (drawTemperature s).1 (drawTemperature s).2).1 }
  have hz : s.pEn = false → (pidUpd (filtUpd (drawTemperature s).1 (drawTemperature s).2).1
    { (filtUpd (drawTemperature s).1 (drawTemperature s).2).2 with
      fOut := (filtUpd (drawTemperature s).1 (drawTemperature s).2).1 }).1 = Param.zero := by
    intro hp
    rw [pidUpd_disabled]
    rw [filtUpd_snd]; exact hp
  obtain ⟨int, perr, pout, env, e, h1, h2, h3⟩ := pidUpd_state (filtUpd (drawTemperature s).1 (drawTemperature s).2).1
    { (filtUpd (drawTemperature s).1 (drawTemperature s).2).2 with
      fOut := (filtUpd (drawTemperature s).1 (drawTemperature s).2).1 }
  generalize pidUpd (filtUpd (drawTemperature s).1 (drawTemperature s).2).1
    { (filtUpd (drawTemperature s).1 (drawTemperature s).2).2 with
      fOut := (filtUpd (drawTemperature s).1 (drawTemperature s).2).1 } = r at *
  obtain ⟨u, r2⟩ := r
  simp only [filtUpd_snd] at e hr hz ⊢
  subst e
  have h1 : env.events = s.env.events := h1
  have h2 : env.rpms = s.env.rpms := h2
  have h3 : env.temperatures = s.env.temperatures.tail := h3
  generalize hdv : BitVec.ofNat 4 ((s.sDiv.toNat + 1) % 10) = div
  have e1 : BitVec.ofNat 4 ((s.sDiv.toNat + 1) % Param.tachDiv) = div := hdv
  cases ht : tachDue div <;> cases hu : uiDue div
  · refine ⟨u, int, perr, pout, env, [], s.rRpm, ?_, hr, hz, by simp, h1, h3, by simp, fun _ => ⟨rfl, h2⟩⟩
    simp only [divideTask, tachTask, uiTask, emit, drawTemperature, e1, ht]
    simp [filtUpd, hu]
  · refine ⟨u, int, perr, pout, env, [.uiRefresh], s.rRpm, ?_, hr, hz, by simp, h1, h3, by simp, fun _ => ⟨rfl, h2⟩⟩
    simp only [divideTask, tachTask, uiTask, emit, drawTemperature, e1, ht]
    simp [filtUpd, hu]
  · refine ⟨u, int, perr, pout, { env with rpms := env.rpms.tail, draws := env.draws + 1 }, [],
      firstAnswer env.rpms (Config.readTachometerRpm env.draws), ?_, hr, hz, by simp, h1, h3,
      fun _ => ⟨h2 ▸ firstAnswer_drawn _ _, by rw [h2]⟩, by simp⟩
    simp only [divideTask, tachTask, uiTask, emit, drawTemperature, drawTachometerRpm, e1, ht]
    simp [filtUpd, hu]
  · refine ⟨u, int, perr, pout, { env with rpms := env.rpms.tail, draws := env.draws + 1 }, [.uiRefresh],
      firstAnswer env.rpms (Config.readTachometerRpm env.draws), ?_, hr, hz, by simp, h1, h3,
      fun _ => ⟨h2 ▸ firstAnswer_drawn _ _, by rw [h2]⟩, by simp⟩
    simp only [divideTask, tachTask, uiTask, emit, drawTemperature, drawTachometerRpm, e1, ht]
    simp [filtUpd, hu]

end Sys2Proof.Machine
end

