-- ==== Sys2Proof/Tests/Slice0.lean ====
section
/-!
SUPPORT. Tests of the model on values the spec gives, and a witness for every statement that has hypotheses. The source
of a test is named before it: a rule or a vector (V-…) of 95_test_vectors.md. A witness theorem is named after
its statement.
-/

namespace Sys2Proof.Tests

set_option Elab.async false

open Sys2Proof Sys2Proof.Machine

/-! ### Helpers -/

/-- The block after `RESET` with seed 20.0, nothing opaque in it. -/
def z : State := { State.reset with
  fEma := ⟨0x4034000000000000⟩, fDbase := ⟨0x4034000000000000⟩, fDema := ⟨0x4034000000000000⟩,
  fOut := ⟨0x4034000000000000⟩ }

def nextD (o : Outcome) (d : State) : State :=
  match o with
  | .next s => s
  | .fault _ => d
  | .refused _ => d

def isNext (o : Outcome) : Bool :=
  match o with
  | .next _ => true
  | .fault _ => false
  | .refused _ => false

def isFault (o : Outcome) : Bool :=
  match o with
  | .next _ => false
  | .fault _ => true
  | .refused _ => false

def isRefused (o : Outcome) : Bool :=
  match o with
  | .next _ => false
  | .fault _ => false
  | .refused _ => true

theorem eq_next {o : Outcome} (d : State) (h : isNext o = true) : o = .next (nextD o d) := by
  cases o <;> first | rfl | cases h

/-- The state after one operation. -/
def after (i : Instr) (s : State) : State := nextD (exec i s) s

/-- The state after one step. -/
def stepped (s : State) : State := nextD (step s) s

/-- 1.0, 20.0, 25.0, a quiet NaN. -/
def one : F64 := ⟨0x3FF0000000000000⟩
def f20 : F64 := ⟨0x4034000000000000⟩
def f25 : F64 := ⟨0x4039000000000000⟩
def nan : F64 := ⟨0x7FF8000000000000⟩

/-- The infinities of IEEE 754 (G2). -/
def posInf : F64 := ⟨0x7FF0000000000000⟩
def negInf : F64 := ⟨0xFFF0000000000000⟩

/-- A tick with the sensor and the tachometer answering. -/
def sensed (temp : F64) (rpm : BitVec 32) (s : State) : State :=
  { s with env := { s.env with temperatures := [temp], rpms := [rpm] } }

/-! ### Well-formedness: an ill-formed term for each check -/

theorem test_wf_aSp : (Instr.aSp [0x20]).wellFormed = false := by decide
theorem test_wf_aKi : (Instr.aKi [0x2E]).wellFormed = false := by decide
theorem test_wf_aCool : (Instr.aCool [0x2D]).wellFormed = false := by decide
theorem test_wf_aHeat : (Instr.aHeat [0x30, 0x41]).wellFormed = false := by decide
theorem test_wf_aKp : (Instr.aKp [0x3B]).wellFormed = false := by decide
theorem test_wf_aKd : (Instr.aKd [0x23]).wellFormed = false := by decide
theorem test_wf_aOnoff : (Instr.aOnoff [0x3A]).wellFormed = false := by decide
theorem test_wf_aTact : (Instr.aTact [0x2F]).wellFormed = false := by decide
theorem test_wf_aTdur : (Instr.aTdur [0x35, 0x73]).wellFormed = false := by decide
theorem test_wf_aTrun : (Instr.aTrun [0xFF]).wellFormed = false := by decide
theorem test_wf_aUnlock : (Instr.aUnlock [0x00]).wellFormed = false := by decide
/-- U5: NaN, -1.0 and 599941.0. -/
theorem test_wf_tmrStart : (Instr.tmrStart nan true).wellFormed = false ∧
    (Instr.tmrStart ⟨0xBFF0000000000000⟩ true).wellFormed = false ∧
    (Instr.tmrStart ⟨0x41224F0A00000000⟩ true).wellFormed = false := by decide +kernel
/-- U6. -/
theorem test_wf_tmrTick : (Instr.tmrTick 0).wellFormed = false ∧ (Instr.tmrTick (2 ^ 31)).wellFormed = false := by
  decide
theorem test_wf_accepts : (Instr.aSp [0x32, 0x35, 0x2C, 0x30]).wellFormed = true ∧ (Instr.aSp []).wellFormed = true ∧
    (Instr.tmrStart Param.durMaxS false).wellFormed = true ∧ (Instr.tmrTick 1).wellFormed = true := by decide +kernel

/-! ### Decoding: words written out from R71 to R73 -/

theorem test_decode_qTemp : decodeTableWord 32 0x2367743B = some .qTemp := by decide
theorem test_decode_qCool : decodeTableWord 32 0x2367633B = some .qCool := by decide
theorem test_decode_qHeat : decodeTableWord 32 0x2367613B = some .qHeat := by decide
theorem test_decode_qKp : decodeTableWord 32 0x2367703B = some .qKp := by decide
theorem test_decode_qKi : decodeTableWord 32 0x2367693B = some .qKi := by decide
theorem test_decode_qKd : decodeTableWord 32 0x2367643B = some .qKd := by decide
theorem test_decode_qOnoff : decodeTableWord 32 0x2367733B = some .qOnoff := by decide
theorem test_decode_qSp : decodeTableWord 32 0x2367673B = some .qSp := by decide
theorem test_decode_qRpm : decodeTableWord 32 0x2367723B = some .qRpm := by decide
theorem test_decode_qTimer : decodeTableWord 32 0x23676D3B = some .qTimer := by decide
theorem test_decode_aSp : decodeTableWord 24 0x237374 = some (.aSp []) ∧
    decode [0x23, 0x73, 0x74, 0x32, 0x35, 0x2C, 0x30, 0x3B] = .ok (.aSp [0x32, 0x35, 0x2C, 0x30], []) := by decide
theorem test_decode_aKi : decodeTableWord 24 0x237369 = some (.aKi []) ∧
    decode [0x23, 0x73, 0x69, 0x30, 0x2C, 0x30, 0x35, 0x3B] = .ok (.aKi [0x30, 0x2C, 0x30, 0x35], []) := by decide
theorem test_decode_aCool : decodeTableWord 24 0x237363 = some (.aCool []) ∧
    decode [0x23, 0x73, 0x63, 0x31, 0x2C, 0x35, 0x3B] = .ok (.aCool [0x31, 0x2C, 0x35], []) := by decide
theorem test_decode_aHeat : decodeTableWord 24 0x237361 = some (.aHeat []) ∧
    decode [0x23, 0x73, 0x61, 0x30, 0x2C, 0x36, 0x3B] = .ok (.aHeat [0x30, 0x2C, 0x36], []) := by decide
theorem test_decode_aKp : decodeTableWord 24 0x237370 = some (.aKp []) ∧
    decode [0x23, 0x73, 0x70, 0x31, 0x32, 0x33, 0x34, 0x35, 0x36, 0x37, 0x38, 0x3B] =
      .ok (.aKp [0x31, 0x32, 0x33, 0x34, 0x35, 0x36, 0x37, 0x38], []) := by decide
/-- V-C2, as one stream: the SENTINEL abandons the frame before it. -/
theorem test_decode_aKd : decodeTableWord 24 0x237364 = some (.aKd []) ∧
    decode [0x23, 0x73, 0x70, 0x31, 0x32, 0x23, 0x73, 0x64, 0x33, 0x3B] = .ok (.aKd [0x33], []) := by decide
theorem test_decode_aOnoff : decodeTableWord 24 0x237373 = some (.aOnoff []) ∧
    decode [0x23, 0x73, 0x73, 0x31, 0x3B] = .ok (.aOnoff [0x31], []) := by decide
theorem test_decode_aTact : decodeTableWord 24 0x237362 = some (.aTact []) ∧
    decode [0x23, 0x73, 0x62, 0x31, 0x3B] = .ok (.aTact [0x31], []) := by decide
theorem test_decode_aTdur : decodeTableWord 24 0x23736E = some (.aTdur []) ∧
    decode [0x23, 0x73, 0x6E, 0x35, 0x3B] = .ok (.aTdur [0x35], []) := by decide
theorem test_decode_aTrun : decodeTableWord 24 0x23736D = some (.aTrun []) ∧
    decode [0x23, 0x73, 0x6D, 0x31, 0x3B] = .ok (.aTrun [0x31], []) := by decide
theorem test_decode_aUnlock : decodeTableWord 24 0x23736B = some (.aUnlock []) ∧
    decode [0x23, 0x73, 0x6B, 0x31, 0x3B] = .ok (.aUnlock [0x31], []) := by decide

/-- R77, case by case: V-C13, `#x`, V-C1, V-C15, V-C16, V-C20, V-C17, V-C14, an unfinished frame, upper case `G`. -/
theorem test_decode_refuses :
    decode [0x67, 0x74, 0x3B] = .error .noSentinel ∧
    decode [0x23, 0x78] = .error .badSelector ∧
    decode [0x23, 0x67, 0x71, 0x3B] = .error .badQueryCode ∧
    decode [0x23, 0x73, 0x31, 0x3B] = .error .badAssignCode ∧
    decode [0x23, 0x73, 0x58, 0x35, 0x3B] = .error .badAssignCode ∧
    decode [0x23, 0x67, 0x73, 0x20, 0x3B] = .error .badQueryEnd ∧
    decode [0x23, 0x73, 0x74, 0x32, 0x20, 0x35, 0x3B] = .error .badValueByte ∧
    decode [0x23, 0x67, 0x74, 0x23, 0x3B] = .error .badSelector ∧
    decode [0x23, 0x73, 0x6E, 0x37] = .error .incomplete ∧
    decode [0x23, 0x47, 0x74, 0x3B] = .error .badSelector := by decide

/-- R76: no event and no internal operation has a bit pattern. -/
theorem test_encode_none : encode (.reset f20) = none ∧ encode .schedTick = none ∧ encode (.cmdByte 0x23) = none ∧
    encode (.filtInit f20) = none ∧ encode (.tmrTick 100) = none := by decide

/-! ### Numbers and text -/

/-- The `TextToFloat` vectors of 95_test_vectors.md §2.4. -/
theorem test_textToFloat :
    Text.textToFloat [] = Param.zero ∧
    Text.textToFloat [0x2C, 0x2C] = Param.zero ∧
    Text.textToFloat [0x32, 0x35, 0x2C, 0x30] = ⟨0x4039000000000000⟩ ∧
    Text.textToFloat [0x30, 0x2C, 0x36] = ⟨0x3FE3333333333333⟩ ∧
    Text.textToFloat [0x31, 0x2C, 0x32, 0x2C, 0x33] = ⟨0x3FF3333333333333⟩ ∧
    Text.textToFloat [0x2C, 0x35] = ⟨0x3FE0000000000000⟩ ∧
    Text.textToFloat [0x30, 0x2C, 0x30, 0x30, 0x30, 0x30, 0x31] = ⟨0x3EE4F8B588E368F1⟩ ∧
    Text.textToFloat [0x39, 0x39, 0x39, 0x39, 0x39, 0x39, 0x39] = ⟨0x416312CFE0000000⟩ ∧
    Text.textToFloat [0x30, 0x2C, 0x30, 0x35] = ⟨0x3FA999999999999A⟩ ∧
    Text.textToFloat [0x31, 0x2C, 0x30, 0x30, 0x31] = ⟨0x3FF004189374BC6A⟩ := by decide +kernel

/-- R227, the real fields: 23.4 at two widths, 0.05, 2.675, 123.46 and 99.96 saturated, 7.0 without a fraction. -/
theorem test_floatToText :
    Text.floatToText ⟨0x4037666666666666⟩ 4 1 = [0x20, 0x32, 0x33, 0x2C, 0x34] ∧
    Text.floatToText ⟨0x4037666666666666⟩ 3 1 = [0x32, 0x33, 0x2C, 0x34] ∧
    Text.floatToText ⟨0x3FA999999999999A⟩ 3 1 = [0x20, 0x30, 0x2C, 0x31] ∧
    Text.floatToText (F64.ofRatio 2675 1000) 3 2 = [0x20, 0x32, 0x2C, 0x36, 0x37] ∧
    Text.floatToText (F64.ofRatio 12346 100) 3 1 = [0x39, 0x39, 0x2C, 0x39] ∧
    Text.floatToText (F64.ofRatio 9996 100) 3 1 = [0x39, 0x39, 0x2C, 0x39] ∧
    Text.floatToText (F64.ofRatio 7 1) 3 0 = [0x20, 0x37, 0x20] := by decide +kernel

/-- R74 on the seven characters `,000001`: ten times below what R75 item 4 calls the smallest (log entry 26). -/
theorem test_textToFloat_smallest :
    Text.textToFloat [0x2C, 0x30, 0x30, 0x30, 0x30, 0x30, 0x31] = F64.ofRatio 1 1000000 := by decide +kernel

/-- 95_test_vectors.md §2.5: 9.95, 0.45, the exact tie 1.25, 0.0 and 599940.0. -/
theorem test_floatToText_more :
    Text.floatToText (F64.ofRatio 995 100) 3 1 = [0x20, 0x39, 0x2C, 0x39] ∧
    Text.floatToText (F64.ofRatio 45 100) 3 1 = [0x20, 0x30, 0x2C, 0x35] ∧
    Text.floatToText (F64.ofRatio 125 100) 3 1 = [0x20, 0x31, 0x2C, 0x33] ∧
    Text.floatToText Param.zero 4 2 = [0x20, 0x20, 0x30, 0x2C, 0x30, 0x30] ∧
    Text.floatToText Param.durMaxS 7 1 = [0x35, 0x39, 0x39, 0x39, 0x34, 0x30, 0x2C, 0x30] := by decide +kernel

/-- R225, R227. -/
theorem test_uintToText :
    Text.uintToText 42 4 = [0x30, 0x30, 0x34, 0x32] ∧ Text.uintToText 12345 4 = [0x58, 0x58, 0x58] ∧
    Text.uintToText 0 3 = [0x30, 0x30, 0x30] ∧ Text.uintToText 999 3 = [0x39, 0x39, 0x39] ∧
    Text.uintToText 1000 3 = [0x58, 0x58, 0x58] := by decide +kernel

/-- V-T7, V-T8, V-T9 and V-L5: the milliseconds of 1.001, 0.0005, 0.0015 and 5.0 seconds. -/
theorem test_millisOf :
    millisOf (F64.ofRatio 1001 1000) = 1001 ∧ millisOf (F64.ofRatio 5 10000) = 0 ∧
    millisOf (F64.ofRatio 15 10000) = 2 ∧ millisOf (F64.ofRatio 5 1) = 5000 := by decide +kernel

/-- V-T7: the product is 1000.9999999999999, below 1001. -/
theorem test_product_below : F64.lt (F64.mul (F64.ofRatio 1001 1000) Param.thousand) (F64.ofRatio 1001 1) = true := by
  decide +kernel

/-! ### Events -/

/-- R301. -/
theorem test_reset : (after (.reset f25) { z with pEn := true, cState := .value, sDiv := 7 }).fOut = f25 ∧
    (after (.reset f25) { z with pEn := true, cState := .value, sDiv := 7 }).pEn = false ∧
    (after (.reset f25) { z with pEn := true, cState := .value, sDiv := 7 }).cState = .idle ∧
    (after (.reset f25) { z with pEn := true, cState := .value, sDiv := 7 }).sDiv = 0 := by decide +kernel

/-- Program 1, first tick: raw 150.5, the command 100.0. -/
theorem test_schedTick_control :
    (after .schedTick (sensed f20 0 { z with pSp := f25, pEn := true })).pPout = F64.ofRatio 1505 10 ∧
    (after .schedTick (sensed f20 0 { z with pSp := f25, pEn := true })).out = [.actWrite Param.outMax] := by
  decide +kernel

/-- V-S1, the tenth tick: the refresh, the tachometer sample, the divider back at 0. -/
theorem test_schedTick_tenth :
    (after .schedTick (sensed f20 1009 { z with sDiv := 9 })).out = [.actWrite Param.zero, .uiRefresh] ∧
    (after .schedTick (sensed f20 1009 { z with sDiv := 9 })).rRpm = 1009 ∧
    (after .schedTick (sensed f20 1009 { z with sDiv := 9 })).sDiv = 0 := by decide +kernel

/-- V-S2: on a tick whose timer fires turn-off, the controlled command and then 0.0. -/
theorem test_schedTick_turnOff :
    ((after .schedTick (sensed f20 0 { z with pSp := f25, pEn := true, tArm := true, tRem := 100 })).out =
      [.actWrite Param.outMax, .actWrite Param.zero]) ∧
    (after .schedTick (sensed f20 0 { z with pSp := f25, pEn := true, tArm := true, tRem := 100 })).pEn = false := by
  decide +kernel

/-- R191: `#` from the state Value. -/
theorem test_cmdByte_sentinel : (after (.cmdByte 0x23) { z with cState := .value, cLen := 3 }).cState = .ready ∧
    (after (.cmdByte 0x23) { z with cState := .value, cLen := 3 }).cLen = 3 := by decide +kernel

/-- V-C3: the eighth value character is dropped. -/
theorem test_cmdByte_excess : after (.cmdByte 0x38) { z with cState := .value, cLen := 7 } =
    { z with cState := .value, cLen := 7 } := by decide +kernel

/-! ### Filter -/

theorem test_filtInit : (after (.filtInit f25) z).fDema = f25 ∧ (after (.filtInit f25) z).fOut = f20 := by
  decide +kernel

/-- V-F1, first update: 20.5, 20.05 and 20.95. -/
theorem test_filtUpd : (after (.filtUpd f25) z).fDbase = F64.ofRatio 205 10 ∧
    (after (.filtUpd f25) z).fDema = F64.ofRatio 2005 100 ∧
    (after (.filtUpd f25) z).res = .real (F64.ofRatio 2095 100) := by decide +kernel

/-- V-F3b: not a fixed point. -/
theorem test_filtUpd_not_fixed : (after (.filtUpd (F64.ofRatio 14491927697818014 100000000000000))
    (after (.filtInit (F64.ofRatio 14491927697818014 100000000000000)) z)).res =
      .real (F64.ofRatio 14491927697818016 100000000000000) := by decide +kernel

/-- Three accumulators and a sample of 9e307, below the 1.4e308 of R103 item 4 but above half the largest finite value. -/
def big : F64 := ⟨0x7FE005419221015D⟩
def zBig : State := { z with fEma := big, fDbase := big, fDema := big }

/-- R101 and R8: 2.0 times 9e307 is past the largest finite value; the accumulators stay finite (log entry 27). -/
theorem test_filtUpd_overflow : F64.lt big (F64.ofRatio (14 * 10 ^ 307) 1) = true ∧
    (after (.filtUpd big) zBig).res = .real posInf ∧ (after (.filtUpd big) zBig).fDbase.isFinite = true ∧
    (after (.filtUpd big) zBig).fDema.isFinite = true := by decide +kernel

/-- R250: the tick hands that infinity to the controller, although the sensor's answer is finite (log entry 28). -/
theorem test_schedTick_overflow : (after .schedTick (sensed big 0 zBig)).fOut = posInf := by decide +kernel

/-! ### Controller -/

/-- V-P14: 22.99 is rejected, 74.0 accepted. -/
theorem test_pidSetsp : (after (.pidSetsp Param.spMax) z).res = .accepted true ∧
    (after (.pidSetsp (F64.ofRatio 2299 100)) z).res = .accepted false := by decide +kernel
/-- V-L8: an equal setpoint still clears the integral. -/
theorem test_pidSetsp_clears : (after (.pidSetsp f25) { z with pSp := f25, pInt := f20 }).pInt = Param.zero := by
  decide +kernel
theorem test_pidSetkp : (after (.pidSetkp nan) z).pKp = nan := by decide +kernel
theorem test_pidSetki : (after (.pidSetki f25) { z with pInt := f20 }).pInt = f20 := by decide +kernel
theorem test_pidSetkd : (after (.pidSetkd f25) z).pKd = f25 ∧ (after (.pidSetkd f25) z).pKp = Param.kp0 := by
  decide +kernel
/-- V-P13. -/
theorem test_pidOn : (after .pidOn { z with pPout := f20, pAct := f20 }).pPout = Param.zero ∧
    (after .pidOn { z with pPout := f20, pAct := f20 }).pAct = f20 ∧ (after .pidOn z).out = [] := by decide +kernel
theorem test_pidOff : (after .pidOff { z with pEn := true, pAct := f20, pInt := f20 }).out = [.actWrite Param.zero] ∧
    (after .pidOff { z with pEn := true, pAct := f20, pInt := f20 }).pInt = f20 := by decide +kernel
/-- The state after step 3 of V-P1. -/
def zP1 : State := { z with
  pEn := true, pSp := f25, pInt := F64.ofRatio 10 1, pPerr := F64.ofRatio 5 1, pPout := F64.ofRatio 51 1 }
/-- V-P1 step 4: a measurement of 24.0. -/
theorem test_pidUpd : (after (.pidUpd (F64.ofRatio 24 1)) zP1).pPout = (F64.ofRatio 689 10).neg ∧
    (after (.pidUpd (F64.ofRatio 24 1)) zP1).res = .real Param.zero := by decide +kernel
/-- V-P5: the gate is shut at exactly 100.0. -/
theorem test_pidUpd_gate : (after (.pidUpd (F64.ofRatio 24 1))
    { z with pEn := true, pSp := f25, pPout := Param.outMax }).pInt = Param.zero := by decide +kernel

/-! ### Deadline timer -/

/-- V-T10: a start on an armed timer. -/
theorem test_tmrStart : (after (.tmrStart one false) { z with tArm := true, tRem := 2000, tAct := true }).tRem = 1000 ∧
    (after (.tmrStart one false) { z with tArm := true, tRem := 2000, tAct := true }).tAct = false ∧
    isRefused (exec (.tmrStart nan true) z) = true := by decide +kernel
theorem test_tmrAbort : (after .tmrAbort { z with tArm := true, tRem := 300 }).tArm = false ∧
    (after .tmrAbort { z with tArm := true, tRem := 300 }).tRem = 300 := by decide +kernel
/-- V-T3. -/
theorem test_tmrTick : (after (.tmrTick 100) { z with tArm := true, tRem := 101 }).tRem = 1 ∧
    (after (.tmrTick 100) { z with tArm := true, tRem := 101 }).tArm = true ∧
    (after (.tmrTick 100) { z with tArm := true, tRem := 1 }).tRem = BitVec.ofInt 32 (-99) ∧
    (after (.tmrTick 100) { z with tArm := true, tRem := 1 }).tArm = false := by decide +kernel
/-- V-L7: a turn-on fire while on leaves the integral. -/
theorem test_tmrTick_on : (after (.tmrTick 1000)
    { z with tArm := true, tRem := 1000, tAct := true, pEn := true, pInt := f20 }).pInt = f20 := by decide +kernel
/-- V-T13, and U4. -/
theorem test_tmrGetrem : (after .tmrGetrem { z with tArm := true, tRem := 4900 }).res = .remaining 4900 ∧
    (after .tmrGetrem { z with tRem := 4900 }).res = .remaining 0 ∧
    isFault (exec .tmrGetrem { z with tArm := true, tRem := 0xFFFFFFFF }) = true := by decide +kernel

/-! ### Frames, run by one step -/

/-- V-L1: one line, the parser back in Idle. -/
theorem test_step_qTemp : (stepped (z.withFetchWord 32 0x2367743B)).out.map OutEvent.isLine = [true] ∧
    (stepped (z.withFetchWord 32 0x2367743B)).cState = .idle := by decide +kernel
theorem test_step_qCool : (stepped ({ z with env := { z.env with coolerDuties := [one] } }.withFetchWord 32 0x2367633B)).env =
    { z.env with draws := 1 } := by decide +kernel
theorem test_step_qHeat : (stepped ({ z with env := { z.env with heaterDuties := [one] } }.withFetchWord 32 0x2367613B)).env =
    { z.env with draws := 1 } := by decide +kernel
theorem test_step_qKp : (stepped (z.withFetchWord 32 0x2367703B)).out.map OutEvent.isLine = [true] := by decide +kernel
theorem test_step_qKi : (stepped (z.withFetchWord 32 0x2367693B)).out.map OutEvent.isLine = [true] := by decide +kernel
theorem test_step_qKd : (stepped (z.withFetchWord 32 0x2367643B)).out.map OutEvent.isLine = [true] := by decide +kernel
theorem test_step_qOnoff : (stepped (z.withFetchWord 32 0x2367733B)).out.map OutEvent.isLine = [true] := by
  decide +kernel
theorem test_step_qSp : (stepped (z.withFetchWord 32 0x2367673B)).out.map OutEvent.isLine = [true] := by decide +kernel
theorem test_step_qRpm : (stepped (z.withFetchWord 32 0x2367723B)).out.map OutEvent.isLine = [true] := by decide +kernel
theorem test_step_qTimer : (stepped (z.withFetchWord 32 0x23676D3B)).out.map OutEvent.isLine = [true] := by
  decide +kernel
/-- V-C10: `#ss;` turns off. -/
theorem test_step_aOnoff : (stepped ({ z with pEn := true, pAct := f20 }.withFetchWord 24 0x237373)).pEn = false ∧
    (stepped ({ z with pEn := true, pAct := f20 }.withFetchWord 24 0x237373)).out.take 1 = [.actWrite Param.zero] := by
  decide +kernel
theorem test_step_aKp : (stepped (z.withFetchWord 24 0x237370)).pKp = Param.zero := by decide +kernel

/-- V-L3. -/
theorem test_aSp : (after (.aSp [0x32, 0x35, 0x2C, 0x30]) { z with pInt := f20 }).pSp = f25 ∧
    (after (.aSp [0x32, 0x35, 0x2C, 0x30]) { z with pInt := f20 }).pInt = Param.zero := by decide +kernel
/-- V-C6. -/
theorem test_aSp_rejects : after (.aSp [0x32, 0x32, 0x2C, 0x39, 0x39]) z = z := by decide +kernel
theorem test_aKi : (after (.aKi [0x30, 0x2C, 0x30, 0x35]) z).pKi = ⟨0x3FA999999999999A⟩ := by decide +kernel
/-- V-C12. -/
theorem test_aCool : after (.aCool [0x31, 0x2C, 0x35]) z = z ∧
    (after (.aCool [0x31]) z).out.take 1 = [.coolerSet one] := by decide +kernel
/-- V-C11, V-L2. -/
theorem test_aHeat : (after (.aHeat [0x30, 0x2C, 0x35]) z).out.take 1 = [.heaterSet Param.heaterCap] ∧
    (after (.aHeat [0x30, 0x2C, 0x36]) z).out.map OutEvent.isLine = [true] := by decide +kernel
/-- V-C3. -/
theorem test_aKp : (after (.aKp [0x31, 0x32, 0x33, 0x34, 0x35, 0x36, 0x37, 0x38]) z).pKp = F64.ofRatio 1234567 1 := by
  decide +kernel
/-- V-C2. -/
theorem test_aKd : (after (.aKd [0x33]) z).pKd = F64.ofRatio 3 1 ∧ (after (.aKd [0x33]) z).pKp = Param.kp0 := by
  decide +kernel
/-- V-C8, V-C9. -/
theorem test_aOnoff : after (.aOnoff [0x32]) z = z ∧ (after (.aOnoff [0x31, 0x2C, 0x30]) z).pEn = true := by
  decide +kernel
/-- V-C21. -/
theorem test_aTact : (after (.aTact [0x31]) z).tCfgAct = true ∧ after (.aTact [0x32]) z = z := by decide +kernel
/-- V-C18. -/
theorem test_aTdur : (after (.aTdur [0x35, 0x39, 0x39, 0x39, 0x34, 0x30]) z).tCfgDur = Param.durMaxS := by
  decide +kernel
/-- R217, its example. -/
theorem test_aTrun : (after (.aTrun [0x31]) { z with tCfgDur := F64.ofRatio 5 1, tCfgAct := true }).tRem = 5000 ∧
    (after (.aTrun [0x30]) { z with tArm := true }).tArm = false := by decide +kernel
/-- R218: a second unlock emits nothing. -/
theorem test_aUnlock : after (.aUnlock [0x31]) { z with cUnlock := true } = { z with cUnlock := true } := by
  decide +kernel

/-! ### Witnesses -/

theorem inv_z : Inv z where
  emaIsDbase := rfl
  offCommandZero := fun _ => rfl
  setpointLegal := .inl rfl
  commandInRange := by decide +kernel
  armedCount := fun h => absurd h (by decide +kernel)
  stagedDuration := by decide +kernel
  divider := by decide +kernel
  queryCode := fun h => absurd h (by decide +kernel)
  assignCode := fun h => absurd h (by decide +kernel)
  bufferLegal := by decide +kernel

/-- 1 + 2^-53, an exact tie, and the odd neighbour; an overflow of each sign; an exact zero of each sign; infinities alone,
alike and opposed; a NaN. -/
theorem witness_AddRoundsToNearestTiesToEven : (∃ a b c : F64,
    a.isFinite = true ∧ b.isFinite = true ∧ (F64.add a b).isFinite = true ∧ c.isFinite = true ∧
    ((F64.add a b).value - (a.value + b.value)).natAbs = (c.value - (a.value + b.value)).natAbs ∧
    c.value ≠ (F64.add a b).value) ∧
    (F64.add ⟨0x7FEFFFFFFFFFFFFF⟩ ⟨0x7C90000000000000⟩).isFinite = false ∧
    (F64.add ⟨0xFFEFFFFFFFFFFFFF⟩ ⟨0xFC90000000000000⟩).isFinite = false ∧
    one.value + one.neg.value = 0 ∧ F64.value ⟨0x8000000000000000⟩ + F64.value ⟨0x8000000000000000⟩ = 0 ∧
    posInf.isInf = true ∧ (F64.add posInf one).isNaN = false ∧ (F64.add negInf negInf).isNaN = false ∧
    (F64.add one negInf).isNaN = false ∧ negInf.isInf = true ∧ posInf.sign ≠ negInf.sign ∧ nan.isNaN = true :=
  ⟨⟨one, ⟨0x3CA0000000000000⟩, ⟨0x3FF0000000000001⟩, by decide +kernel⟩, by decide +kernel⟩

/-- A finite operand, a zero and an infinity. -/
theorem witness_SubIsAddOfTheNegated : (F64.sub f20 f25).isNaN = false ∧ f25.isFinite = true ∧
    (F64.sub Param.zero Param.zero).isNaN = false ∧ (F64.sub posInf negInf).isNaN = false := by decide +kernel

/-- (1 + 2^-52) times 1.5, an exact tie, and the odd neighbour; an overflow of each sign; a product with an infinity of each
sign; zero times infinity; a NaN. -/
theorem witness_MulRoundsToNearestTiesToEven : (∃ a b c : F64,
    a.isFinite = true ∧ b.isFinite = true ∧ (F64.mul a b).isFinite = true ∧ c.isFinite = true ∧
    ((F64.mul a b).value * F64.unitsPerOne - a.value * b.value).natAbs
      = (c.value * F64.unitsPerOne - a.value * b.value).natAbs ∧ c.value ≠ (F64.mul a b).value) ∧
    (F64.mul ⟨0x7FEFFFFFFFFFFFFF⟩ f20).isFinite = false ∧ (F64.mul ⟨0x7FEFFFFFFFFFFFFF⟩ f20.neg).isFinite = false ∧
    (F64.mul posInf f20).isNaN = false ∧ (F64.mul f20 negInf).isNaN = false ∧ posInf.isInf = true ∧ negInf.isInf = true ∧
    Param.zero.isFinite = true ∧ Param.zero.value = 0 ∧ nan.isNaN = true :=
  ⟨⟨⟨0x3FF0000000000001⟩, ⟨0x3FF8000000000000⟩, ⟨0x3FF8000000000001⟩, by decide +kernel⟩, by decide +kernel⟩

/-- NaN, finite and infinite operands, and both zeros. -/
theorem witness_ComparisonsOrderValuesAndFailOnNaN : posInf = ⟨0x7FF0000000000000⟩ ∧ negInf = ⟨0xFFF0000000000000⟩ ∧
    (nan.isNaN = true ∨ one.isNaN = true) ∧ (one.isFinite = true ∧ Param.zero.isFinite = true) ∧
    F64.eq Param.zero ⟨0x8000000000000000⟩ = true ∧ posInf.isNaN = false ∧ negInf.isNaN = false ∧
    F64.lt negInf posInf = true := by decide +kernel

theorem witness_DecodeEncodeRoundTrip : ∃ i f, i.wellFormed = true ∧ encode i = some f :=
  ⟨.aHeat [0x30, 0x2C, 0x35], [0x23, 0x73, 0x61, 0x30, 0x2C, 0x35, 0x3B], by decide⟩

theorem witness_DecodedBytesHoldTheFrame : ∃ i bytes rest, decode bytes = .ok (i, rest) :=
  ⟨.qTemp, [0x23, 0x67, 0x23, 0x67, 0x74, 0x3B, 0x41], [0x41], by decide⟩

theorem witness_StepTakesTheNextEvent : z.env.events = [] ∧
    ({ z.env with events := [.reset f20] } : Env).events = .reset f20 :: [] ∧
    ({ z.env with events := [.tick, .byte 0x23] } : Env).events = .tick :: [.byte 0x23] ∧
    ({ z.env with events := [.byte 0x23] } : Env).events = .byte 0x23 :: [] := ⟨rfl, rfl, rfl, rfl⟩

/-- A query waiting for its TERMINATOR. -/
def zParam : State := { z with cState := .param, cCode := 0x74, env := { z.env with events := [.byte 0x3B] } }
/-- An assignment waiting for its TERMINATOR: `#st25`. -/
def zValue : State := { z with
  cState := .value, cCode := 0x74, cLen := 2, cBuf := #v[0x32, 0x35, 0, 0, 0, 0, 0]
  env := { z.env with events := [.byte 0x3B] } }

theorem inv_zParam : Inv zParam :=
  { inv_z with queryCode := fun _ => by decide, assignCode := fun h => absurd h (by decide +kernel) }
theorem inv_zValue : Inv zValue :=
  { inv_z with
    queryCode := fun h => absurd h (by decide +kernel), assignCode := fun _ => by decide
    bufferLegal := by decide +kernel }

theorem witness_StepRunsTheDecodedFrame :
    (Inv zParam ∧ decode (heldFrame zParam ++ [Ascii.terminator]) = .ok (.qTemp, []) ∧
      zParam.env.events = .byte Ascii.terminator :: []) ∧
    (Inv zValue ∧ decode (heldFrame zValue ++ [Ascii.terminator]) = .ok (.aSp [0x32, 0x35], []) ∧
      zValue.env.events = .byte Ascii.terminator :: []) :=
  ⟨⟨inv_zParam, by decide +kernel, rfl⟩, ⟨inv_zValue, by decide +kernel, rfl⟩⟩

theorem witness_PlacedWordRunsAtTheNextStep : ∃ nbits w i, decodeTableWord nbits w = some i :=
  ⟨24, 0x23736B, .aUnlock [], by decide⟩

theorem witness_QueryFrameRunsItsQuery : queryOf 0x6D = some .qTimer := by decide

theorem witness_AssignFrameRunsItsAssignment : ∃ code value i, assignOf code value = some i ∧
    value.all Ascii.isValueByte = true ∧ value.length = 8 :=
  ⟨0x70, [0x31, 0x32, 0x33, 0x34, 0x35, 0x36, 0x37, 0x38],
    .aKp [0x31, 0x32, 0x33, 0x34, 0x35, 0x36, 0x37, 0x38], by decide⟩

theorem witness_ExcessValueBytesChangeNothing : ∃ (code : Byte) (value : List Byte) (i j : Instr),
    value.all Ascii.isValueByte = true ∧ assignOf code value = some i ∧ assignOf code (value.take 7) = some j ∧
    value.length = 8 :=
  ⟨0x70, [0x31, 0x32, 0x33, 0x34, 0x35, 0x36, 0x37, 0x38],
    .aKp [0x31, 0x32, 0x33, 0x34, 0x35, 0x36, 0x37, 0x38], .aKp [0x31, 0x32, 0x33, 0x34, 0x35, 0x36, 0x37],
    by decide⟩

theorem witness_StepKeepsTheInvariants : (∃ s t, Inv s ∧ step s = .next t ∧ t.out ≠ s.out) ∧
    ∃ i s t, Inv s ∧ exec i s = .next t ∧ t.pEn ≠ s.pEn :=
  ⟨⟨zParam, stepped zParam, inv_zParam, eq_next zParam (by decide +kernel), fun h => absurd (congrArg List.length h)
    (by decide +kernel)⟩, .pidOn, z, after .pidOn z, inv_z, eq_next z (by decide +kernel), by decide +kernel⟩

theorem witness_EveryOperationCompletes : ∃ (i : Instr) (s : State), Inv s ∧ i.wellFormed = true :=
  ⟨.tmrTick 2147483647, z, inv_z, by decide⟩

theorem witness_OutputsStayInRange : ∃ i s t, exec i s = .next t ∧ t.out ≠ s.out :=
  ⟨.pidOff, z, after .pidOff z, eq_next z (by decide +kernel), by decide +kernel⟩

theorem witness_OnlyCompleteFramesEmit : ∃ b s t, exec (.cmdByte b) s = .next t ∧ t.out ≠ s.out :=
  ⟨0x3B, zParam, after (.cmdByte 0x3B) zParam, eq_next zParam (by decide +kernel),
    fun h => absurd (congrArg List.length h) (by decide +kernel)⟩

theorem witness_UnlockChangesOnlyAsStated :
    (∃ i s t, exec i s = .next t ∧ s.cUnlock = true) ∧
    ∃ i s t, exec i s = .next t ∧ s.cUnlock = false ∧ (∀ value, i ≠ .aUnlock value) ∧ ∀ b, i ≠ .cmdByte b :=
  ⟨⟨.pidOn, { z with cUnlock := true }, after .pidOn { z with cUnlock := true }, eq_next z (by decide +kernel), rfl⟩,
    .pidOn, z, after .pidOn z, eq_next z (by decide +kernel), rfl, by simp, by simp⟩

theorem witness_FilterAndReadingsChangeOnlyByTheirWriters : ∃ i s t, exec i s = .next t ∧
    (∀ seed, i ≠ .reset seed) ∧ i ≠ .schedTick ∧ (∀ v, i ≠ .filtInit v) ∧ ∀ v, i ≠ .filtUpd v :=
  ⟨.tmrAbort, z, after .tmrAbort z, eq_next z (by decide +kernel), by simp⟩

theorem witness_TunablesChangeOnlyByTheirWriters : ∃ i s t, exec i s = .next t ∧ (∀ seed, i ≠ .reset seed) ∧
    (∀ b, i ≠ .cmdByte b) ∧ (∀ v, i ≠ .pidSetkp v) ∧ (∀ v, i ≠ .aKp v) ∧ (∀ v, i ≠ .pidSetki v) ∧
    (∀ v, i ≠ .aKi v) ∧ (∀ v, i ≠ .pidSetkd v) ∧ (∀ v, i ≠ .aKd v) ∧ (∀ v, i ≠ .pidSetsp v) ∧ (∀ v, i ≠ .aSp v) ∧
    (∀ v, i ≠ .aTdur v) ∧ ∀ v, i ≠ .aTact v :=
  ⟨.tmrAbort, z, after .tmrAbort z, eq_next z (by decide +kernel), by simp⟩

theorem witness_TimerAndParserChangeOnlyByTheirWriters : ∃ i s t, exec i s = .next t ∧ (∀ seed, i ≠ .reset seed) ∧
    (∀ b, i ≠ .cmdByte b) ∧ (∀ v, i ≠ .aTrun v) ∧ (∀ d a, i ≠ .tmrStart d a) ∧ i ≠ .schedTick ∧
    (∀ p, i ≠ .tmrTick p) ∧ i ≠ .tmrAbort :=
  ⟨.pidOff, z, after .pidOff z, eq_next z (by decide +kernel), by simp⟩

/-- A NaN sample and NaN accumulators; finite accumulators; infinite ones. -/
theorem witness_FilterNaNPersists : nan.isNaN = true ∧
    (∃ s : State, s.fEma.isNaN = true ∧ s.fDbase.isNaN = true ∧ s.fDema.isNaN = true) ∧
    (z.fEma.isFinite = true ∧ z.fDbase.isFinite = true ∧ z.fDema.isFinite = true) ∧
    ∃ s : State, s.fEma.isFinite = false ∧ s.fDbase.isFinite = false ∧ s.fDema.isFinite = false :=
  ⟨by decide +kernel, ⟨after (.filtInit nan) z, by decide +kernel⟩, by decide +kernel,
    ⟨after (.filtInit posInf) z, by decide +kernel⟩⟩

/-- Two states that differ in a gain and in the last answer, with a sample; with none, one last answer. -/
theorem witness_FilterOutputIsAFunctionOfSeedAndSamples :
    (∃ s s' : State, s.fEma = s'.fEma ∧ s.fDbase = s'.fDbase ∧ s.fDema = s'.fDema ∧ s.res ≠ s'.res ∧ s.pKp ≠ s'.pKp ∧
      [f25] ≠ []) ∧
    ∃ s s' : State, s.fEma = s'.fEma ∧ s.fDbase = s'.fDbase ∧ s.fDema = s'.fDema ∧ s.res = s'.res ∧ s ≠ s' :=
  ⟨⟨z, { z with pKp := f25, res := .real one }, by decide +kernel⟩, ⟨z, { z with pKp := f25 }, by decide +kernel⟩⟩

/-- Both bounds, a value just outside each, and NaN. -/
theorem witness_PidSetspAcceptsOnlyItsRange :
    (F64.le (F64.ofRatio 23 1) ⟨0x4037000000000000⟩ = true ∧ F64.le ⟨0x4037000000000000⟩ (F64.ofRatio 74 1) = true) ∧
    (F64.le (F64.ofRatio 23 1) ⟨0x4052800000000000⟩ = true ∧ F64.le ⟨0x4052800000000000⟩ (F64.ofRatio 74 1) = true) ∧
    ¬ (F64.le (F64.ofRatio 23 1) ⟨0x4036FFFFFFFFFFFF⟩ = true ∧ F64.le ⟨0x4036FFFFFFFFFFFF⟩ (F64.ofRatio 74 1) = true) ∧
    ¬ (F64.le (F64.ofRatio 23 1) ⟨0x4052800000000001⟩ = true ∧ F64.le ⟨0x4052800000000001⟩ (F64.ofRatio 74 1) = true) ∧
    nan.isNaN = true := by decide +kernel

/-- A NaN measurement makes a NaN raw output. -/
theorem pidRaw_nan (s : State) : (pidRaw nan s).isNaN = true := by
  have hn : nan.neg.isNaN = true := by decide
  have he : (pidError nan s).isNaN = true := by simp [pidError, F64.sub, F64.addOr, hn]
  simp [pidRaw, F64.add, F64.mul, F64.addOr, he]

/-- Off; on with a number; on with a NaN. -/
theorem witness_PidUpdFollowsItsSteps : z.pEn = false ∧ ({ z with pEn := true } : State).pEn = true ∧
    (pidRaw f20 { z with pEn := true }).isNaN = false ∧ (pidRaw nan { z with pEn := true }).isNaN = true :=
  ⟨by decide +kernel, by decide +kernel, by decide +kernel, pidRaw_nan _⟩

/-- Kp alone at 10.0: an error of 10.0 gives exactly 100.0, an error of -1.0 gives -10.0, a NaN gives a NaN. -/
def zKp : State := { z with pEn := true, pSp := f25, pKi := Param.zero, pKd := Param.zero }

theorem zKp_nan : (after (.pidUpd nan) zKp).pPout.isNaN = true := by
  show ((pidUpd nan zKp).2).pPout.isNaN = true
  rw [pidUpd, if_pos (by decide), clamp_state]
  exact pidRaw_nan zKp

theorem witness_SaturatedUpdateFreezesTheIntegral :
    (∃ t t', exec (.pidUpd (F64.ofRatio 15 1)) zKp = .next t ∧ F64.le (F64.ofRatio 100 1) t.pPout = true ∧
      F64.le t.pPout (F64.ofRatio 100 1) = true ∧ exec (.pidUpd f20) t = .next t') ∧
    (∃ t t', exec (.pidUpd (F64.ofRatio 26 1)) zKp = .next t ∧ F64.lt t.pPout ⟨0⟩ = true ∧
      exec (.pidUpd f20) t = .next t') ∧
    (∃ t t', exec (.pidUpd nan) zKp = .next t ∧ t.pPout.isNaN = true ∧ exec (.pidUpd f20) t = .next t') :=
  ⟨⟨after (.pidUpd (F64.ofRatio 15 1)) zKp, after (.pidUpd f20) (after (.pidUpd (F64.ofRatio 15 1)) zKp),
      eq_next zKp (by decide +kernel), by decide +kernel, by decide +kernel, eq_next _ (by decide +kernel)⟩,
    ⟨after (.pidUpd (F64.ofRatio 26 1)) zKp, after (.pidUpd f20) (after (.pidUpd (F64.ofRatio 26 1)) zKp),
      eq_next zKp (by decide +kernel), by decide +kernel, eq_next _ (by decide +kernel)⟩,
    ⟨after (.pidUpd nan) zKp, after (.pidUpd f20) (after (.pidUpd nan) zKp),
      eq_next zKp rfl, zKp_nan, eq_next _ rfl⟩⟩

/-- The gate open at 0.0 and shut at exactly 100.0. -/
theorem witness_NaNMeasurementPoisonsTheController : zKp.pEn = true ∧ nan.isNaN = true ∧
    (F64.le ⟨0⟩ zKp.pPout = true ∧ F64.lt zKp.pPout (F64.ofRatio 100 1) = true) ∧
    ¬ (F64.le ⟨0⟩ ({ zKp with pPout := Param.outMax } : State).pPout = true ∧
      F64.lt ({ zKp with pPout := Param.outMax } : State).pPout (F64.ofRatio 100 1) = true) := by decide +kernel

/-- Both bounds, a value just outside each, and NaN; 0.0005 s, whose product is an exact tie between 0 and 1. -/
theorem witness_TmrStartArmsWithRoundedMilliseconds :
    (F64.le ⟨0⟩ Param.zero = true ∧ F64.le Param.zero (F64.ofRatio 599940 1) = true) ∧
    (F64.le ⟨0⟩ Param.durMaxS = true ∧ F64.le Param.durMaxS (F64.ofRatio 599940 1) = true) ∧
    ¬ (F64.le ⟨0⟩ ⟨0x8000000000000001⟩ = true ∧ F64.le ⟨0x8000000000000001⟩ (F64.ofRatio 599940 1) = true) ∧
    ¬ (F64.le ⟨0⟩ ⟨0x41224F0800000001⟩ = true ∧ F64.le ⟨0x41224F0800000001⟩ (F64.ofRatio 599940 1) = true) ∧
    ¬ (F64.le ⟨0⟩ nan = true ∧ F64.le nan (F64.ofRatio 599940 1) = true) ∧
    (0 * F64.unitsPerOne - (F64.mul (F64.ofRatio 5 10000) (F64.ofRatio 1000 1)).value).natAbs
      = (1 * F64.unitsPerOne - (F64.mul (F64.ofRatio 5 10000) (F64.ofRatio 1000 1)).value).natAbs := by decide +kernel

/-- Periods 0 and 2^31 refused, 1 and 2^31 - 1 taken; disarmed; one left after the tick; nothing left, each action. -/
theorem witness_TmrTickCountsDownAndFires :
    ¬ ((1 : Int) ≤ 0 ∧ (0 : Int) ≤ 2 ^ 31 - 1) ∧ ¬ ((1 : Int) ≤ 2 ^ 31 ∧ (2 : Int) ^ 31 ≤ 2 ^ 31 - 1) ∧
    ((1 : Int) ≤ 1 ∧ (1 : Int) ≤ 2 ^ 31 - 1) ∧ z.tArm = false ∧
    (∃ s : State, s.tArm = true ∧ 0 ≤ s.tRem.toInt ∧ 0 < s.tRem.toInt - 100) ∧
    (∃ s : State, s.tArm = true ∧ 0 ≤ s.tRem.toInt ∧ s.tRem.toInt - 100 ≤ 0 ∧ s.tAct = false) ∧
    (∃ s : State, s.tArm = true ∧ 0 ≤ s.tRem.toInt ∧ s.tRem.toInt - 100 ≤ 0 ∧ s.tAct = true ∧ s.pEn = false) ∧
    (∃ s : State, s.tArm = true ∧ 0 ≤ s.tRem.toInt ∧ s.tRem.toInt - (2 ^ 31 - 1) ≤ 0 ∧ s.tAct = true ∧ s.pEn = true) :=
  ⟨by decide, by decide, by decide, by decide +kernel,
    ⟨{ z with tArm := true, tRem := 101 }, by decide +kernel⟩, ⟨{ z with tArm := true, tRem := 100 }, by decide +kernel⟩,
    ⟨{ z with tArm := true, tRem := 0, tAct := true }, by decide +kernel⟩,
    ⟨{ z with tArm := true, tRem := 0, tAct := true, pEn := true }, by decide +kernel⟩⟩

/-- R166's own values: 0, 100 and 101 milliseconds at a period of 100. -/
theorem witness_TimerFiresOnItsTick : ∀ ms ∈ [0, 100, 101], (1 ≤ 100 ∧ 100 ≤ 2 ^ 31 - 1) ∧
    ({ z with tArm := true, tRem := BitVec.ofNat 32 ms } : State).tArm = true ∧
    ({ z with tArm := true, tRem := BitVec.ofNat 32 ms } : State).tRem.toInt = (ms : Int) := by decide +kernel

theorem witness_AbortedTimerNeverFires : ((1 : Int) ≤ 100 ∧ (100 : Int) ≤ 2 ^ 31 - 1) ∧ z.tArm = false := by
  decide +kernel

/-- Disarmed; armed at 0; armed at -1. -/
theorem witness_TmrGetremReportsTheCount : z.tArm = false ∧
    (∃ s : State, s.tArm = true ∧ s.tRem.toInt = 0) ∧ ∃ s : State, s.tArm = true ∧ s.tRem.toInt = -1 :=
  ⟨by decide +kernel, ⟨{ z with tArm := true }, by decide +kernel⟩,
    ⟨{ z with tArm := true, tRem := 0xFFFFFFFF }, by decide +kernel⟩⟩

/-- The tick after the divider's last value. -/
def zNine : State := sensed f20 1009 { z with sDiv := 9 }

theorem witness_DividerCountsTicksModuloTen : ∃ k s t, s.sDiv.toNat < 10 ∧ execAll (List.replicate k .schedTick) s = .next t :=
  ⟨1, zNine, nextD (execAll (List.replicate 1 .schedTick) zNine) zNine, by decide +kernel,
    eq_next zNine (by decide +kernel)⟩

/-- A tick that brings the divider to 0, and one that brings it to 1. -/
theorem witness_SubRateTasksRunOnTheirTicks :
    (∃ s t, s.sDiv.toNat < 10 ∧ exec .schedTick s = .next t ∧ (s.sDiv.toNat + 1) % 10 = 0) ∧
    (∃ s t, s.sDiv.toNat < 10 ∧ exec .schedTick s = .next t ∧ (s.sDiv.toNat + 1) % 10 ≠ 0) :=
  ⟨⟨zNine, after .schedTick zNine, by decide +kernel, eq_next zNine (by decide +kernel), by decide +kernel⟩,
    ⟨sensed f20 0 z, after .schedTick (sensed f20 0 z), by decide +kernel, eq_next _ (by decide +kernel),
      by decide +kernel⟩⟩

/-- Armed with 100 left, each action; armed with 101 left; disarmed. -/
theorem witness_EveryTickWritesTheActuator :
    (∃ s : State, (s.tArm = true → 0 ≤ s.tRem.toInt) ∧ s.tArm = true ∧ s.tRem.toInt ≤ 100 ∧ s.tAct = false) ∧
    (∃ s : State, (s.tArm = true → 0 ≤ s.tRem.toInt) ∧ s.tArm = true ∧ s.tRem.toInt ≤ 100 ∧ s.tAct = true) ∧
    (∃ s : State, (s.tArm = true → 0 ≤ s.tRem.toInt) ∧ s.tArm = true ∧ ¬ (s.tArm = true ∧ s.tRem.toInt ≤ 100)) ∧
    (∃ s : State, (s.tArm = true → 0 ≤ s.tRem.toInt) ∧ s.pEn = false ∧ ¬ (s.tArm = true ∧ s.tRem.toInt ≤ 100)) :=
  ⟨⟨{ z with tArm := true, tRem := 100 }, by decide +kernel⟩,
    ⟨{ z with tArm := true, tRem := 100, tAct := true }, by decide +kernel⟩,
    ⟨{ z with tArm := true, tRem := 101 }, by decide +kernel⟩, ⟨z, by decide +kernel⟩⟩

/-- A byte and a state for each clause; the value bytes at both ends of DIGIT and just outside. -/
theorem witness_ParserFollowsItsTransitionTable :
    (∀ st ∈ [ParserState.idle, .ready, .get, .set, .param, .value], ∃ s : State, s.cState = st) ∧
    (0x6D : Byte) ∈ ([0x74, 0x63, 0x61, 0x70, 0x69, 0x64, 0x73, 0x67, 0x72, 0x6D] : List Byte) ∧
    (0x6B : Byte) ∉ ([0x74, 0x63, 0x61, 0x70, 0x69, 0x64, 0x73, 0x67, 0x72, 0x6D] : List Byte) ∧
    (0x6B : Byte) ∈ ([0x74, 0x69, 0x63, 0x61, 0x70, 0x64, 0x73, 0x62, 0x6E, 0x6D, 0x6B] : List Byte) ∧
    (0x67 : Byte) ∉ ([0x74, 0x69, 0x63, 0x61, 0x70, 0x64, 0x73, 0x62, 0x6E, 0x6D, 0x6B] : List Byte) ∧
    (zParam.cState = .param ∧ queryOf zParam.cCode = some .qTemp) ∧
    (zValue.cState = .value ∧ zValue.cLen.toNat < 7 ∧
      assignOf zValue.cCode (zValue.cBuf.toList.take zValue.cLen.toNat) = some (.aSp [0x32, 0x35])) ∧
    (∃ s : State, s.cState = .value ∧ s.cLen.toNat = 7) ∧
    (∀ b ∈ ([0x30, 0x39, 0x2C] : List Byte), (0x30 ≤ b.toNat ∧ b.toNat ≤ 0x39) ∨ b = 0x2C) ∧
    (∀ b ∈ ([0x2F, 0x3A] : List Byte), ¬ ((0x30 ≤ b.toNat ∧ b.toNat ≤ 0x39) ∨ b = 0x2C) ∧ b ≠ 0x3B ∧ b ≠ 0x23) :=
  ⟨fun st _ => ⟨{ z with cState := st }, rfl⟩, by decide, by decide, by decide, by decide, by decide +kernel,
    by decide +kernel, ⟨{ z with cState := .value, cLen := 7 }, by decide +kernel⟩, by decide, by decide⟩

/-- Disarmed; armed at 0; armed at -1. -/
theorem witness_StatusQueriesEmitOneLine : (z.tArm = false ∧ 0 = 0) ∧
    (∃ s : State, s.tArm = true ∧ s.tRem.toInt = ((0 : Nat) : Int)) ∧ ∃ s : State, s.tArm = true ∧ s.tRem.toInt < 0 :=
  ⟨by decide +kernel, ⟨{ z with tArm := true }, by decide +kernel⟩,
    ⟨{ z with tArm := true, tRem := 0xFFFFFFFF }, by decide +kernel⟩⟩

/-- A query of a register, and one that draws the same duty twice. -/
theorem witness_QueriesChangeNothingAndRepeat :
    (∃ s t u, queryOf 0x74 = some .qTemp ∧ exec .qTemp s = .next t ∧ exec .qTemp t = .next u) ∧
    (∃ s t u, queryOf 0x63 = some .qCool ∧ exec .qCool s = .next t ∧ exec .qCool t = .next u ∧
      ∃ d rest, s.env.coolerDuties = d :: d :: rest) ∧
    (∃ s t u, queryOf 0x61 = some .qHeat ∧ exec .qHeat s = .next t ∧ exec .qHeat t = .next u ∧
      ∃ d rest, s.env.heaterDuties = d :: d :: rest) :=
  ⟨⟨z, _, _, by decide, rfl, rfl⟩,
    ⟨{ z with env := { z.env with coolerDuties := [one, one] } }, _, _, by decide, rfl, rfl, one, [], rfl⟩,
    ⟨{ z with env := { z.env with heaterDuties := [one, one] } }, _, _, by decide, rfl, rfl, one, [], rfl⟩⟩

theorem witness_TemperatureAnswerContains23Comma4 : (∃ s : State, s.fOut = ⟨0x4037666666666666⟩) ∧ ∃ w, 3 ≤ w :=
  ⟨⟨{ z with fOut := ⟨0x4037666666666666⟩ }, rfl⟩, 3, Nat.le_refl 3⟩

/-- `23`, `74`, `22,9999` and `74,0001`. -/
theorem witness_SetpointAssignmentIsAppliedOrSilent :
    (∀ value ∈ ([[0x32, 0x33], [0x37, 0x34]] : List (List Byte)), value.all Ascii.isValueByte = true ∧
      F64.lt (Text.textToFloat (value.take 7)) (F64.ofRatio 23 1) = false ∧
      F64.lt (F64.ofRatio 74 1) (Text.textToFloat (value.take 7)) = false) ∧
    (∀ value ∈ ([[0x32, 0x32, 0x2C, 0x39, 0x39, 0x39, 0x39], [0x37, 0x34, 0x2C, 0x30, 0x30, 0x30, 0x31]] : List (List Byte)),
      value.all Ascii.isValueByte = true ∧
      (F64.lt (Text.textToFloat (value.take 7)) (F64.ofRatio 23 1) = true ∨
       F64.lt (F64.ofRatio 74 1) (Text.textToFloat (value.take 7)) = true)) := by decide +kernel

theorem witness_GainAssignmentsAreStoredAndAcknowledged : ∃ (value : List Byte) (v : F64),
    value.all Ascii.isValueByte = true ∧ v = Text.textToFloat (value.take 7) := ⟨[0x2C, 0x35], _, by decide, rfl⟩

/-- `1`, `1,0001`, `0,5`, `0,50001`: at each cap and just above it. -/
theorem witness_DutyAssignmentsRespectTheirCaps :
    (∀ value ∈ ([[0x31], [0x31, 0x2C, 0x30, 0x30, 0x30, 0x31], [0x30, 0x2C, 0x35],
      [0x30, 0x2C, 0x35, 0x30, 0x30, 0x30, 0x31]] : List (List Byte)), value.all Ascii.isValueByte = true) ∧
    F64.le (Text.textToFloat [0x31]) (F64.ofRatio 1 1) = true ∧
    F64.le (Text.textToFloat [0x31, 0x2C, 0x30, 0x30, 0x30, 0x31]) (F64.ofRatio 1 1) = false ∧
    F64.le (Text.textToFloat [0x30, 0x2C, 0x35]) (F64.ofRatio 1 2) = true ∧
    F64.le (Text.textToFloat [0x30, 0x2C, 0x35, 0x30, 0x30, 0x30, 0x31]) (F64.ofRatio 1 2) = false := by decide +kernel

/-- `1`, the empty field and `2`. -/
theorem witness_OnOffAssignmentTurnsOnOnlyFromOff :
    (∀ value ∈ ([[0x31], [], [0x32]] : List (List Byte)), value.all Ascii.isValueByte = true) ∧
    (F64.eq (Text.textToFloat [0x31]) (F64.ofRatio 1 1) = true ∧ z.pEn = false ∧ zKp.pEn = true) ∧
    F64.eq (Text.textToFloat []) ⟨0⟩ = true ∧
    (F64.eq (Text.textToFloat [0x32]) (F64.ofRatio 1 1) = false ∧ F64.eq (Text.textToFloat [0x32]) ⟨0⟩ = false) := by
  decide +kernel

/-- `1`, `0`, `2`, `599940` and `599941`. -/
theorem witness_StagingAssignmentsLeaveTheTimerAlone :
    (∀ value ∈ ([[0x31], [0x30], [0x32], [0x35, 0x39, 0x39, 0x39, 0x34, 0x30], [0x35, 0x39, 0x39, 0x39, 0x34, 0x31]] :
      List (List Byte)), value.all Ascii.isValueByte = true) ∧
    F64.eq (Text.textToFloat [0x31]) (F64.ofRatio 1 1) = true ∧ F64.eq (Text.textToFloat [0x30]) ⟨0⟩ = true ∧
    (F64.eq (Text.textToFloat [0x32]) (F64.ofRatio 1 1) = false ∧ F64.eq (Text.textToFloat [0x32]) ⟨0⟩ = false) ∧
    F64.le (Text.textToFloat [0x35, 0x39, 0x39, 0x39, 0x34, 0x30]) (F64.ofRatio 599940 1) = true ∧
    F64.le (Text.textToFloat [0x35, 0x39, 0x39, 0x39, 0x34, 0x31]) (F64.ofRatio 599940 1) = false := by decide +kernel

/-- `1`, the empty field and `2`, at a state that meets the invariants. -/
theorem witness_RunAssignmentStartsAndStopsTheTimer : Inv z ∧
    (∀ value ∈ ([[0x31], [], [0x32]] : List (List Byte)), value.all Ascii.isValueByte = true) ∧
    F64.eq (Text.textToFloat [0x31]) (F64.ofRatio 1 1) = true ∧ F64.eq (Text.textToFloat []) ⟨0⟩ = true ∧
    (F64.eq (Text.textToFloat [0x32]) (F64.ofRatio 1 1) = false ∧ F64.eq (Text.textToFloat [0x32]) ⟨0⟩ = false) :=
  ⟨inv_z, by decide +kernel⟩

theorem witness_UnlockAssignmentIsOneShot : ∃ (value : List Byte) (v : F64),
    value.all Ascii.isValueByte = true ∧ v = Text.textToFloat (value.take 7) := ⟨[0x31], _, by decide, rfl⟩

/-- The digit lists of `25,0,3` and an empty one; 9007199254740993 = 2^53 + 1, an exact tie, and its odd neighbour. -/
theorem witness_TextToFloatRoundsExactly : (AreDigits [0x32, 0x35] ∧ AreDigits [0x30] ∧ AreDigits []) ∧
    ∃ (s : List Byte) (c : F64), s.all Ascii.isValueByte = true ∧
    (Text.textToFloat s).isFinite = true ∧ c.isFinite = true ∧
    ((Text.textToFloat s).value * 10 ^ (Text.fracDigits s).length - (Text.numerator s : Int) * F64.unitsPerOne).natAbs
      = (c.value * 10 ^ (Text.fracDigits s).length - (Text.numerator s : Int) * F64.unitsPerOne).natAbs ∧
    c.value ≠ (Text.textToFloat s).value :=
  ⟨by simp [AreDigits],
    [0x39, 0x30, 0x30, 0x37, 0x31, 0x39, 0x39, 0x32, 0x35, 0x34, 0x37, 0x34, 0x30, 0x39, 0x39, 0x33],
    ⟨0x4340000000000001⟩, by decide +kernel⟩

theorem witness_TextToFloatStaysInRange : ∃ s : List Byte, s.all Ascii.isValueByte = true ∧ s.length ≤ 7 :=
  ⟨[0x39, 0x39, 0x39, 0x39, 0x39, 0x39, 0x39], by decide⟩

/-- Width 2; 123.46 and 99.96 at width 3 with one fraction digit (R227); 9.5 at width 2 with none, the exact tie that saturates;
one digit; 10 and 9 in one digit. -/
theorem witness_FormattedFieldsHaveTheirLength :
    (∀ entry ∈ [(F64.ofRatio 12346 100, 3, 1), (F64.ofRatio 9996 100, 3, 1), (F64.ofRatio 95 10, 2, 0)],
      2 ≤ entry.2.1 ∧ entry.1.isFinite = true ∧ F64.le ⟨0⟩ entry.1 = true ∧
      2 * 10 ^ (entry.2.1 - 1 + entry.2.2) * (F64.unitsPerOne : Int)
        ≤ 2 * (entry.1.value * 10 ^ entry.2.2) + F64.unitsPerOne) ∧
    (1 ≤ 1) ∧ (10 ^ 1 ≤ 10) ∧ (9 < 10 ^ 1) := by decide +kernel

/-- 23.4 in the field of R227. -/
theorem witness_FormattedFieldParsesWithinItsResolution : ∃ (x : F64) (w f : Nat), 2 ≤ w ∧ x.isFinite = true ∧
    F64.le ⟨0⟩ x = true ∧ (Text.digits (Text.scaledDecimal x f / 10 ^ f)).length < w :=
  ⟨⟨0x4037666666666666⟩, 3, 1, by decide +kernel⟩

end Sys2Proof.Tests
end

/-!
SUPPORT. What each operation may write (the table of R46): `withOwn` names the registers that are an operation's own,
`footprint` adds those of the controller and the ports, and `exec_footprint` says that an operation writes nothing else.
-/

namespace Sys2Proof.Machine

/-- `s`, with the controller's working registers and the model's own fields taken from `w`. -/
def withController (s w : State) : State :=
  { s with
    pInt := w.pInt, pPerr := w.pPerr, pPout := w.pPout, pEn := w.pEn, pAct := w.pAct,
    out := w.out, env := w.env, res := w.res }

/-- `s`, with the registers that R46 lets the operation `i` write taken from `w`, apart from those of `withController`.
`RESET` writes every register, and what `CMD.BYTE` writes depends on the frame it completes (`cmdByte_effect`): nothing of
`s` is kept for these two. -/
def withOwn (i : Instr) (s w : State) : State :=
  match i with
  | .reset _ | .cmdByte _ => w
  | .schedTick =>
    { s with
      fEma := w.fEma, fDbase := w.fDbase, fDema := w.fDema, fOut := w.fOut, sDiv := w.sDiv, rRpm := w.rRpm,
      tRem := w.tRem, tArm := w.tArm }
  | .filtInit _ | .filtUpd _ => { s with fEma := w.fEma, fDbase := w.fDbase, fDema := w.fDema }
  | .pidSetsp _ | .aSp _ => { s with pSp := w.pSp }
  | .pidSetkp _ | .aKp _ => { s with pKp := w.pKp }
  | .pidSetki _ | .aKi _ => { s with pKi := w.pKi }
  | .pidSetkd _ | .aKd _ => { s with pKd := w.pKd }
  | .tmrStart _ _ | .aTrun _ => { s with tRem := w.tRem, tAct := w.tAct, tArm := w.tArm }
  | .tmrAbort => { s with tArm := w.tArm }
  | .tmrTick _ => { s with tRem := w.tRem, tArm := w.tArm }
  | .aTact _ => { s with tCfgAct := w.tCfgAct }
  | .aTdur _ => { s with tCfgDur := w.tCfgDur }
  | .aUnlock _ => { s with cUnlock := w.cUnlock }
  | _ => s

/-- `s`, with everything the operation `i` may write taken from `w`. -/
def footprint (i : Instr) (s w : State) : State := withController (withOwn i s w) w

/-- A query writes no register (R50). -/
theorem query_keeps {code : Byte} {i : Instr} {s t : State} (hi : queryOf code = some i) (h : exec i s = .next t) :
    t = withController s t := by
  obtain ⟨text, env, rfl, -⟩ := query_effect hi h
  rfl

/-- The action of a fire is the controller's alone (R165). -/
theorem tmrAction_keeps (s : State) : tmrAction s = withController s (tmrAction s) := by
  obtain ⟨-, e⟩ | ⟨-, -, e⟩ | ⟨-, -, e⟩ := tmrAction_cases s <;> rw [e] <;> rfl

/-- A tick of the timer writes the count, the armed flag and, in a fire, the controller (R165). -/
theorem tmrTick_keeps {p : Int} {s t : State} (h : tmrTick p s = .next t) :
    ∃ w, t = withController { s with tRem := w.tRem, tArm := w.tArm } w := by
  obtain ⟨-, ⟨-, rfl⟩ | ⟨-, -, -, rfl⟩ | ⟨-, -, -, rfl⟩⟩ := tmrTick_cases h
  · exact ⟨t, rfl⟩
  · exact ⟨{ s with tRem := BitVec.ofInt 32 (s.tRem.toInt - p) }, rfl⟩
  · rw [tmrAction_keeps]
    exact ⟨{ tmrAction { s with tRem := BitVec.ofInt 32 (s.tRem.toInt - p) } with
      tRem := BitVec.ofInt 32 (s.tRem.toInt - p), tArm := false }, rfl⟩

/-- Every operation that completes writes registers of its footprint only (R46). -/
theorem exec_footprint {i : Instr} {s t : State} (h : exec i s = .next t) : t = footprint i s t := by
  cases i with
  | reset seed | cmdByte b => rfl
  | schedTick =>
    obtain ⟨u, int, perr, pout, env, ui, rpm, e, -⟩ := schedTick_effect s
    rw [e] at h
    obtain ⟨w, rfl⟩ := tmrTick_keeps h
    rfl
  | filtInit v | filtUpd v | pidSetkp v | pidSetki v | pidSetkd v | pidOn | pidOff | tmrAbort =>
    injection h with h
    rw [← h]; rfl
  | pidSetsp v =>
    injection h with h
    cases hv : setpointAccepted v with
    | true => rw [← h, pidSetsp_accepted s hv]; rfl
    | false => rw [← h, pidSetsp_rejected s hv]; rfl
  | pidUpd m =>
    injection h with h
    obtain ⟨int, perr, pout, env, e, -⟩ := pidUpd_state m s
    rw [← h, e]; rfl
  | tmrStart d act =>
    obtain ⟨-, rfl⟩ := tmrStart_cases h
    rfl
  | tmrTick p =>
    obtain ⟨w, rfl⟩ := tmrTick_keeps h
    rfl
  | tmrGetrem =>
    change execTmrGetrem s = _ at h
    rw [execTmrGetrem] at h
    split at h
    · injection h with h
      rw [← h]; rfl
    · cases h
  | qTemp => exact query_keeps (code := Ascii.t) rfl h
  | qCool => exact query_keeps (code := Ascii.c) rfl h
  | qHeat => exact query_keeps (code := Ascii.a) rfl h
  | qKp => exact query_keeps (code := Ascii.p) rfl h
  | qKi => exact query_keeps (code := Ascii.i) rfl h
  | qKd => exact query_keeps (code := Ascii.d) rfl h
  | qOnoff => exact query_keeps (code := Ascii.s) rfl h
  | qSp => exact query_keeps (code := Ascii.g) rfl h
  | qRpm => exact query_keeps (code := Ascii.r) rfl h
  | qTimer => exact query_keeps (code := Ascii.m) rfl h
  | aSp value => obtain rfl | ⟨v, -, rfl⟩ := aSp_effect h <;> rfl
  | aKi value => obtain ⟨v, rfl⟩ := aKi_effect h; rfl
  | aKp value => obtain ⟨v, rfl⟩ := aKp_effect h; rfl
  | aKd value => obtain ⟨v, rfl⟩ := aKd_effect h; rfl
  | aCool value => obtain ⟨-, rfl | ⟨v, -, -, rfl⟩⟩ := aCool_effect h <;> rfl
  | aHeat value => obtain ⟨-, rfl | ⟨v, -, -, rfl⟩⟩ := aHeat_effect h <;> rfl
  | aOnoff value => obtain rfl | ⟨v, ⟨-, rfl⟩ | ⟨-, rfl⟩ | rfl⟩ := aOnoff_effect h <;> rfl
  | aTact value => obtain rfl | ⟨v, b, rfl⟩ := aTact_effect h <;> rfl
  | aTdur value => obtain ⟨-, rfl | ⟨v, -, rfl⟩⟩ := aTdur_effect h <;> rfl
  | aTrun value =>
    obtain rfl | ⟨v, ⟨u, hu, rfl⟩ | rfl⟩ := aTrun_effect h
    · rfl
    · obtain ⟨-, rfl⟩ := tmrStart_cases hu
      rfl
    · rfl
  | aUnlock value => obtain rfl | ⟨v, -, rfl⟩ := aUnlock_effect h <;> rfl

/-!
PROOFS. The statements of 20_memory.md: which operations change the filter and the readings, the tunables, the timer and
the parser (R46). What an operation keeps is read off its footprint.
-/

/-- `s` and `t` agree on the filter, the divider and the tachometer reading. -/
def KeepsFilterAndReadings (s t : State) : Prop :=
  (t.fOut = s.fOut ∧ t.sDiv = s.sDiv ∧ t.rRpm = s.rRpm) ∧ t.fEma = s.fEma ∧ t.fDbase = s.fDbase ∧ t.fDema = s.fDema

/-- No operation with a frame writes the filter, the divider or the reading (R46). -/
theorem frame_keepsFilterAndReadings {i : Instr} {f : List Byte} {s t : State} (hi : encode i = some f)
    (h : exec i s = .next t) : KeepsFilterAndReadings s t := by
  rw [exec_footprint h]
  cases i with
  | reset _ | schedTick | cmdByte _ | filtInit _ | filtUpd _ => cases hi
  | _ => exact ⟨⟨rfl, rfl, rfl⟩, rfl, rfl, rfl⟩

/-- Nor does a byte: it writes the parser's registers or runs the operation of a frame (R192). -/
theorem cmdByte_keepsFilterAndReadings {b : Byte} {s t : State} (h : exec (.cmdByte b) s = .next t) :
    KeepsFilterAndReadings s t := by
  obtain hport | ⟨-, i, hi, ⟨-, hq⟩ | ⟨-, ha⟩⟩ := cmdByte_effect h
  · rw [hport]
    exact ⟨⟨rfl, rfl, rfl⟩, rfl, rfl, rfl⟩
  · exact frame_keepsFilterAndReadings (s := toIdle s) (queryOf_spec hq).2 hi
  · exact frame_keepsFilterAndReadings (s := toIdle s) (assignOf_spec ha).2 hi

/-- Settles O21: a byte by the frame it may complete, every other operation by its footprint. -/
theorem filterAndReadingsChangeOnlyByTheirWriters : Obligations.FilterAndReadingsChangeOnlyByTheirWriters := by
  intro i s t h hreset htick
  cases i with
  | reset seed => exact absurd rfl (hreset seed)
  | schedTick => exact absurd rfl htick
  | cmdByte b =>
    obtain ⟨⟨hout, hdiv, hrpm⟩, hacc⟩ := cmdByte_keepsFilterAndReadings h
    exact ⟨hout, hdiv, hrpm, fun _ _ => hacc⟩
  | filtInit v =>
    rw [exec_footprint h]
    exact ⟨rfl, rfl, rfl, fun hinit _ => absurd rfl (hinit v)⟩
  | filtUpd v =>
    rw [exec_footprint h]
    exact ⟨rfl, rfl, rfl, fun _ hupd => absurd rfl (hupd v)⟩
  | _ =>
    rw [exec_footprint h]
    exact ⟨rfl, rfl, rfl, fun _ _ => ⟨rfl, rfl, rfl⟩⟩

/-- Settles O22. A footprint holds a tunable of the new state only under the tunable's own setter and assignment, which
the statement leaves out. -/
theorem tunablesChangeOnlyByTheirWriters : Obligations.TunablesChangeOnlyByTheirWriters := by
  intro i s t h hreset hbyte
  rw [exec_footprint h]
  cases i with
  | reset seed => exact absurd rfl (hreset seed)
  | cmdByte b => exact absurd rfl (hbyte b)
  | pidSetkp v | aKp v | pidSetki v | aKi v | pidSetkd v | aKd v | pidSetsp v | aSp v | aTdur v | aTact v =>
    simp [footprint, withController, withOwn]
  | _ => exact ⟨fun _ _ => rfl, fun _ _ => rfl, fun _ _ => rfl, fun _ _ => rfl, fun _ => rfl, fun _ => rfl⟩

/-- Settles O23. No footprint but those of `RESET` and `CMD.BYTE` holds a parser register of the new state, and a timer
register only under the operations the statement leaves out. -/
theorem timerAndParserChangeOnlyByTheirWriters : Obligations.TimerAndParserChangeOnlyByTheirWriters := by
  intro i s t h hreset hbyte
  rw [exec_footprint h]
  cases i with
  | reset seed => exact absurd rfl (hreset seed)
  | cmdByte b => exact absurd rfl (hbyte b)
  | aTrun v => exact ⟨⟨rfl, rfl, rfl, rfl⟩, fun hrun _ => absurd rfl (hrun v)⟩
  | tmrStart d a => exact ⟨⟨rfl, rfl, rfl, rfl⟩, fun _ hstart => absurd rfl (hstart d a)⟩
  | schedTick => exact ⟨⟨rfl, rfl, rfl, rfl⟩, fun _ _ => ⟨rfl, fun htick _ => absurd rfl htick⟩⟩
  | tmrTick p => exact ⟨⟨rfl, rfl, rfl, rfl⟩, fun _ _ => ⟨rfl, fun _ htick => absurd rfl (htick p)⟩⟩
  | tmrAbort =>
    exact ⟨⟨rfl, rfl, rfl, rfl⟩, fun _ _ => ⟨rfl, fun _ _ => ⟨rfl, fun habort => absurd rfl habort⟩⟩⟩
  | _ => exact ⟨⟨rfl, rfl, rfl, rfl⟩, fun _ _ => ⟨rfl, fun _ _ => ⟨rfl, fun _ => rfl⟩⟩⟩

end Sys2Proof.Machine

/-!
PROOFS. The statements of 40_filter.md: the recurrence of the filter, NaN and infinity in its accumulators, and its
determinism. First the arithmetic of an infinity with a finite value, then what one accumulator's recurrence answers.
-/

namespace Sys2Proof.F64

/-- An infinity absorbs a finite addend. -/
theorem inf_add_of_finite {neg : Bool} {b : F64} (hb : b.isFinite = true) : add (inf neg) b = inf neg := by
  simp [add, addOr, finite_not_nan hb, finite_not_inf hb]

/-- The difference of two infinities of one sign is a NaN. -/
theorem isNaN_inf_sub_inf (neg : Bool) : (sub (inf neg) (inf neg)).isNaN = true := by
  simp [sub, addOr]

end Sys2Proof.F64

namespace Sys2Proof.Machine

/-! ### The constants of the recurrence -/

theorem beta_eq_ofRatio : Param.beta = F64.ofRatio 1 10 := by decide +kernel
theorem one_eq_ofRatio : Param.one = F64.ofRatio 1 1 := by decide +kernel
theorem two_eq_ofRatio : Param.two = F64.ofRatio 2 1 := by decide +kernel

theorem omb_eq_bits : omb = ⟨0x3FECCCCCCCCCCCCD⟩ := by decide +kernel

theorem beta_mul_inf : F64.mul Param.beta (F64.inf false) = F64.inf false := by decide +kernel
theorem two_mul_inf : F64.mul Param.two (F64.inf false) = F64.inf false := by decide +kernel

/-- `1.0 - BETA` is below one, so it takes no finite accumulator to an infinity. -/
theorem isFinite_omb_mul {acc : F64} (h : acc.isFinite = true) : (F64.mul omb acc).isFinite = true := by
  rw [omb_eq_bits]
  exact F64.isFinite_mul_of_le_one (by decide) h (by decide +kernel)

/-! ### One accumulator -/

theorem smooth_eq_ofRatio (input acc : F64) : smooth input acc =
    F64.add (F64.mul (F64.ofRatio 1 10) input) (F64.mul (F64.sub (F64.ofRatio 1 1) (F64.ofRatio 1 10)) acc) := by
  rw [smooth, omb, beta_eq_ofRatio, one_eq_ofRatio]

theorem isNaN_smooth {input acc : F64} (h : input.isNaN = true ∨ acc.isNaN = true) :
    (smooth input acc).isNaN = true :=
  F64.isNaN_add_of_nan (h.imp (fun hi => F64.isNaN_mul_of_nan (.inr hi)) (fun ha => F64.isNaN_mul_of_nan (.inr ha)))

theorem not_isFinite_smooth {input acc : F64} (h : acc.isFinite = false) : (smooth input acc).isFinite = false :=
  F64.not_isFinite_add (.inr (F64.not_isFinite_mul (.inr h)))

theorem smooth_inf_of_finite {acc : F64} (h : acc.isFinite = true) : smooth (F64.inf false) acc = F64.inf false := by
  rw [smooth, beta_mul_inf, F64.inf_add_of_finite (isFinite_omb_mul h)]

/-! ### The operation -/

/-- `FILT.UPD` completes and leaves its answer in `res`. -/
theorem exec_filtUpd (sample : F64) (s : State) :
    exec (.filtUpd sample) s = .next (answer (.real (filtUpd sample s).1) (filtUpd sample s).2) := rfl

/-- Settles O25: the parameters are the roundings of their decimals, and with them the recurrence is R101's. -/
theorem filterFollowsItsRecurrence : Obligations.FilterFollowsItsRecurrence := by
  refine ⟨fun initial s => rfl, ?_, ?_⟩
  · rw [← one_eq_ofRatio, ← beta_eq_ofRatio]
    exact omb_eq_bits
  · intro sample s _ ema dbase dema y homb hema hdbase hdema hy
    rw [homb, ← smooth_eq_ofRatio] at hema hdbase hdema
    rw [exec_filtUpd, filtUpd_fst, filtUpd_snd, two_eq_ofRatio, ← hdbase, ← hdema, ← hema, ← hy]
    rfl

/-- A NaN in the sample, or in every accumulator, is in every accumulator and in the answer after it (R103 item 1). -/
theorem filtUpd_nan {sample : F64} {s : State}
    (h : sample.isNaN = true ∨ (s.fEma.isNaN = true ∧ s.fDbase.isNaN = true ∧ s.fDema.isNaN = true)) :
    (filtUpd sample s).1.isNaN = true ∧ (filtUpd sample s).2.fEma.isNaN = true ∧
      (filtUpd sample s).2.fDbase.isNaN = true ∧ (filtUpd sample s).2.fDema.isNaN = true := by
  have hema : (smooth sample s.fEma).isNaN = true := isNaN_smooth (h.imp_right fun ⟨he, _, _⟩ => he)
  have hdbase : (smooth sample s.fDbase).isNaN = true := isNaN_smooth (h.imp_right fun ⟨_, hd, _⟩ => hd)
  have hdema : (smooth (smooth sample s.fDbase) s.fDema).isNaN = true := isNaN_smooth (.inl hdbase)
  rw [filtUpd_fst, filtUpd_snd]
  exact ⟨F64.isNaN_sub_of_nan (.inr hdema), hema, hdbase, hdema⟩

/-- On finite accumulators +infinity reaches all three, and the answer is `inf - inf` (R103 item 2). -/
theorem filtUpd_inf {s : State} (hema : s.fEma.isFinite = true) (hdbase : s.fDbase.isFinite = true)
    (hdema : s.fDema.isFinite = true) :
    (filtUpd (F64.inf false) s).1.isNaN = true ∧ (filtUpd (F64.inf false) s).2 =
      { s with fEma := F64.inf false, fDbase := F64.inf false, fDema := F64.inf false } := by
  rw [filtUpd_fst, filtUpd_snd, smooth_inf_of_finite hema, smooth_inf_of_finite hdbase, smooth_inf_of_finite hdema,
    two_mul_inf]
  exact ⟨F64.isNaN_inf_sub_inf false, rfl⟩

/-- Settles O26: a NaN passes through every sum and product, an infinite `BETA*sample` outweighs the finite rest, and no
product with an accumulator that is not finite is finite. -/
theorem filterNaNPersists : Obligations.FilterNaNPersists := by
  refine ⟨fun sample s h => ?_, fun s hema hdbase hdema => ?_, fun sample s => ?_⟩
  · obtain ⟨hy, haccs⟩ := filtUpd_nan h
    exact ⟨_, _, exec_filtUpd sample s, rfl, hy, haccs⟩
  · have hinf : (⟨0x7FF0000000000000⟩ : F64) = F64.inf false := by decide
    rw [hinf]
    obtain ⟨hy, ht⟩ := filtUpd_inf hema hdbase hdema
    refine ⟨_, _, exec_filtUpd _ s, rfl, hy, ?_⟩
    rw [ht]
    exact ⟨rfl, rfl, rfl⟩
  · refine ⟨_, exec_filtUpd sample s, ?_⟩
    rw [filtUpd_snd]
    exact ⟨not_isFinite_smooth, not_isFinite_smooth, not_isFinite_smooth⟩

/-- Settles O27, by induction on the samples: the first sample leaves the two states with equal answers and equal
accumulators, which is what the rest of the samples needs. -/
theorem filterOutputIsAFunctionOfSeedAndSamples : Obligations.FilterOutputIsAFunctionOfSeedAndSamples := by
  intro samples
  induction samples with
  | nil =>
    intro s s' hema hdbase hdema
    exact ⟨s, s', rfl, rfl, fun h => h.resolve_left (· rfl), hema, hdbase, hdema⟩
  | cons x xs ih =>
    intro s s' hema hdbase hdema
    have hy : (filtUpd x s).1 = (filtUpd x s').1 := by rw [filtUpd_fst, filtUpd_fst, hdbase, hdema]
    obtain ⟨t, t', ht, ht', hres, haccs⟩ :=
      ih (answer (.real (filtUpd x s).1) (filtUpd x s).2) (answer (.real (filtUpd x s').1) (filtUpd x s').2)
        (by simp [hema]) (by simp [hdbase]) (by simp [hdbase, hdema])
    rw [List.map_cons, execAll_of_next (exec_filtUpd x s), execAll_of_next (exec_filtUpd x s')]
    exact ⟨t, t', ht, ht', fun _ => hres (.inr (congrArg Result.real hy)), haccs⟩

end Sys2Proof.Machine

/-!
PROOFS. The statements of 41_pid.md: the setpoint and its range, the gains, on and off, and the six steps of an update.
First the bounds by their decimals, then what the clamp and the update answer.
-/

namespace Sys2Proof.Machine

/-! ### The bounds -/

theorem spMin_eq_ofRatio : Param.spMin = F64.ofRatio 23 1 := by decide +kernel
theorem spMax_eq_ofRatio : Param.spMax = F64.ofRatio 74 1 := by decide +kernel
theorem outMax_eq_ofRatio : Param.outMax = F64.ofRatio 100 1 := by decide +kernel
theorem zero_eq_bits : Param.zero = ⟨0⟩ := rfl

theorem setpointAccepted_iff (v : F64) :
    setpointAccepted v = true ↔ F64.le (F64.ofRatio 23 1) v = true ∧ F64.le v (F64.ofRatio 74 1) = true := by
  rw [setpointAccepted, spMin_eq_ofRatio, spMax_eq_ofRatio, Bool.and_eq_true]

theorem gateOpen_iff (p : F64) :
    gateOpen p = true ↔ F64.le ⟨0⟩ p = true ∧ F64.lt p (F64.ofRatio 100 1) = true := by
  rw [gateOpen, zero_eq_bits, outMax_eq_ofRatio, Bool.and_eq_true]

theorem inOutRange_iff (u : F64) :
    inOutRange u = true ↔ F64.le ⟨0⟩ u = true ∧ F64.le u (F64.ofRatio 100 1) = true := by
  rw [inOutRange, zero_eq_bits, outMax_eq_ofRatio, Bool.and_eq_true]

/-- A NaN is no setpoint: it compares with neither bound (R129). -/
theorem setpointAccepted_nan {v : F64} (h : v.isNaN = true) : setpointAccepted v = false := by
  simp [setpointAccepted, F64.le, h]

/-! ### The setpoint -/

/-- `PID.SETSP` completes and leaves its answer in `res`. -/
theorem exec_pidSetsp (v : F64) (s : State) :
    exec (.pidSetsp v) s = .next (answer (.accepted (pidSetsp v s).1) (pidSetsp v s).2) := rfl

theorem exec_pidSetsp_rejected {v : F64} (s : State) (h : setpointAccepted v = false) :
    exec (.pidSetsp v) s = .next { s with res := .accepted false } := by
  rw [exec_pidSetsp, pidSetsp_rejected s h]
  rfl

/-- Settles O28: the statement's range is the model's test, and a NaN fails the test. -/
theorem pidSetspAcceptsOnlyItsRange : Obligations.PidSetspAcceptsOnlyItsRange := by
  intro v s
  rw [← setpointAccepted_iff]
  refine ⟨fun hin => ?_, fun hout => ?_, fun hnan => ?_⟩
  · rw [exec_pidSetsp, pidSetsp_accepted s hin]
    rfl
  · exact exec_pidSetsp_rejected s (Bool.eq_false_of_not_eq_true hout)
  · exact exec_pidSetsp_rejected s (setpointAccepted_nan hnan)

/-! ### The gains, on and off -/

/-- Settles O29: each setter is one record update. -/
theorem gainSettersStoreAnyValue : Obligations.GainSettersStoreAnyValue :=
  fun _ _ => ⟨rfl, rfl, rfl⟩

/-- Settles O30: each is one record update, after the event in the case of `PID.OFF`. -/
theorem pidOnClearsAndPidOffForcesZero : Obligations.PidOnClearsAndPidOffForcesZero :=
  fun _ => ⟨rfl, rfl⟩

/-! ### The update -/

/-- On a number `Clamp` answers the bound that the number passes, or else the number itself (R137). -/
theorem clamp_fst_of_not_nan {raw : F64} (s : State) (h : raw.isNaN = false) : (clamp raw s).1 =
    if F64.lt raw ⟨0⟩ = true then ⟨0⟩
    else if F64.lt (F64.ofRatio 100 1) raw = true then F64.ofRatio 100 1 else raw := by
  rw [clamp, h, if_neg Bool.false_ne_true, zero_eq_bits, outMax_eq_ofRatio, apply_ite Prod.fst, apply_ite Prod.fst]

/-- `PID.UPD` completes and leaves its answer in `res`. -/
theorem exec_pidUpd (m : F64) (s : State) :
    exec (.pidUpd m) s = .next (answer (.real (pidUpd m s).1) (pidUpd m s).2) := rfl

/-- An enabled update: the three registers of R136, the count of draws on a NaN, and the clamp as the answer. -/
theorem exec_pidUpd_enabled {s : State} (m : F64) (h : s.pEn = true) : exec (.pidUpd m) s = .next
    { s with
      pInt := pidIntegral m s, pPerr := pidError m s, pPout := pidRaw m s,
      env := if (pidRaw m s).isNaN then { s.env with draws := s.env.draws + 1 } else s.env,
      res := .real (pidUpd m s).1 } := by
  rw [exec_pidUpd, pidUpd_enabled m h, clamp_state]
  rfl

/-- Settles O31: the statement's gate, error, integral and raw output are the model's; the clamp of a NaN is a value of
the range, and that of a number is the statement's. -/
theorem pidUpdFollowsItsSteps : Obligations.PidUpdFollowsItsSteps := by
  refine ⟨fun m s hoff => ?_, fun m s hon e int d raw he hint hd hraw => ?_⟩
  · rw [exec_pidUpd, pidUpd_disabled m hoff]
    rfl
  · have herr : e = pidError m s := he
    have hintegral : int = pidIntegral m s := by simp only [hint, herr, pidIntegral, gateOpen_iff]
    have hout : raw = pidRaw m s := by rw [hraw, hd, hintegral, herr, pidRaw]
    rw [herr, hintegral, hout]
    refine ⟨_, _, exec_pidUpd_enabled m hon, fun hnan => ?_, fun hnum => ?_⟩
    · obtain ⟨h0, h100⟩ := (inOutRange_iff _).1 (pidUpd_inRange m s)
      exact ⟨h0, h100, if_pos hnan⟩
    · rw [pidUpd_enabled m hon]
      exact ⟨if_neg (by simp [hnum]), clamp_fst_of_not_nan _ hnum⟩

end Sys2Proof.Machine

/-!
PROOFS. The statements of 42_timer.md: a tick in every case of R165, the disarmed timer, and the remaining time.
-/

namespace Sys2Proof.Machine

/-! ### The tick -/

/-- A period outside its range is refused (U6). -/
theorem exec_tmrTick_refused {p : Int} (s : State) (hp : periodInDomain p = false) :
    exec (.tmrTick p) s = .refused .periodDomain := if_pos hp

/-- The case split of R165, for the counts that an armed timer holds (R27). -/
theorem exec_tmrTick_eq {p : Int} {s : State} (hp : periodInDomain p = true)
    (hs : s.tArm = true → 0 ≤ s.tRem.toInt) : exec (.tmrTick p) s =
      if s.tArm = false then .next s
      else if s.tRem.toInt - p ≤ 0 then
        .next { tmrAction { s with tRem := BitVec.ofInt 32 (s.tRem.toInt - p) } with tArm := false }
      else .next { s with tRem := BitVec.ofInt 32 (s.tRem.toInt - p) } := by
  change tmrTick p s = _
  rw [tmrTick, if_neg (by simp [hp])]
  by_cases harm : s.tArm = false
  · rw [if_pos harm, if_pos harm]
  · have hcount := hs (Bool.eq_true_of_not_eq_false harm)
    have hperiod := (periodInDomain_iff p).1 hp
    rw [if_neg harm, if_neg harm, if_neg (by omega)]

/-- A tick of a disarmed timer changes nothing, whatever the stale count. -/
theorem exec_tmrTick_disarmed {p : Int} {s : State} (hp : periodInDomain p = true) (harm : s.tArm = false) :
    exec (.tmrTick p) s = .next s := by
  rw [exec_tmrTick_eq hp (by simp [harm]), if_pos harm]

/-- An armed timer with more left than a period counts down. -/
theorem exec_tmrTick_counts {p : Int} {s : State} (hp : periodInDomain p = true) (harm : s.tArm = true)
    (hcount : 0 ≤ s.tRem.toInt) (hleft : 0 < s.tRem.toInt - p) :
    exec (.tmrTick p) s = .next { s with tRem := BitVec.ofInt 32 (s.tRem.toInt - p) } := by
  rw [exec_tmrTick_eq hp fun _ => hcount, if_neg (by simp [harm]), if_neg (by omega)]

/-- An armed timer with no more left than a period runs its action, which leaves some state `u`, and disarms. -/
theorem exec_tmrTick_fires {p : Int} {s u : State} (hp : periodInDomain p = true) (harm : s.tArm = true)
    (hcount : 0 ≤ s.tRem.toInt) (hdue : s.tRem.toInt - p ≤ 0)
    (hu : tmrAction { s with tRem := BitVec.ofInt 32 (s.tRem.toInt - p) } = u) :
    exec (.tmrTick p) s = .next { u with tArm := false } := by
  rw [exec_tmrTick_eq hp fun _ => hcount, if_neg (by simp [harm]), if_pos hdue, hu]

theorem tmrAction_turnOff {s : State} (hact : s.tAct = false) : tmrAction s = pidOff s := if_pos hact

theorem tmrAction_turnOn {s : State} (hact : s.tAct = true) (hoff : s.pEn = false) : tmrAction s = pidOn s := by
  rw [tmrAction, if_neg (by simp [hact]), if_pos hoff]

/-- A turn-on finds the controller running, and keeps its integral and previous error. -/
theorem tmrAction_alreadyOn {s : State} (hact : s.tAct = true) (hon : s.pEn = true) : tmrAction s = s := by
  rw [tmrAction, if_neg (by simp [hact]), if_neg (by simp [hon])]

/-- Settles O36: the difference fits 32 bits, so the statement's count is the model's; a fire is one of the three
actions. -/
theorem tmrTickCountsDownAndFires : Obligations.TmrTickCountsDownAndFires := by
  intro p s
  rw [← periodInDomain_iff]
  refine ⟨fun hout => exec_tmrTick_refused s (Bool.eq_false_of_not_eq_true hout), fun hmin hmax => ?_⟩
  have hp : periodInDomain p = true := (periodInDomain_iff p).2 ⟨hmin, hmax⟩
  refine ⟨exec_tmrTick_disarmed hp, fun harm hcount => ⟨BitVec.ofInt 32 (s.tRem.toInt - p), ?_⟩⟩
  have hfits : (BitVec.ofInt 32 (s.tRem.toInt - p)).toInt = s.tRem.toInt - p :=
    toInt_ofInt32 _ (by omega) (by have := s.tRem.toInt_lt; omega)
  rw [hfits]
  refine ⟨rfl, exec_tmrTick_counts hp harm hcount, fun hdue hact => ?_, fun hdue hact hoff => ?_,
    fun hdue hact hon => ?_⟩
  · exact exec_tmrTick_fires hp harm hcount hdue (tmrAction_turnOff hact)
  · exact exec_tmrTick_fires hp harm hcount hdue (tmrAction_turnOn hact hoff)
  · exact exec_tmrTick_fires hp harm hcount hdue (tmrAction_alreadyOn hact hon)

/-! ### The abort -/

theorem exec_tmrAbort (s : State) : exec .tmrAbort s = .next { s with tArm := false } := rfl

/-- Disarmed is a fixed point of the tick, so it is one of any number of ticks (R167). -/
theorem execAll_tmrTick_disarmed {p : Int} {s : State} (hp : periodInDomain p = true) (harm : s.tArm = false)
    (k : Nat) : execAll (List.replicate k (.tmrTick p)) s = .next s := by
  induction k with
  | zero => rfl
  | succ k ih => rw [List.replicate_succ, execAll_of_next (exec_tmrTick_disarmed hp harm), ih]

/-- Settles O38: an abort leaves a disarmed timer, which no tick fires. -/
theorem abortedTimerNeverFires : Obligations.AbortedTimerNeverFires := by
  have hticks (k : Nat) (p : Int) (s : State) (hmin : 1 ≤ p) (hmax : p ≤ 2 ^ 31 - 1) (harm : s.tArm = false) :
      execAll (List.replicate k (.tmrTick p)) s = .next s :=
    execAll_tmrTick_disarmed ((periodInDomain_iff p).2 ⟨hmin, hmax⟩) harm k
  refine ⟨exec_tmrAbort, hticks, fun k p s hmin hmax => ?_⟩
  rw [execAll_of_next (exec_tmrAbort s)]
  exact hticks k p _ hmin hmax rfl

/-! ### The remaining time -/

theorem tmrGetrem_disarmed {s : State} (harm : s.tArm = false) : tmrGetrem s = .ok 0 := if_pos harm

theorem tmrGetrem_armed {s : State} (harm : s.tArm = true) (hcount : 0 ≤ s.tRem.toInt) :
    tmrGetrem s = .ok s.tRem := by
  rw [tmrGetrem, if_neg (by simp [harm]), if_neg (by omega)]

theorem tmrGetrem_negative {s : State} (harm : s.tArm = true) (hneg : s.tRem.toInt < 0) :
    tmrGetrem s = .error .timerNegative := by
  rw [tmrGetrem, if_neg (by simp [harm]), if_pos hneg]

/-- `TMR.GETREM` leaves its count in `res`. -/
theorem exec_tmrGetrem_ok {s : State} {n : BitVec 32} (h : tmrGetrem s = .ok n) :
    exec .tmrGetrem s = .next { s with res := .remaining n } := by
  change execTmrGetrem s = _
  rw [execTmrGetrem, h]; rfl

/-- `TMR.GETREM` raises what it ran into. -/
theorem exec_tmrGetrem_error {s : State} {why : Unreachable} (h : tmrGetrem s = .error why) :
    exec .tmrGetrem s = .fault (.unreachable why) := by
  change execTmrGetrem s = _
  rw [execTmrGetrem, h]; rfl

/-- Settles O39: a count of at least 0 is the same number signed and unsigned, so the word itself is the answer. -/
theorem tmrGetremReportsTheCount : Obligations.TmrGetremReportsTheCount := by
  intro s
  refine ⟨fun harm => ?_, fun harm hcount => ⟨s.tRem, ?_, ?_⟩, fun harm hneg => ?_⟩
  · exact exec_tmrGetrem_ok (tmrGetrem_disarmed harm)
  · have hmsb : s.tRem.msb = false := by rw [BitVec.msb_eq_toInt]; simpa using hcount
    exact (BitVec.toInt_eq_toNat_of_msb hmsb).symm
  · exact exec_tmrGetrem_ok (tmrGetrem_armed harm hcount)
  · exact exec_tmrGetrem_error (tmrGetrem_negative harm hneg)

end Sys2Proof.Machine

/-!
PROOFS. The statements of 43_command_port.md: the transition table of the parser, the register queries, and the
setpoint, gain, duty and unlock assignments. First the two code sets and the value bytes by their numbers.
-/

namespace Sys2Proof

/-! ### The byte classes -/

/-- The Get code set (R72). -/
theorem isSome_queryOf_iff (b : Byte) :
    (queryOf b).isSome = true ↔ b ∈ [0x74, 0x63, 0x61, 0x70, 0x69, 0x64, 0x73, 0x67, 0x72, 0x6D] := by
  simp only [queryOf, apply_ite Option.isSome, Option.isSome_some, Option.isSome_none, Bool.if_true_left,
    Bool.or_eq_true, decide_eq_true_eq, List.mem_cons, List.not_mem_nil, Bool.false_eq_true]
  rfl

/-- The Set code set (R73). -/
theorem isSome_assignOf_iff (b : Byte) (value : List Byte) :
    (assignOf b value).isSome = true ↔ b ∈ [0x74, 0x69, 0x63, 0x61, 0x70, 0x64, 0x73, 0x62, 0x6E, 0x6D, 0x6B] := by
  simp only [assignOf, apply_ite Option.isSome, Option.isSome_some, Option.isSome_none, Bool.if_true_left,
    Bool.or_eq_true, decide_eq_true_eq, List.mem_cons, List.not_mem_nil, Bool.false_eq_true]
  rfl

theorem isValueByte_iff (b : Byte) :
    Ascii.isValueByte b = true ↔ (0x30 ≤ b.toNat ∧ b.toNat ≤ 0x39) ∨ b = 0x2C := by
  simp [Ascii.isValueByte, Ascii.isDigit, Ascii.digit0, Ascii.digit9, Ascii.comma]

/-! ### Parsed and formatted numbers -/

theorem F64.isNaN_ofRatio (n d : Nat) : (ofRatio n d).isNaN = false := isNaN_roundUnits _ _ _

/-- A parsed value is never a NaN (R75). -/
theorem Text.isNaN_textToFloat (chars : List Byte) : (textToFloat chars).isNaN = false := F64.isNaN_ofRatio _ _

/-- An acknowledged setpoint stands in its line (R206). -/
theorem Text.realField_isInfix_ackText (v : F64) : realField Ascii.t v <:+: ackText Ascii.t v :=
  ⟨ascii (Config.setpointAckLead v), ascii (Config.setpointAckTail v), (if_pos rfl).symm⟩

/-- A setpoint is formatted with a fraction (R206, D23). -/
theorem Text.one_le_fmtF_t : 1 ≤ fmtF Ascii.t := Nat.le_add_left 1 _

namespace Machine

/-! ### The parser, state by state -/

/-- A SENTINEL restarts the parser from every state (R191). -/
theorem exec_cmdByte_sentinel (s : State) : exec (.cmdByte Ascii.sentinel) s = .next { s with cState := .ready } := by
  change execCmdByte Ascii.sentinel s = _
  rw [execCmdByte, if_pos rfl]

theorem toIdle_of_idle {s : State} (h : s.cState = .idle) : toIdle s = s := by
  rw [toIdle, ← h]

theorem parserStep_idle {s : State} (b : Byte) (h : s.cState = .idle) : parserStep b s = .next s := by
  simp only [parserStep, h, toIdle_of_idle h]

theorem parserStep_ready {s : State} (b : Byte) (h : s.cState = .ready) : parserStep b s =
    .next { s with cState := if b = Ascii.g then .get else if b = Ascii.s then .set else .idle } := by
  simp only [parserStep, h]
  split_ifs <;> rfl

theorem parserStep_get {s : State} (b : Byte) (h : s.cState = .get) : parserStep b s =
    if (queryOf b).isSome then .next { s with cCode := b, cState := .param } else .next (toIdle s) := by
  simp only [parserStep, h]

theorem parserStep_set {s : State} (b : Byte) (h : s.cState = .set) : parserStep b s =
    if (assignOf b []).isSome then .next { s with cCode := b, cLen := 0, cState := .value }
    else .next (toIdle s) := by
  simp only [parserStep, h]

theorem parserStep_param {s : State} (b : Byte) (h : s.cState = .param) : parserStep b s =
    if b = Ascii.terminator then dispatchQuery s.cCode (toIdle s) else .next (toIdle s) := by
  simp only [parserStep, h]

/-- In the state Value a character is kept or dropped. -/
theorem parserStep_value_char {s : State} {b : Byte} (h : s.cState = .value) (hb : Ascii.isValueByte b = true) :
    parserStep b s = .next (appendChar b s) := by
  simp only [parserStep, h, hb, if_true]

/-- In the state Value a TERMINATOR dispatches, and a byte that is no character either abandons the frame. -/
theorem parserStep_value_end {s : State} {b : Byte} (h : s.cState = .value) (hb : ¬ Ascii.isValueByte b = true) :
    parserStep b s =
      if b = Ascii.terminator then dispatchAssign s.cCode (valueBuffer s) (toIdle s) else .next (toIdle s) := by
  simp only [parserStep, h, if_neg hb]

/-- Settles O44: the statement's bytes are the model's classes, and each clause is a branch of the parser's state. A
TERMINATOR is no character, and the dispatch of a code is the operation of its table. -/
theorem parserFollowsItsTransitionTable : Obligations.ParserFollowsItsTransitionTable := by
  refine ⟨exec_cmdByte_sentinel, fun b s hb => ?_⟩
  rw [cmdByte_of_ne_sentinel s hb, ← isSome_queryOf_iff, ← isSome_assignOf_iff b [], ← isValueByte_iff]
  refine ⟨parserStep_idle b, parserStep_ready b, ?_, ?_, ?_, ?_, ?_, ?_, ?_, ?_, ?_, ?_⟩
  · intro hget hcode
    rw [parserStep_get b hget, if_pos hcode]
  · intro hget hcode
    rw [parserStep_get b hget, if_neg hcode]
    rfl
  · intro hset hcode
    rw [parserStep_set b hset, if_pos hcode]
  · intro hset hcode
    rw [parserStep_set b hset, if_neg hcode]
    rfl
  · intro hparam (hend : b ≠ Ascii.terminator)
    rw [parserStep_param b hparam, if_neg hend]
    rfl
  · intro hparam (hend : b = Ascii.terminator) i hi
    rw [parserStep_param b hparam, if_pos hend]
    exact dispatchQuery_eq _ hi
  · intro hval hchar hroom
    rw [parserStep_value_char hval hchar, appendChar_room b hroom]
    exact ⟨_, rfl, by simp⟩
  · intro hval hchar hfull
    rw [parserStep_value_char hval hchar, appendChar_full b hfull.ge]
  · intro hval (hend : b = Ascii.terminator) i hi
    rw [parserStep_value_end hval fun hchar => ne_terminator_of_isValueByte hchar hend, if_pos hend]
    exact dispatchAssign_eq _ hi
  · intro hval hchar (hend : b ≠ Ascii.terminator)
    rw [parserStep_value_end hval hchar, if_neg hend]
    rfl

/-! ### The register queries -/

/-- A query of a real register emits one line, which contains the formatted value (R193). -/
theorem queryReal_emits (code : Byte) (x : F64) (s : State) : ∃ text,
    (.next (queryReal code x s) : Outcome) = .next { s with out := s.out ++ [.line text] } ∧
      Text.realField code x <:+: text :=
  ⟨Text.queryText code [.number (Text.realField code x)], rfl,
    Text.number_isInfix_joinFields _ _ _ _ (List.mem_singleton_self _)⟩

/-- Settles O45: the five are the query of a real register, for five codes and registers. -/
theorem registerQueriesEmitOneLine : Obligations.RegisterQueriesEmitOneLine := by
  intro s entry hentry
  simp only [List.mem_cons, List.not_mem_nil, or_false] at hentry
  obtain rfl | rfl | rfl | rfl | rfl := hentry
  · exact queryReal_emits Ascii.t s.fOut s
  · exact queryReal_emits Ascii.p s.pKp s
  · exact queryReal_emits Ascii.i s.pKi s
  · exact queryReal_emits Ascii.d s.pKd s
  · exact queryReal_emits Ascii.g s.pSp s

/-! ### The tests of a parsed value -/

/-- On a number the range of a setpoint is the complement of the two strict comparisons outside it. -/
theorem setpointAccepted_iff_not_lt {v : F64} (h : v.isNaN = false) :
    setpointAccepted v = true ↔ F64.lt v (F64.ofRatio 23 1) = false ∧ F64.lt (F64.ofRatio 74 1) v = false := by
  rw [setpointAccepted_iff, ← Bool.not_eq_true (F64.lt v _), ← Bool.not_eq_true (F64.lt _ v),
    ← F64.le_eq_false_iff_lt (F64.isNaN_ofRatio 23 1) h, ← F64.le_eq_false_iff_lt h (F64.isNaN_ofRatio 74 1),
    Bool.not_eq_false, Bool.not_eq_false]

theorem coolerAccepted_eq (v : F64) : coolerAccepted v = F64.le v (F64.ofRatio 1 1) := by
  rw [coolerAccepted, show Param.coolerMax = F64.ofRatio 1 1 from one_eq_ofRatio]

theorem heaterCap_eq_ofRatio : Param.heaterCap = F64.ofRatio 1 2 := by decide +kernel

theorem heaterAccepted_eq (v : F64) : heaterAccepted v = F64.le v (F64.ofRatio 1 2) := by
  rw [heaterAccepted, heaterCap_eq_ofRatio]

/-! ### The assignments -/

/-- An acknowledgement stands in the trace after the event that it acknowledges. -/
theorem acknowledge_emit_eq (code : Byte) (v : F64) (e : OutEvent) (s : State) :
    acknowledge code v (emit e s) = { s with out := s.out ++ [e, .line (Text.ackText code v)] } := by
  simp [acknowledge_eq]

section
variable {value : List Byte} {v : F64} (s : State) (hvalue : value.all Ascii.isValueByte = true)
  (hv : v = Text.textToFloat (value.take 7))
include hvalue hv

/-- On a value field of digits and commas an assignment is its rule at the parsed value (R204). -/
theorem withValue_parsed (rule : F64 → Outcome) : withValue value rule = rule v := by
  rw [withValue_legal rule hvalue, hv]

theorem exec_aSp_accepted (hin : setpointAccepted v = true) : exec (.aSp value) s =
    .next { s with pSp := v, pInt := Param.zero, out := s.out ++ [.line (Text.ackText Ascii.t v)] } := by
  change execASp value s = _
  rw [execASp, withValue_parsed hvalue hv, pidSetsp_accepted s hin]
  rfl

theorem exec_aSp_rejected (hout : setpointAccepted v = false) : exec (.aSp value) s = .next s := by
  change execASp value s = _
  rw [execASp, withValue_parsed hvalue hv, pidSetsp_rejected s hout]
  rfl

theorem exec_aKi : exec (.aKi value) s = .next (acknowledge Ascii.i v (pidSetki v s)) := by
  change execAKi value s = _
  rw [execAKi, withValue_parsed hvalue hv]

theorem exec_aKp : exec (.aKp value) s = .next (acknowledge Ascii.p v (pidSetkp v s)) := by
  change execAKp value s = _
  rw [execAKp, withValue_parsed hvalue hv]

theorem exec_aKd : exec (.aKd value) s = .next (acknowledge Ascii.d v (pidSetkd v s)) := by
  change execAKd value s = _
  rw [execAKd, withValue_parsed hvalue hv]

theorem exec_aCool : exec (.aCool value) s =
    .next (if coolerAccepted v then acknowledge Ascii.c v (emit (.coolerSet v) s) else s) := by
  change execACool value s = _
  rw [execACool, withValue_parsed hvalue hv]

theorem exec_aHeat : exec (.aHeat value) s =
    .next (if heaterAccepted v then acknowledge Ascii.a v (emit (.heaterSet v) s)
      else emit (.line Text.heaterCapErrText) s) := by
  change execAHeat value s = _
  rw [execAHeat, withValue_parsed hvalue hv]

theorem exec_aUnlock : exec (.aUnlock value) s =
    .next (if s.cUnlock = false && Config.unlockOk v then acknowledge Ascii.k v { s with cUnlock := true } else s) := by
  change execAUnlock value s = _
  rw [execAUnlock, withValue_parsed hvalue hv]

end

/-- Settles O50: the parsed value is a number, so out of range is the negation of in range. -/
theorem setpointAssignmentIsAppliedOrSilent : Obligations.SetpointAssignmentIsAppliedOrSilent := by
  intro value s v hvalue hv
  have hrange := setpointAccepted_iff_not_lt (hv ▸ Text.isNaN_textToFloat _)
  refine ⟨fun hin => ?_, fun hout => ?_⟩
  · exact ⟨exec_aSp_accepted s hvalue hv (hrange.2 hin), Text.realField_isInfix_ackText v, Text.one_le_fmtF_t⟩
  · refine exec_aSp_rejected s hvalue hv (Bool.eq_false_iff.2 fun hin => ?_)
    obtain ⟨hmin, hmax⟩ := hrange.1 hin
    simp [hmin, hmax] at hout

/-- Settles O51: each is one record update and one line. -/
theorem gainAssignmentsAreStoredAndAcknowledged : Obligations.GainAssignmentsAreStoredAndAcknowledged :=
  fun _ s _ hvalue hv => ⟨exec_aKi s hvalue hv, exec_aKp s hvalue hv, exec_aKd s hvalue hv⟩

/-- Settles O52: the caps of the statement are the model's. -/
theorem dutyAssignmentsRespectTheirCaps : Obligations.DutyAssignmentsRespectTheirCaps := by
  intro value s v hvalue hv
  rw [exec_aCool s hvalue hv, exec_aHeat s hvalue hv, acknowledge_emit_eq, acknowledge_emit_eq, coolerAccepted_eq,
    heaterAccepted_eq]
  exact ⟨rfl, rfl⟩

/-- Settles O56: the rule tests the register and the open parameter as one Boolean. -/
theorem unlockAssignmentIsOneShot : Obligations.UnlockAssignmentIsOneShot := by
  intro value s v hvalue hv
  rw [exec_aUnlock s hvalue hv]
  simp only [Bool.and_eq_true, decide_eq_true_eq]
  rfl

end Machine
end Sys2Proof

/-!
PROOFS. The statements of 44_scheduler.md: the order of a tick's tasks, the divider and what runs on it, and the
commands of a tick. First each task by itself, then what the timer at the end of a tick leaves and adds.
-/

namespace Sys2Proof.Machine

/-! ### The tasks before the timer -/

/-- `Clamp` neither reads nor writes `res`. -/
theorem clamp_answer (raw : F64) (r : Result) (s : State) :
    clamp raw (answer r s) = ((clamp raw s).1, answer r (clamp raw s).2) := by
  simp only [clamp]
  split_ifs <;> rfl

/-- Nor does `PID.UPD`. -/
theorem pidUpd_answer (m : F64) (r : Result) (s : State) :
    pidUpd m (answer r s) = ((pidUpd m s).1, answer r (pidUpd m s).2) := by
  cases hen : s.pEn with
  | false => rw [pidUpd_disabled m hen, pidUpd_disabled m (s := answer r s) hen]
  | true =>
    rw [pidUpd_enabled m hen, pidUpd_enabled m (s := answer r s) hen]
    exact clamp_answer (pidRaw m s) r
      { s with pInt := pidIntegral m s, pPerr := pidError m s, pPout := pidRaw m s }

theorem pidUpd_keeps (m : F64) (s : State) : (pidUpd m s).2.sDiv = s.sDiv ∧ (pidUpd m s).2.res = s.res := by
  obtain ⟨int, perr, pout, env, e, -⟩ := pidUpd_state m s
  rw [e]
  exact ⟨rfl, rfl⟩

/-- The control step of a tick, run as an operation on the state with the filter's answer in `res` and in `F_OUT`. -/
theorem exec_pidUpd_filtered (y : F64) (r : Result) (s : State) :
    exec (.pidUpd y) { answer r s with fOut := y } =
      .next (answer (.real (pidUpd y { s with fOut := y }).1) (pidUpd y { s with fOut := y }).2) :=
  (exec_pidUpd y (answer r { s with fOut := y })).trans (by rw [pidUpd_answer]; rfl)

theorem tachTask_due {s : State} (h : s.sDiv = 0) : tachTask s =
    { s with
      rRpm := (drawTachometerRpm s).1,
      env := { s.env with rpms := s.env.rpms.tail, draws := s.env.draws + 1 } } :=
  if_pos (beq_iff_eq.2 h)

theorem tachTask_not_due {s : State} (h : s.sDiv ≠ 0) : tachTask s = s :=
  if_neg fun hdue => h (beq_iff_eq.1 hdue)

theorem uiTask_eq (s : State) :
    uiTask s = if s.sDiv = 0 ∨ s.sDiv = 5 then { s with out := s.out ++ [.uiRefresh] } else s := by
  simp only [uiTask, uiDue, Bool.or_eq_true, beq_iff_eq]
  rfl

/-- A control step keeps the divider, and `res` too: the answers of the operations that it invokes stay within it. -/
theorem controlTask_keeps (s : State) : (controlTask s).sDiv = s.sDiv ∧ (controlTask s).res = s.res :=
  pidUpd_keeps _ _

theorem divideTask_controlTask (s : State) : divideTask (controlTask s) =
    { controlTask s with sDiv := BitVec.ofNat 4 ((s.sDiv.toNat + 1) % 10), res := s.res } := by
  obtain ⟨hdiv, hres⟩ := controlTask_keeps s
  rw [← hdiv, ← hres]
  rfl

/-- Settles O40: the witnesses are the states between the tasks of the model's tick. The controller does not read the
answer that the filter leaves in `res`, and the statement's last update of `res` restores what a control step keeps. -/
theorem schedTickRunsItsTasksInOrder : Obligations.SchedTickRunsItsTasksInOrder := by
  intro s
  refine ⟨(drawTemperature s).1, _, _, (drawTemperature s).2, _, _, divideTask (controlTask s),
    tachTask (divideTask (controlTask s)), uiTask (tachTask (divideTask (controlTask s))), firstAnswer_drawn _ _, rfl,
    exec_filtUpd _ _, rfl, exec_pidUpd_filtered _ _ _, rfl, ?_, ?_, ?_, ?_, execSchedTick_eq s⟩
  · exact divideTask_controlTask s
  · exact fun hdue => ⟨_, firstAnswer_drawn _ (Config.readTachometerRpm _), tachTask_due hdue⟩
  · exact tachTask_not_due
  · exact uiTask_eq _

/-! ### The timer at the end of a tick -/

/-- The action of a fire is no task of the scheduler: it draws nothing and refreshes nothing. -/
theorem tmrAction_frame (s : State) : (tmrAction s).env = s.env ∧ (tmrAction s).sDiv = s.sDiv ∧
    (tmrAction s).rRpm = s.rRpm ∧ (tmrAction s).out.count .uiRefresh = s.out.count .uiRefresh := by
  obtain ⟨-, e⟩ | ⟨-, -, e⟩ | ⟨-, -, e⟩ := tmrAction_cases s
  · rw [e]
    simp
  · rw [e]
    exact ⟨rfl, rfl, rfl, rfl⟩
  · rw [e]
    exact ⟨rfl, rfl, rfl, rfl⟩

/-- Nor does a tick of the timer. -/
theorem tmrTick_frame {p : Int} {s t : State} (h : tmrTick p s = .next t) :
    t.env = s.env ∧ t.sDiv = s.sDiv ∧ t.rRpm = s.rRpm ∧ t.out.count .uiRefresh = s.out.count .uiRefresh := by
  obtain ⟨-, ⟨-, rfl⟩ | ⟨-, -, -, rfl⟩ | ⟨-, -, -, rfl⟩⟩ := tmrTick_cases h
  · exact ⟨rfl, rfl, rfl, rfl⟩
  · exact ⟨rfl, rfl, rfl, rfl⟩
  · exact tmrAction_frame _

/-- An armed timer that has no more than a period left fires. -/
theorem tmrTick_fires {p : Int} {s t : State} (h : tmrTick p s = .next t) (harm : s.tArm = true)
    (hdue : s.tRem.toInt ≤ p) : ∃ count, t = tmrAbort (tmrAction { s with tRem := count }) := by
  obtain ⟨-, ⟨hoff, -⟩ | ⟨-, -, hleft, -⟩ | ⟨-, -, -, e⟩⟩ := tmrTick_cases h
  · simp [harm] at hoff
  · omega
  · exact ⟨_, e⟩

/-- A turn-off fire forces the command to 0.0 and writes it once more (R314). -/
theorem tmrTick_turnsOff {p : Int} {s t : State} (h : tmrTick p s = .next t) (harm : s.tArm = true)
    (hdue : s.tRem.toInt ≤ p) (hact : s.tAct = false) :
    t.out = s.out ++ [.actWrite ⟨0⟩] ∧ t.pEn = false ∧ t.pAct = ⟨0⟩ ∧ t.tArm = false := by
  obtain ⟨count, rfl⟩ := tmrTick_fires h harm hdue
  rw [tmrAction_turnOff (s := { s with tRem := count }) hact]
  exact ⟨rfl, rfl, rfl, rfl⟩

/-- A turn-on fire leaves the controller on and its last command standing (R314). -/
theorem tmrTick_turnsOn {p : Int} {s t : State} (h : tmrTick p s = .next t) (harm : s.tArm = true)
    (hdue : s.tRem.toInt ≤ p) (hact : s.tAct = true) :
    t.out = s.out ∧ t.pEn = true ∧ t.pAct = s.pAct ∧ t.tArm = false := by
  obtain ⟨count, rfl⟩ := tmrTick_fires h harm hdue
  obtain hon | hoff := Bool.eq_false_or_eq_true s.pEn
  · rw [tmrAction_alreadyOn (s := { s with tRem := count }) hact hon]
    exact ⟨rfl, hon, rfl, rfl⟩
  · rw [tmrAction_turnOn (s := { s with tRem := count }) hact hoff]
    exact ⟨rfl, rfl, rfl, rfl⟩

/-- A timer that does not fire leaves the controller alone (R165). -/
theorem tmrTick_waits {p : Int} {s t : State} (h : tmrTick p s = .next t)
    (hwait : ¬ (s.tArm = true ∧ s.tRem.toInt ≤ p)) :
    t.out = s.out ∧ t.pEn = s.pEn ∧ t.pAct = s.pAct ∧ t.tArm = s.tArm := by
  obtain ⟨-, ⟨-, rfl⟩ | ⟨-, -, -, rfl⟩ | ⟨harm, -, hdue, -⟩⟩ := tmrTick_cases h
  · exact ⟨rfl, rfl, rfl, rfl⟩
  · exact ⟨rfl, rfl, rfl, rfl⟩
  · exact absurd ⟨harm, by omega⟩ hwait

/-! ### The divider -/

/-- A tick advances the divider by one, modulo 10 (R251). -/
theorem schedTick_divider {s t : State} (h : exec .schedTick s = .next t) :
    t.sDiv.toNat = (s.sDiv.toNat + 1) % 10 := by
  obtain ⟨u, int, perr, pout, env, ui, rpm, e, -⟩ := schedTick_effect s
  obtain ⟨-, hdiv, -⟩ := tmrTick_frame (e ▸ h)
  rw [hdiv, BitVec.toNat_ofNat]
  omega

/-- Settles O41, by induction on the ticks. -/
theorem dividerCountsTicksModuloTen : Obligations.DividerCountsTicksModuloTen := by
  intro k
  induction k with
  | zero =>
    intro s t hlegal h
    injection h with h
    rw [← h, Nat.add_zero, Nat.mod_eq_of_lt hlegal]
  | succ k ih =>
    intro s t hlegal h
    obtain ⟨s', hfirst, hrest⟩ := andThen_eq_next.1 h
    have hdiv := schedTick_divider hfirst
    have hlast := ih s' t (by omega) hrest
    omega

/-! ### The sub-rate tasks -/

theorem tachDue_ofNat {n : Nat} (h : n < 10) : tachDue (BitVec.ofNat 4 n) = decide (n = 0) := by
  interval_cases n <;> rfl

theorem uiDue_ofNat {n : Nat} (h : n < 10) : uiDue (BitVec.ofNat 4 n) = decide (n % 5 = 0) := by
  interval_cases n <;> rfl

/-- Settles O42: the new divider decides the two tasks, and the timer after them draws nothing and refreshes nothing. -/
theorem subRateTasksRunOnTheirTicks : Obligations.SubRateTasksRunOnTheirTicks := by
  intro s t _ h
  have hlt : (s.sDiv.toNat + 1) % 10 < 10 := Nat.mod_lt _ (by decide)
  obtain ⟨u, int, perr, pout, env, ui, rpm, e, -, -, hui, -, -, hdue, hnot⟩ := schedTick_effect s
  obtain ⟨henv, -, hrpm, hout⟩ := tmrTick_frame (e ▸ h)
  rw [tachDue_ofNat hlt] at hdue hnot
  rw [uiDue_ofNat hlt, Nat.mod_mod_of_dvd _ (by decide)] at hui
  rw [henv, hrpm, hout]
  refine ⟨fun hne => hnot (decide_eq_false hne), fun hzero => hdue (decide_eq_true hzero), ?_⟩
  rw [hui, List.count_append, List.count_append]
  simp only [decide_eq_true_eq]
  split_ifs <;> simp

/-! ### The commands of a tick -/

/-- Settles O43: up to the timer a tick emits its command and at most the refresh, and the timer then fires an action or
waits. -/
theorem everyTickWritesTheActuator : Obligations.EveryTickWritesTheActuator := by
  intro s hcount
  obtain ⟨u, int, perr, pout, env, ui, rpm, e, -, hoff, hui, -⟩ := schedTick_effect s
  obtain ⟨t, h⟩ : ∃ t, exec .schedTick s = .next t := by
    rw [e]
    exact tmrTick_completes (by decide) hcount
  have ht := e.symm.trans h
  refine ⟨t, u, ui, h, hoff, ?_, fun ⟨harm, hdue, hact⟩ => tmrTick_turnsOff ht harm hdue hact,
    fun ⟨harm, hdue, hact⟩ => tmrTick_turnsOn ht harm hdue hact, tmrTick_waits ht⟩
  rw [hui]
  split_ifs
  · exact .inr rfl
  · exact .inl rfl

end Sys2Proof.Machine

/-!
PROOFS. The statement of 60_exceptions.md: what a step takes and runs. A step has two cases, the list of waiting events
being empty or not; every kind of event is an instance of the second.
-/

namespace Sys2Proof.Machine

/-- The block waits (R287). -/
theorem step_of_no_event {s : State} (h : s.env.events = []) : step s = .next s := by
  rw [step, h]

/-- The first waiting event is taken and its operation runs (R42, R275). -/
theorem step_of_event {e : Event} {rest : List Event} {s : State} (h : s.env.events = e :: rest) :
    step s = exec e.instr (takeEvent rest s) := by
  rw [step, h]

/-- Settles O9: the three kinds of event are the step that takes an event, each with the operation it starts. -/
theorem stepTakesTheNextEvent : Obligations.StepTakesTheNextEvent := by
  intro s
  exact ⟨step_of_no_event, fun _ _ => step_of_event, fun _ => step_of_event, fun _ _ => step_of_event⟩

end Sys2Proof.Machine

/-!
PROOFS. The statements of 30_encoding.md: the decoder reads every frame back, and reads only frames that are there. First
the frames by their two formats, then what the decoder has read of a frame at each of its points.
-/

namespace Sys2Proof

/-! ### Frames to operations -/

/-- A frame is that of a query code, or of an assignment code and its value field (R71, R76). -/
theorem encode_cases {i : Instr} {f : List Byte} (h : encode i = some f) :
    (∃ code, queryOf code = some i ∧ f = queryFrame code) ∨
    ∃ code value, assignOf code value = some i ∧ f = assignFrame code value := by
  cases i with
  | qTemp => exact .inl ⟨Ascii.t, rfl, (Option.some.inj h).symm⟩
  | qCool => exact .inl ⟨Ascii.c, rfl, (Option.some.inj h).symm⟩
  | qHeat => exact .inl ⟨Ascii.a, rfl, (Option.some.inj h).symm⟩
  | qKp => exact .inl ⟨Ascii.p, rfl, (Option.some.inj h).symm⟩
  | qKi => exact .inl ⟨Ascii.i, rfl, (Option.some.inj h).symm⟩
  | qKd => exact .inl ⟨Ascii.d, rfl, (Option.some.inj h).symm⟩
  | qOnoff => exact .inl ⟨Ascii.s, rfl, (Option.some.inj h).symm⟩
  | qSp => exact .inl ⟨Ascii.g, rfl, (Option.some.inj h).symm⟩
  | qRpm => exact .inl ⟨Ascii.r, rfl, (Option.some.inj h).symm⟩
  | qTimer => exact .inl ⟨Ascii.m, rfl, (Option.some.inj h).symm⟩
  | aSp value => exact .inr ⟨Ascii.t, value, rfl, (Option.some.inj h).symm⟩
  | aKi value => exact .inr ⟨Ascii.i, value, rfl, (Option.some.inj h).symm⟩
  | aCool value => exact .inr ⟨Ascii.c, value, rfl, (Option.some.inj h).symm⟩
  | aHeat value => exact .inr ⟨Ascii.a, value, rfl, (Option.some.inj h).symm⟩
  | aKp value => exact .inr ⟨Ascii.p, value, rfl, (Option.some.inj h).symm⟩
  | aKd value => exact .inr ⟨Ascii.d, value, rfl, (Option.some.inj h).symm⟩
  | aOnoff value => exact .inr ⟨Ascii.s, value, rfl, (Option.some.inj h).symm⟩
  | aTact value => exact .inr ⟨Ascii.b, value, rfl, (Option.some.inj h).symm⟩
  | aTdur value => exact .inr ⟨Ascii.n, value, rfl, (Option.some.inj h).symm⟩
  | aTrun value => exact .inr ⟨Ascii.m, value, rfl, (Option.some.inj h).symm⟩
  | aUnlock value => exact .inr ⟨Ascii.k, value, rfl, (Option.some.inj h).symm⟩
  | _ => cases h

theorem decode_queryFrame {code : Byte} {i : Instr} (rest : List Byte) (h : queryOf code = some i) :
    decode (queryFrame code ++ rest) = .ok (i, rest) := by
  have hg : Ascii.g ≠ Ascii.sentinel := by decide
  have hend : Ascii.terminator ≠ Ascii.sentinel := by decide
  simp [queryFrame, decode, decodeFrom, hg, hend, ne_sentinel_of_queryOf h, h]

theorem decode_assignFrame {code : Byte} {value : List Byte} {i : Instr} (rest : List Byte)
    (h : assignOf code value = some i) (hvalue : value.all Ascii.isValueByte = true) :
    decode (assignFrame code value ++ rest) = .ok (i, rest) := by
  have hs : Ascii.s ≠ Ascii.sentinel := by decide
  have hsg : Ascii.s ≠ Ascii.g := by decide
  have hcode : (assignOf code []).isSome = true := by rw [isSome_assignOf code [] value, h, Option.isSome_some]
  have hfield := decodeFrom_value code value [] rest i hvalue h
  simpa [assignFrame, decode, decodeFrom, hs, hsg, ne_sentinel_of_assignOf h, hcode] using hfield

/-- Settles O7: a frame has one of two formats, and the decoder reads each of them back. -/
theorem decodeEncodeRoundTrip : Obligations.DecodeEncodeRoundTrip := by
  intro i f rest hwf hf
  obtain ⟨code, hi, rfl⟩ | ⟨code, value, hi, rfl⟩ := encode_cases hf
  · exact decode_queryFrame rest hi
  · exact decode_assignFrame rest hi ((assignOf_spec hi).1.symm.trans hwf)

/-! ### Operations to frames -/

/-- The bytes of the frame that the decoder has read at a point of it, from the SENTINEL on. -/
def DecodeState.read : DecodeState → List Byte
  | .ready => [Ascii.sentinel]
  | .get => [Ascii.sentinel, Ascii.g]
  | .set => [Ascii.sentinel, Ascii.s]
  | .param code => [Ascii.sentinel, Ascii.g, code]
  | .value code soFar => [Ascii.sentinel, Ascii.s, code] ++ soFar

/-- The decoder collects only digits and commas into a value field. -/
def DecodeState.Legal : DecodeState → Prop
  | .value _ soFar => soFar.all Ascii.isValueByte = true
  | _ => True

/-- `bytes` end with the frame of the well-formed operation `i`, and then `rest`. -/
def EndsWithFrame (i : Instr) (bytes rest : List Byte) : Prop :=
  i.wellFormed = true ∧ ∃ before f, encode i = some f ∧ bytes = before ++ f ++ rest

theorem EndsWithFrame.prepend {i : Instr} {bytes rest : List Byte} (pre : List Byte)
    (h : EndsWithFrame i bytes rest) : EndsWithFrame i (pre ++ bytes) rest := by
  obtain ⟨hwf, before, f, hf, rfl⟩ := h
  exact ⟨hwf, pre ++ before, f, hf, by simp⟩

/-- What decodes from within a frame is the operation of a frame whose first bytes have been read, or of a later one that
a SENTINEL has begun. -/
theorem endsWithFrame_of_decodeFrom {i : Instr} {rest : List Byte} (bytes : List Byte) :
    ∀ st : DecodeState, st.Legal → decodeFrom st bytes = .ok (i, rest) → EndsWithFrame i (st.read ++ bytes) rest := by
  induction bytes with
  | nil =>
    intro st _ h
    simp [decodeFrom] at h
  | cons x xs ih =>
    intro st hst h
    by_cases hx : x = Ascii.sentinel
    · rw [hx, decodeFrom_sentinel] at h
      rw [hx]
      exact (ih .ready trivial h).prepend st.read
    · cases st with
      | ready =>
        simp only [decodeFrom, if_neg hx] at h
        split_ifs at h with hg hs
        · rw [hg]
          exact ih .get trivial h
        · rw [hs]
          exact ih .set trivial h
      | get =>
        simp only [decodeFrom, if_neg hx] at h
        split_ifs at h
        exact ih (.param x) trivial h
      | set =>
        simp only [decodeFrom, if_neg hx] at h
        split_ifs at h
        exact ih (.value x []) rfl h
      | param code =>
        simp only [decodeFrom, if_neg hx] at h
        split_ifs at h with hend
        split at h
        next j hj =>
          cases h
          obtain ⟨hwf, hframe⟩ := queryOf_spec hj
          exact ⟨hwf, [], _, hframe, by rw [hend]; rfl⟩
        next => cases h
      | value code soFar =>
        simp only [decodeFrom, if_neg hx] at h
        split_ifs at h with hchar hend
        · have := ih (.value code (soFar ++ [x])) (by simpa [DecodeState.Legal, hchar] using hst) h
          simpa [DecodeState.read] using this
        · split at h
          next j hj =>
            cases h
            obtain ⟨hwf, hframe⟩ := assignOf_spec hj
            exact ⟨hwf.trans hst, [], _, hframe, by rw [hend]; simp [DecodeState.read, assignFrame]⟩
          next => cases h

/-- Settles O8: the decoder starts at a SENTINEL, with nothing else read. -/
theorem decodedBytesHoldTheFrame : Obligations.DecodedBytesHoldTheFrame := by
  intro i bytes rest h
  cases bytes with
  | nil => simp [decode] at h
  | cons x xs =>
    simp only [decode] at h
    split_ifs at h with hx
    rw [hx]
    exact endsWithFrame_of_decodeFrom xs .ready trivial h

/-- Settles O6: each word decodes by evaluation. -/
theorem specWordsDecode : Obligations.SpecWordsDecode := by
  unfold Obligations.SpecWordsDecode
  decide

end Sys2Proof

/-!
PROOFS. The statements on frames of 30_encoding.md and 43_command_port.md: what the parser dispatches when it has received
a frame. First the kept part of a value field, then the parser byte by byte, and last the parser beside the decoder.
-/

namespace Sys2Proof.Machine

/-! ### The kept part of a value field -/

theorem withValue_take {value : List Byte} (rule : F64 → Outcome) (h : value.all Ascii.isValueByte = true) :
    withValue (value.take 7) rule = withValue value rule := by
  have htake : (value.take 7).all Ascii.isValueByte = true :=
    List.all_eq_true.2 fun b hb => List.all_eq_true.1 h b (List.mem_of_mem_take hb)
  rw [withValue_legal rule h, withValue_legal rule htake, List.take_take, Nat.min_self]

/-- Every assignment reads its value field through `withValue`, so only its first seven bytes (R71). -/
theorem dispatchAssign_take (code : Byte) {value : List Byte} (s : State) (h : value.all Ascii.isValueByte = true) :
    dispatchAssign code (value.take 7) s = dispatchAssign code value s := by
  simp only [dispatchAssign, execASp, execAKi, execACool, execAHeat, execAKp, execAKd, execAOnoff, execATact, execATdur,
    execATrun, execAUnlock, withValue_take _ h]

/-- Settles O14: both are the dispatch of their code, which reads the kept part only. -/
theorem excessValueBytesChangeNothing : Obligations.ExcessValueBytesChangeNothing := by
  intro code value i j s hvalue hi hj
  rw [← dispatchAssign_eq s hi, ← dispatchAssign_eq s hj, dispatchAssign_take code s hvalue]

/-! ### The parser's registers -/

theorem PortOnly.trans {s t u : State} (hst : PortOnly s t) (htu : PortOnly t u) : PortOnly s u := by
  rw [htu, hst]; rfl

/-- A register of three bits holds no more than the seven characters of the buffer. -/
theorem cLen_le (s : State) : s.cLen.toNat ≤ 7 := by have := s.cLen.isLt; omega

theorem length_valueBuffer (s : State) : (valueBuffer s).length = s.cLen.toNat := by
  have := cLen_le s
  simp [valueBuffer]; omega

/-- Value bytes go behind those in the buffer, as long as there is room (R192). -/
theorem valueBuffer_appendAll (value : List Byte) (s : State) :
    valueBuffer (appendAll value s) = (valueBuffer s ++ value).take 7 := by
  obtain ⟨-, hlen, hbuf⟩ := appendAll_spec value s (cLen_le s)
  have hkept : (valueBuffer s ++ value.take (7 - s.cLen.toNat)).length = min 7 (s.cLen.toNat + value.length) := by
    have := cLen_le s
    rw [List.length_append, length_valueBuffer, List.length_take]; omega
  have htake : (valueBuffer s).take 7 = valueBuffer s :=
    List.take_of_length_le ((length_valueBuffer s).le.trans (cLen_le s))
  rw [valueBuffer, hlen, hbuf, ← valueBuffer, List.take_left' hkept, List.take_append, htake, length_valueBuffer]

theorem valueBuffer_appendChar (b : Byte) (s : State) :
    valueBuffer (appendChar b s) = (valueBuffer s ++ [b]).take 7 := valueBuffer_appendAll [b] s

/-! ### A frame, byte by byte -/

theorem exec_cmdByte_g {s : State} (h : s.cState = .ready) : exec (.cmdByte Ascii.g) s = .next { s with cState := .get } := by
  rw [cmdByte_of_ne_sentinel s (by decide), parserStep_ready _ h, if_pos rfl]

theorem exec_cmdByte_s {s : State} (h : s.cState = .ready) : exec (.cmdByte Ascii.s) s = .next { s with cState := .set } := by
  rw [cmdByte_of_ne_sentinel s (by decide), parserStep_ready _ h, if_neg (by decide), if_pos rfl]

theorem exec_cmdByte_queryCode {code : Byte} {s : State} (h : s.cState = .get) (hcode : (queryOf code).isSome = true) :
    exec (.cmdByte code) s = .next { s with cCode := code, cState := .param } := by
  obtain ⟨i, hi⟩ := Option.isSome_iff_exists.1 hcode
  rw [cmdByte_of_ne_sentinel s (ne_sentinel_of_queryOf hi), parserStep_get _ h, if_pos hcode]

theorem exec_cmdByte_assignCode {code : Byte} {s : State} (h : s.cState = .set)
    (hcode : (assignOf code []).isSome = true) :
    exec (.cmdByte code) s = .next { s with cCode := code, cLen := 0, cState := .value } := by
  obtain ⟨i, hi⟩ := Option.isSome_iff_exists.1 hcode
  rw [cmdByte_of_ne_sentinel s (ne_sentinel_of_assignOf hi), parserStep_set _ h, if_pos hcode]

theorem exec_cmdByte_char {b : Byte} {s : State} (h : s.cState = .value) (hb : Ascii.isValueByte b = true) :
    exec (.cmdByte b) s = .next (appendChar b s) := by
  rw [cmdByte_of_ne_sentinel s (ne_sentinel_of_isValueByte hb), parserStep_value_char h hb]

/-- The TERMINATOR of a query frame runs the query, with the parser in Idle. -/
theorem exec_cmdByte_queryEnd {i : Instr} {s : State} (h : s.cState = .param) (hi : queryOf s.cCode = some i) :
    exec (.cmdByte Ascii.terminator) s = exec i (toIdle s) := by
  rw [cmdByte_of_ne_sentinel s (by decide), parserStep_param _ h, if_pos rfl, dispatchQuery_eq _ hi]

/-- The TERMINATOR of an assignment frame runs the assignment of every value field whose first seven bytes stand in the
buffer, with the parser in Idle. -/
theorem exec_cmdByte_assignEnd {value : List Byte} {i : Instr} {s : State} (h : s.cState = .value)
    (hi : assignOf s.cCode value = some i) (hvalue : value.all Ascii.isValueByte = true)
    (hbuf : valueBuffer s = value.take 7) : exec (.cmdByte Ascii.terminator) s = exec i (toIdle s) := by
  rw [cmdByte_of_ne_sentinel s (by decide), parserStep_value_end h (by decide), if_pos rfl, hbuf,
    dispatchAssign_take _ _ hvalue, dispatchAssign_eq _ hi]

/-- Settles O12: the four bytes pass through Ready, Get and Param. -/
theorem queryFrameRunsItsQuery : Obligations.QueryFrameRunsItsQuery := by
  intro code i s hi
  have hcode : (queryOf code).isSome = true := by rw [hi, Option.isSome_some]
  simp only [queryFrame, List.map_cons, List.map_nil]
  rw [execAll_of_next (exec_cmdByte_sentinel s), execAll_of_next (exec_cmdByte_g rfl),
    execAll_of_next (exec_cmdByte_queryCode rfl hcode), execAll_single, exec_cmdByte_queryEnd rfl hi]
  rfl

/-- The state Value, with an empty buffer: what `#s` and a code leave (R192). -/
def valueStart (code : Byte) (s : State) : State := { s with cCode := code, cLen := 0, cState := .value }

/-- An assignment frame up to its TERMINATOR leaves its value bytes in the buffer. -/
theorem execAll_assignPrefix {code : Byte} {value : List Byte} (s : State) (hcode : (assignOf code []).isSome = true)
    (hvalue : value.all Ascii.isValueByte = true) :
    execAll (([Ascii.sentinel, Ascii.s, code] ++ value).map .cmdByte) s =
      .next (appendAll value (valueStart code s)) := by
  simp only [List.cons_append, List.nil_append, List.map_cons]
  rw [execAll_of_next (exec_cmdByte_sentinel s), execAll_of_next (exec_cmdByte_s rfl),
    execAll_of_next (exec_cmdByte_assignCode rfl hcode), execAll_valueBytes _ _ rfl hvalue]
  rfl

/-- Settles O13: up to the TERMINATOR the value bytes fill the buffer from its start, by induction over them in
`execAll_valueBytes`; the TERMINATOR dispatches what is kept. -/
theorem assignFrameRunsItsAssignment : Obligations.AssignFrameRunsItsAssignment := by
  intro code value i s hi hvalue
  have hcode : (assignOf code []).isSome = true := by rw [isSome_assignOf code [] value, hi, Option.isSome_some]
  obtain ⟨hport, hlen, hbuf⟩ := appendAll_spec value (valueStart code s) (cLen_le _)
  have hkept : valueBuffer (appendAll value (valueStart code s)) = value.take 7 := by
    rw [valueBuffer_appendAll]; rfl
  refine ⟨toIdle (appendAll value (valueStart code s)), ?_, rfl, ?_, ?_, ?_, ?_⟩
  · rw [hport]; rfl
  · rw [hport]; rfl
  · simpa [valueStart] using hlen
  · simpa [valueStart] using hbuf
  · rw [assignFrame, List.map_append, execAll_append, execAll_assignPrefix s hcode hvalue, andThen_next, List.map_singleton,
      execAll_single]
    have hstate : (appendAll value (valueStart code s)).cState = .value := by rw [hport]; rfl
    have hcodeKept : (appendAll value (valueStart code s)).cCode = code := by rw [hport]; rfl
    exact exec_cmdByte_assignEnd hstate (hcodeKept.symm ▸ hi) hvalue hkept

/-! ### The parser beside the decoder -/

/-- Settles O10: the frame held, with its TERMINATOR, decodes to the operation of the code remembered, which is the one the
parser dispatches. -/
theorem stepRunsTheDecodedFrame : Obligations.StepRunsTheDecodedFrame := by
  intro i s rest hinv hdecode hevents
  rw [step_of_event hevents]
  change exec (.cmdByte Ascii.terminator) (takeEvent rest s) = exec i (toIdle (takeEvent rest s))
  have hnone : decode ([] ++ [Ascii.terminator]) ≠ .ok (i, []) := by simp [decode, Ascii.terminator, Ascii.sentinel]
  cases hstate : s.cState with
  | idle | ready | get | set =>
    rw [heldFrame, hstate] at hdecode
    exact absurd hdecode hnone
  | param =>
    obtain ⟨j, hj⟩ := Option.isSome_iff_exists.1 (hinv.queryCode hstate)
    have hdecode' := decode_queryFrame [] hj
    rw [heldFrame, hstate] at hdecode
    cases hdecode'.symm.trans hdecode
    exact exec_cmdByte_queryEnd (s := takeEvent rest s) hstate hj
  | value =>
    have hcode := hinv.assignCode hstate
    rw [isSome_assignOf _ [] (valueBuffer s)] at hcode
    obtain ⟨j, hj⟩ := Option.isSome_iff_exists.1 hcode
    have hdecode' := decode_assignFrame [] hj hinv.bufferLegal
    rw [List.append_nil, assignFrame] at hdecode'
    rw [heldFrame, hstate] at hdecode
    cases hdecode'.symm.trans hdecode
    exact exec_cmdByte_assignEnd (s := takeEvent rest s) hstate hj hinv.bufferLegal
      (List.take_of_length_le ((length_valueBuffer s).le.trans (cLen_le s))).symm

/-- The parser of `s` has received what the decoder has read at the point `st`. -/
def AtPoint : DecodeState → State → Prop
  | .ready, s => s.cState = .ready
  | .get, s => s.cState = .get
  | .set, s => s.cState = .set
  | .param code, s => s.cState = .param ∧ s.cCode = code
  | .value code soFar, s =>
    s.cState = .value ∧ s.cCode = code ∧ soFar.all Ascii.isValueByte = true ∧ valueBuffer s = soFar.take 7

/-- A byte that completes is received, and the others after it. -/
theorem receive_of_next {b : Byte} {bs : List Byte} {s t : State} (h : exec (.cmdByte b) s = .next t) :
    receive (b :: bs) s = receive bs t := by
  change execCmdByte b s = .next t at h
  simp only [receive, h]

/-- All the bytes but a last TERMINATOR change the parser only, and the TERMINATOR then runs `i`. -/
def RunsAtTheEnd (i : Instr) (bytes : List Byte) (s : State) : Prop :=
  ∃ init, bytes = init ++ [Ascii.terminator] ∧ PortOnly s (receive init s) ∧
    exec (.cmdByte Ascii.terminator) (receive init s) = exec i (toIdle (receive init s))

theorem RunsAtTheEnd.cons {i : Instr} {b : Byte} {bs : List Byte} {s t : State} (hb : exec (.cmdByte b) s = .next t)
    (hport : PortOnly s t) (h : RunsAtTheEnd i bs t) : RunsAtTheEnd i (b :: bs) s := by
  obtain ⟨init, rfl, hinit, hend⟩ := h
  refine ⟨b :: init, rfl, ?_, ?_⟩
  · rw [receive_of_next hb]; exact hport.trans hinit
  · rw [receive_of_next hb]; exact hend

/-- The parser receives what the decoder reads: bytes that decode from a point of a frame run at the end from a parser at
that point. -/
theorem runsAtTheEnd_of_decodeFrom {i : Instr} (bytes : List Byte) :
    ∀ (st : DecodeState) (s : State), AtPoint st s → decodeFrom st bytes = .ok (i, []) → RunsAtTheEnd i bytes s := by
  induction bytes with
  | nil =>
    intro st s _ h
    simp [decodeFrom] at h
  | cons x xs ih =>
    intro st s hat h
    by_cases hx : x = Ascii.sentinel
    · rw [hx, decodeFrom_sentinel] at h
      rw [hx]
      exact .cons (exec_cmdByte_sentinel s) rfl (ih .ready _ rfl h)
    · cases st with
      | ready =>
        simp only [decodeFrom, if_neg hx] at h
        split_ifs at h with hg hs
        · rw [hg]
          exact .cons (exec_cmdByte_g hat) rfl (ih .get _ rfl h)
        · rw [hs]
          exact .cons (exec_cmdByte_s hat) rfl (ih .set _ rfl h)
      | get =>
        simp only [decodeFrom, if_neg hx] at h
        split_ifs at h with hcode
        exact .cons (exec_cmdByte_queryCode hat hcode) rfl (ih (.param x) _ ⟨rfl, rfl⟩ h)
      | set =>
        simp only [decodeFrom, if_neg hx] at h
        split_ifs at h with hcode
        exact .cons (exec_cmdByte_assignCode hat hcode) rfl (ih (.value x []) _ ⟨rfl, rfl, rfl, rfl⟩ h)
      | param code =>
        obtain ⟨hstate, rfl⟩ := hat
        simp only [decodeFrom, if_neg hx] at h
        split_ifs at h with hend
        split at h
        next j hj =>
          cases h
          exact ⟨[], by rw [hend]; rfl, rfl, exec_cmdByte_queryEnd hstate hj⟩
        next => cases h
      | value code soFar =>
        obtain ⟨hstate, rfl, hlegal, hbuf⟩ := hat
        simp only [decodeFrom, if_neg hx] at h
        split_ifs at h with hchar hend
        · have hport : PortOnly s (appendChar x s) := by rw [appendChar_portOnly]; rfl
          refine .cons (exec_cmdByte_char hstate hchar) hport (ih (.value s.cCode (soFar ++ [x])) _ ?_ h)
          refine ⟨?_, ?_, by simp [hchar, hlegal], ?_⟩
          · rw [appendChar_portOnly]; exact hstate
          · rw [appendChar_portOnly]
          · have hroom : 7 - min 7 soFar.length = 7 - soFar.length := by omega
            rw [valueBuffer_appendChar, hbuf, List.take_append, List.take_append, List.take_take, List.length_take,
              Nat.min_self, hroom]
        · split at h
          next j hj =>
            cases h
            exact ⟨[], by rw [hend]; rfl, rfl, exec_cmdByte_assignEnd hstate hj hlegal hbuf⟩
          next => cases h

/-- Settles O11: a word that decodes begins with a SENTINEL, which sets the parser beside the decoder from any state; the
step takes the TERMINATOR that the placing leaves as the next event. -/
theorem placedWordRunsAtTheNextStep : Obligations.PlacedWordRunsAtTheNextStep := by
  intro nbits w i s hword
  have hdecode : decode (tableFrame nbits w) = .ok (i, []) := by
    rw [decodeTableWord] at hword
    split at hword
    next j hj => cases hword; exact hj
    next => cases hword
    next => cases hword
  have hruns : RunsAtTheEnd i (tableFrame nbits w) s := by
    cases hframe : tableFrame nbits w with
    | nil => simp [hframe, decode] at hdecode
    | cons x xs =>
      simp only [hframe, decode] at hdecode
      split_ifs at hdecode with hx
      rw [hx]
      exact .cons (exec_cmdByte_sentinel s) rfl (runsAtTheEnd_of_decodeFrom xs .ready _ rfl hdecode)
  obtain ⟨init, hframe, hport, hend⟩ := hruns
  refine ⟨toIdle (receive init s), hport.trans rfl, rfl, ?_⟩
  have hevents : (s.withFetchWord nbits w).env.events =
      .byte Ascii.terminator :: (receive init s).env.events := by
    simp [State.withFetchWord, hframe]
  rw [step_of_event hevents, ← hend]
  simp [State.withFetchWord, hframe, takeEvent, Event.instr]

end Sys2Proof.Machine

/-!
PROOFS. The statements of 00_scope.md on the parameters, and those of 43_command_port.md on the on/off, the staging and
the run assignment. First the parameters by their decimals, then the two tests of a parsed value, which exclude each other.
-/

namespace Sys2Proof.Machine

/-! ### The parameters -/

theorem zero_eq_ofRatio : Param.zero = F64.ofRatio 0 1 := by decide +kernel
theorem kp0_eq_ofRatio : Param.kp0 = F64.ofRatio 10 1 := by decide +kernel
theorem kd0_eq_ofRatio : Param.kd0 = F64.ofRatio 20 1 := by decide +kernel
theorem durMaxS_eq_ofRatio : Param.durMaxS = F64.ofRatio 599940 1 := by decide +kernel

/-- Settles O1: every real parameter is the rounding of its decimal, evaluated by the kernel; the rest are literals. -/
theorem fixedParametersAreNearestBinary64 : Obligations.FixedParametersAreNearestBinary64 :=
  ⟨beta_eq_ofRatio, rfl, spMin_eq_ofRatio, spMax_eq_ofRatio, zero_eq_ofRatio, outMax_eq_ofRatio, kp0_eq_ofRatio,
    beta_eq_ofRatio, rfl, kd0_eq_ofRatio, zero_eq_ofRatio, rfl, rfl, rfl, rfl, heaterCap_eq_ofRatio, one_eq_ofRatio,
    durMaxS_eq_ofRatio⟩

/-! ### The tests of a parsed value -/

theorem meansOne_eq (v : F64) : meansOne v = F64.eq v (F64.ofRatio 1 1) := by rw [meansOne, one_eq_ofRatio]

theorem meansZero_eq (v : F64) : meansZero v = F64.eq v ⟨0⟩ := rfl

theorem durationAccepted_eq (v : F64) : durationAccepted v = F64.le v (F64.ofRatio 599940 1) := by
  rw [durationAccepted, durMaxS_eq_ofRatio]

/-- No value is equal to both 0.0 and 1.0. -/
theorem not_meansOne_of_meansZero {v : F64} (h : meansZero v = true) : ¬ meansOne v = true := by
  have hone : Param.one.key ≠ 0 := by decide
  simp only [meansZero, meansOne, F64.eq, F64.key_zero, Bool.and_eq_true, decide_eq_true_eq] at *
  omega

/-! ### The assignments -/

section
variable {value : List Byte} {v : F64} (s : State) (hvalue : value.all Ascii.isValueByte = true)
  (hv : v = Text.textToFloat (value.take 7))
include hvalue hv

theorem exec_aOnoff : exec (.aOnoff value) s = .next (
    if meansOne v then acknowledge Ascii.s v (if s.pEn = false then pidOn s else s)
    else if meansZero v then acknowledge Ascii.s v (pidOff s)
    else s) := by
  change execAOnoff value s = _
  rw [execAOnoff, withValue_parsed hvalue hv]

theorem exec_aTact : exec (.aTact value) s = .next (
    if meansOne v then acknowledge Ascii.b v { s with tCfgAct := true }
    else if meansZero v then acknowledge Ascii.b v { s with tCfgAct := false }
    else s) := by
  change execATact value s = _
  rw [execATact, withValue_parsed hvalue hv]

theorem exec_aTdur_accepted (hin : durationAccepted v = true) :
    exec (.aTdur value) s = .next (acknowledge Ascii.n v { s with tCfgDur := v }) := by
  change execATdur value s = _
  rw [execATdur, withValue_parsed hvalue hv, if_pos hin]

/-- Above the cap the open parameter decides (R216, U13). -/
theorem exec_aTdur_capped (hout : durationAccepted v = false) : exec (.aTdur value) s = .next (
    if Config.durCapMode = .clamp then acknowledge Ascii.n Param.durMaxS { s with tCfgDur := Param.durMaxS }
    else s) := by
  change execATdur value s = _
  rw [execATdur, withValue_parsed hvalue hv, if_neg (Bool.eq_false_iff.1 hout)]
  cases Config.durCapMode <;> rfl

theorem exec_aTrun : exec (.aTrun value) s =
    if meansOne v then andThen (tmrStart s.tCfgDur s.tCfgAct s) fun s' => .next (acknowledge Ascii.m v s')
    else if meansZero v then .next (acknowledge Ascii.m v (tmrAbort s))
    else .next s := by
  change execATrun value s = _
  rw [execATrun, withValue_parsed hvalue hv]

end

/-- Settles O53: the statement's two tests are the model's. -/
theorem onOffAssignmentTurnsOnOnlyFromOff : Obligations.OnOffAssignmentTurnsOnOnlyFromOff := by
  intro value s v hvalue hv
  rw [exec_aOnoff s hvalue hv, ← meansOne_eq, ← meansZero_eq]
  refine ⟨fun hone hoff => ?_, fun hone hon => ?_, fun hzero => ?_, fun hone hzero => ?_⟩
  · rw [if_pos hone, if_pos hoff]; rfl
  · rw [if_pos hone, if_neg (by simp [hon])]; rfl
  · rw [if_neg (not_meansOne_of_meansZero hzero), if_pos hzero]
    simp only [acknowledge_eq, pidOff, emit, List.append_assoc]
    rfl
  · rw [hone, hzero]; rfl

/-- Settles O54: each write is one record update and one line. -/
theorem stagingAssignmentsLeaveTheTimerAlone : Obligations.StagingAssignmentsLeaveTheTimerAlone := by
  intro value s v hvalue hv
  rw [exec_aTact s hvalue hv, ← meansOne_eq, ← meansZero_eq, ← durationAccepted_eq, ← durMaxS_eq_ofRatio]
  refine ⟨fun hone => ?_, fun hzero => ?_, fun hone hzero => ?_, exec_aTdur_accepted s hvalue hv,
    exec_aTdur_capped s hvalue hv⟩
  · rw [if_pos hone]; rfl
  · rw [if_neg (not_meansOne_of_meansZero hzero), if_pos hzero]; rfl
  · rw [hone, hzero]; rfl

theorem exec_tmrStart {d : F64} (act : Bool) (s : State) (hd : durationInDomain d = true) : exec (.tmrStart d act) s =
    .next { s with tRem := BitVec.ofInt 32 (millisOf d), tAct := act, tArm := true } := if_pos hd

theorem exec_tmrStart_refused {d : F64} (act : Bool) (s : State) (hd : durationInDomain d = false) :
    exec (.tmrStart d act) s = .refused .durationDomain := if_neg (Bool.eq_false_iff.1 hd)

/-- Settles O55: the staged duration lies in the domain of a start by R26. -/
theorem runAssignmentStartsAndStopsTheTimer : Obligations.RunAssignmentStartsAndStopsTheTimer := by
  intro value s v hinv hvalue hv
  have hstart := exec_tmrStart s.tCfgAct s hinv.stagedDuration
  rw [exec_aTrun s hvalue hv, ← meansOne_eq, ← meansZero_eq]
  refine ⟨fun hone => ⟨_, hstart, ?_⟩, fun hzero => ?_, fun hone hzero => ?_⟩
  · change tmrStart s.tCfgDur s.tCfgAct s = _ at hstart
    rw [if_pos hone, hstart]; rfl
  · rw [if_neg (not_meansOne_of_meansZero hzero), if_pos hzero]; rfl
  · rw [hone, hzero]; rfl

end Sys2Proof.Machine

/-!
PROOFS. The statements on the invariants of 10_state.md and on completion (60_exceptions.md): `RESET` establishes the
invariants, every operation keeps them, and on a state that meets them every operation completes.
-/

namespace Sys2Proof.Machine

/-! ### Reset -/

/-- Settles O24: the reset is one record update, of every register. -/
theorem resetWritesEveryRegister : Obligations.ResetWritesEveryRegister :=
  fun _ _ => ⟨_, rfl, rfl, rfl, rfl, rfl, rfl, rfl, rfl, rfl, rfl, rfl, rfl, rfl, rfl, rfl, rfl, rfl, rfl, rfl, rfl, rfl,
    rfl, rfl, rfl, rfl, rfl, rfl, rfl, rfl⟩

theorem durationInDomain_zero : durationInDomain Param.zero = true := by decide +kernel

theorem inv_of_execReset {seed : F64} {s t : State} (ht : exec (.reset seed) s = .next t) : Inv t := by
  injection ht with ht
  rw [← ht]
  exact {
    emaIsDbase := rfl
    offCommandZero := fun _ => rfl
    setpointLegal := .inl rfl
    commandInRange := inOutRange_zero
    armedCount := fun harm => by cases harm
    stagedDuration := durationInDomain_zero
    divider := Nat.zero_lt_succ 9
    queryCode := fun hstate => by cases hstate
    assignCode := fun hstate => by cases hstate
    bufferLegal := rfl }

/-- Settles O15: the power-up state is the one a `RESET` with its seed leaves of itself. -/
theorem resetEstablishesTheInvariants : Obligations.ResetEstablishesTheInvariants :=
  ⟨inv_of_execReset (seed := Config.seed0) (s := State.reset) rfl, fun _ _ => ⟨_, rfl, inv_of_execReset rfl⟩⟩

/-! ### What each operation keeps -/

/-- A parsed value is not below zero (R75). -/
theorem zero_le_textToFloat (chars : List Byte) : F64.le Param.zero (Text.textToFloat chars) = true :=
  (F64.zero_le_iff _).2 ⟨Text.isNaN_textToFloat chars, .inl (F64.sign_roundUnits _ _ _)⟩

/-- The invariants are about the registers: the trace, the environment and the last answer are free. -/
theorem Inv.withPorts {s : State} (h : Inv s) (out : List OutEvent) (env : Env) (res : Result) :
    Inv { s with out := out, env := env, res := res } := { h with }

theorem Inv.ofPidOn {s : State} (h : Inv s) : Inv (pidOn s) := { h with offCommandZero := fun hoff => by cases hoff }

theorem Inv.ofPidOff {s : State} (h : Inv s) : Inv (pidOff s) :=
  { h with offCommandZero := fun _ => rfl, commandInRange := inOutRange_zero }

theorem Inv.ofDisarmed {s : State} (h : Inv s) : Inv { s with tArm := false } :=
  { h with armedCount := fun harm => by cases harm }

theorem Inv.ofTmrAction {s : State} (h : Inv s) : Inv (tmrAction s) := by
  obtain ⟨-, e⟩ | ⟨-, -, e⟩ | ⟨-, -, e⟩ := tmrAction_cases s <;> rw [e]
  · exact h.ofPidOff
  · exact h.ofPidOn
  · exact h

theorem Inv.ofTmrStart {d : F64} {act : Bool} {s t : State} (h : Inv s) (ht : tmrStart d act s = .next t) : Inv t := by
  obtain ⟨hd, rfl⟩ := tmrStart_cases ht
  obtain ⟨h0, hmax⟩ := millisOf_range hd
  refine { h with armedCount := fun _ => ?_ }
  rw [show (BitVec.ofInt 32 (millisOf d)).toInt = millisOf d from toInt_ofInt32 _ (by omega) (by omega)]
  exact ⟨h0, hmax⟩

/-- The action of a fire neither reads nor writes the armed flag. -/
theorem tmrAction_disarm (s : State) : { tmrAction s with tArm := false } = tmrAction { s with tArm := false } := by
  simp only [tmrAction]
  split_ifs <;> rfl

/-- A tick of the timer counts down within the range of an armed count, or disarms (R27, R165). -/
theorem Inv.ofTmrTick {p : Int} {s t : State} (h : Inv s) (ht : tmrTick p s = .next t) : Inv t := by
  obtain ⟨hp, ⟨-, rfl⟩ | ⟨harm, -, hleft, rfl⟩ | ⟨-, -, -, rfl⟩⟩ := tmrTick_cases ht
  · exact h
  · obtain ⟨-, hmax⟩ := h.armedCount harm
    obtain ⟨hperiod, -⟩ := (periodInDomain_iff p).1 hp
    refine { h with armedCount := fun _ => ?_ }
    rw [show (BitVec.ofInt 32 (s.tRem.toInt - p)).toInt = s.tRem.toInt - p from toInt_ofInt32 _ (by omega) (by omega)]
    omega
  · rw [tmrAction_disarm]
    exact Inv.ofTmrAction { h with armedCount := fun harm => by cases harm }

/-- A tick up to the timer: the command it writes is in range, and 0.0 while the controller is off (R25, R144). -/
theorem Inv.ofSchedTick {s t : State} (h : Inv s) (ht : exec .schedTick s = .next t) : Inv t := by
  obtain ⟨u, int, perr, pout, env, ui, rpm, e, hu, hoff, -⟩ := schedTick_effect s
  rw [e] at ht
  refine Inv.ofTmrTick ?_ ht
  refine { h with emaIsDbase := ?_, offCommandZero := hoff, commandInRange := hu, divider := ?_ }
  · exact congrArg (smooth _) h.emaIsDbase
  · rw [BitVec.toNat_ofNat]; omega

theorem durationInDomain_durMaxS : durationInDomain Param.durMaxS = true := by decide +kernel

/-- A parsed value within the cap lies in the domain of a start (R75, R160). -/
theorem durationInDomain_textToFloat {chars : List Byte} (h : durationAccepted (Text.textToFloat chars) = true) :
    durationInDomain (Text.textToFloat chars) = true := by
  rw [durationInDomain, zero_le_textToFloat, Bool.true_and]
  exact h

/-- A staged duration is a parsed value within the cap, or the cap (R26, R216). -/
theorem Inv.ofATdur {value : List Byte} {s t : State} (h : Inv s) (ht : exec (.aTdur value) s = .next t) : Inv t := by
  obtain ⟨-, rfl | ⟨v, hv, rfl⟩⟩ := aTdur_effect ht
  · exact h
  · have hdomain : durationInDomain v = true := by
      obtain ⟨rfl, hcap⟩ | rfl := hv
      · exact durationInDomain_textToFloat hcap
      · exact durationInDomain_durMaxS
    exact { h with stagedDuration := hdomain }

/-- An armed count is not negative, so the remaining time is a number (R27, R168). -/
theorem Inv.tmrGetrem_ok {s : State} (h : Inv s) : ∃ n, tmrGetrem s = .ok n := by
  cases harm : s.tArm with
  | false => exact ⟨0, tmrGetrem_disarmed harm⟩
  | true => exact ⟨s.tRem, tmrGetrem_armed harm (h.armedCount harm).1⟩

/-- A query writes no register. -/
theorem Inv.ofQuery {code : Byte} {i : Instr} {s t : State} (h : Inv s) (hi : queryOf code = some i)
    (ht : exec i s = .next t) : Inv t := by
  obtain ⟨text, env, rfl, -⟩ := query_effect hi ht
  exact h.withPorts _ _ _

/-- Every operation but a byte keeps the invariants, by what it does when it completes. -/
theorem Inv.ofExec_of_ne_cmdByte {i : Instr} {s t : State} (h : Inv s) (ht : exec i s = .next t)
    (hbyte : ∀ b, i ≠ .cmdByte b) : Inv t := by
  cases i with
  | cmdByte b => exact absurd rfl (hbyte b)
  | reset seed => exact inv_of_execReset ht
  | schedTick => exact h.ofSchedTick ht
  | filtInit v =>
    injection ht with ht
    rw [← ht]; exact { h with emaIsDbase := rfl }
  | filtUpd v =>
    injection ht with ht
    rw [← ht]; exact { h with emaIsDbase := congrArg (smooth v) h.emaIsDbase }
  | pidSetsp v =>
    cases hv : setpointAccepted v with
    | true =>
      rw [exec_pidSetsp, pidSetsp_accepted s hv] at ht
      injection ht with ht
      rw [← ht]; exact { h with setpointLegal := .inr hv }
    | false =>
      rw [exec_pidSetsp_rejected s hv] at ht
      injection ht with ht
      rw [← ht]; exact h.withPorts _ _ _
  | pidSetkp v | pidSetki v | pidSetkd v =>
    injection ht with ht
    rw [← ht]; exact { h with }
  | pidOn =>
    injection ht with ht
    rw [← ht]; exact h.ofPidOn
  | pidOff =>
    injection ht with ht
    rw [← ht]; exact h.ofPidOff
  | pidUpd m =>
    obtain ⟨int, perr, pout, env, e, -⟩ := pidUpd_state m s
    rw [exec_pidUpd, e] at ht
    injection ht with ht
    rw [← ht]; exact { h with }
  | tmrStart d act => exact h.ofTmrStart ht
  | tmrAbort =>
    injection ht with ht
    rw [← ht]; exact h.ofDisarmed
  | tmrTick p => exact h.ofTmrTick ht
  | tmrGetrem =>
    obtain ⟨n, hn⟩ := h.tmrGetrem_ok
    rw [exec_tmrGetrem_ok hn] at ht
    injection ht with ht
    rw [← ht]; exact h.withPorts _ _ _
  | qTemp => exact h.ofQuery (code := Ascii.t) rfl ht
  | qCool => exact h.ofQuery (code := Ascii.c) rfl ht
  | qHeat => exact h.ofQuery (code := Ascii.a) rfl ht
  | qKp => exact h.ofQuery (code := Ascii.p) rfl ht
  | qKi => exact h.ofQuery (code := Ascii.i) rfl ht
  | qKd => exact h.ofQuery (code := Ascii.d) rfl ht
  | qOnoff => exact h.ofQuery (code := Ascii.s) rfl ht
  | qSp => exact h.ofQuery (code := Ascii.g) rfl ht
  | qRpm => exact h.ofQuery (code := Ascii.r) rfl ht
  | qTimer => exact h.ofQuery (code := Ascii.m) rfl ht
  | aSp value =>
    obtain rfl | ⟨v, hv, rfl⟩ := aSp_effect ht
    · exact h
    · exact { h with setpointLegal := .inr hv }
  | aKi value =>
    obtain ⟨v, rfl⟩ := aKi_effect ht
    exact { h with }
  | aKp value =>
    obtain ⟨v, rfl⟩ := aKp_effect ht
    exact { h with }
  | aKd value =>
    obtain ⟨v, rfl⟩ := aKd_effect ht
    exact { h with }
  | aCool value =>
    obtain ⟨-, rfl | ⟨v, -, -, rfl⟩⟩ := aCool_effect ht
    · exact h
    · exact h.withPorts _ _ _
  | aHeat value =>
    obtain ⟨-, rfl | ⟨v, -, -, rfl⟩⟩ := aHeat_effect ht
    · exact h.withPorts _ _ _
    · exact h.withPorts _ _ _
  | aOnoff value =>
    obtain rfl | ⟨v, ⟨-, rfl⟩ | ⟨-, rfl⟩ | rfl⟩ := aOnoff_effect ht
    · exact h
    · exact h.ofPidOn.withPorts _ _ _
    · exact h.withPorts _ _ _
    · exact h.ofPidOff.withPorts _ _ _
  | aTact value =>
    obtain rfl | ⟨v, b, rfl⟩ := aTact_effect ht
    · exact h
    · exact { h with }
  | aTdur value => exact h.ofATdur ht
  | aTrun value =>
    obtain rfl | ⟨v, ⟨u, hu, rfl⟩ | rfl⟩ := aTrun_effect ht
    · exact h
    · exact (h.ofTmrStart hu).withPorts _ _ _
    · exact h.ofDisarmed.withPorts _ _ _
  | aUnlock value =>
    obtain rfl | ⟨v, -, rfl⟩ := aUnlock_effect ht
    · exact h
    · exact { h with }

/-! ### A byte -/

/-- In a parser state without a code the invariants of the parser ask nothing of the code (R30). -/
theorem Inv.withParserState {s : State} (h : Inv s) {st : ParserState} (hparam : st ≠ .param) (hvalue : st ≠ .value) :
    Inv { s with cState := st } :=
  { h with queryCode := fun hst => absurd hst hparam, assignCode := fun hst => absurd hst hvalue }

theorem Inv.ofToIdle {s : State} (h : Inv s) : Inv (toIdle s) := h.withParserState (by decide) (by decide)

theorem ne_cmdByte_of_encode {i : Instr} {f : List Byte} (h : encode i = some f) (b : Byte) : i ≠ .cmdByte b := by
  rintro rfl
  cases h

theorem Inv.ofDispatchQuery {code : Byte} {s t : State} (h : Inv s) (ht : dispatchQuery code s = .next t) : Inv t := by
  cases hi : queryOf code with
  | none => rw [dispatchQuery_none s hi] at ht; cases ht
  | some i => rw [dispatchQuery_eq s hi] at ht; exact h.ofQuery hi ht

theorem Inv.ofDispatchAssign {code : Byte} {value : List Byte} {s t : State} (h : Inv s)
    (ht : dispatchAssign code value s = .next t) : Inv t := by
  cases hi : assignOf code value with
  | none => rw [dispatchAssign_none s hi] at ht; cases ht
  | some i =>
    rw [dispatchAssign_eq s hi] at ht
    obtain ⟨-, hframe⟩ := assignOf_spec hi
    exact h.ofExec_of_ne_cmdByte ht (ne_cmdByte_of_encode hframe)

/-- A value byte in the buffer leaves digits and commas there (R29, R192). -/
theorem Inv.ofAppendChar {b : Byte} {s : State} (h : Inv s) (hb : Ascii.isValueByte b = true) : Inv (appendChar b s) := by
  have hbuf : (valueBuffer (appendChar b s)).all Ascii.isValueByte = true := by
    rw [valueBuffer_appendChar]
    refine List.all_eq_true.2 fun x hx => ?_
    obtain hx | hx := List.mem_append.1 (List.mem_of_mem_take hx)
    · exact List.all_eq_true.1 h.bufferLegal x hx
    · rw [List.mem_singleton.1 hx]; exact hb
  rw [appendChar_portOnly] at hbuf ⊢
  exact { h with bufferLegal := hbuf }

/-- A byte keeps the invariants: a code is remembered only from its set, a character only of a value field, and the rest is
the dispatch of a frame. -/
theorem Inv.ofCmdByte {b : Byte} {s t : State} (h : Inv s) (ht : exec (.cmdByte b) s = .next t) : Inv t := by
  by_cases hb : b = Ascii.sentinel
  · rw [hb, exec_cmdByte_sentinel] at ht
    injection ht with ht
    rw [← ht]; exact h.withParserState (by decide) (by decide)
  · rw [cmdByte_of_ne_sentinel s hb] at ht
    cases hstate : s.cState with
    | idle =>
      rw [parserStep_idle b hstate] at ht
      injection ht with ht
      rw [← ht]; exact h
    | ready =>
      rw [parserStep_ready b hstate] at ht
      injection ht with ht
      rw [← ht]; exact h.withParserState (by split_ifs <;> decide) (by split_ifs <;> decide)
    | get =>
      rw [parserStep_get b hstate] at ht
      split_ifs at ht with hcode <;> injection ht with ht <;> rw [← ht]
      · exact { h with queryCode := fun _ => hcode, assignCode := fun hst => by cases hst }
      · exact h.ofToIdle
    | set =>
      rw [parserStep_set b hstate] at ht
      split_ifs at ht with hcode <;> injection ht with ht <;> rw [← ht]
      · exact { h with queryCode := fun hst => (by cases hst), assignCode := fun _ => hcode, bufferLegal := rfl }
      · exact h.ofToIdle
    | param =>
      rw [parserStep_param b hstate] at ht
      split_ifs at ht
      · exact h.ofToIdle.ofDispatchQuery ht
      · injection ht with ht
        rw [← ht]; exact h.ofToIdle
    | value =>
      by_cases hchar : Ascii.isValueByte b = true
      · rw [parserStep_value_char hstate hchar] at ht
        injection ht with ht
        rw [← ht]; exact h.ofAppendChar hchar
      · rw [parserStep_value_end hstate hchar] at ht
        split_ifs at ht
        · exact h.ofToIdle.ofDispatchAssign ht
        · injection ht with ht
          rw [← ht]; exact h.ofToIdle

/-! ### Every operation and every step -/

theorem Inv.ofExec {i : Instr} {s t : State} (h : Inv s) (ht : exec i s = .next t) : Inv t := by
  by_cases hbyte : ∃ b, i = .cmdByte b
  · obtain ⟨b, rfl⟩ := hbyte
    exact h.ofCmdByte ht
  · exact h.ofExec_of_ne_cmdByte ht fun b e => hbyte ⟨b, e⟩

/-- Settles O16: a step is the operation of the event it takes, and taking an event changes no register. -/
theorem stepKeepsTheInvariants : Obligations.StepKeepsTheInvariants := by
  refine ⟨fun s t h ht => ?_, fun i s t h ht => h.ofExec ht⟩
  cases hevents : s.env.events with
  | nil =>
    rw [step_of_no_event hevents] at ht
    injection ht with ht
    rw [← ht]; exact h
  | cons e rest =>
    rw [step_of_event hevents] at ht
    exact (h.withPorts s.out { s.env with events := rest } s.res).ofExec ht

/-! ### Completion -/

/-- The operation ends normally (R270). -/
def Completes (i : Instr) (s : State) : Prop := ∃ t, exec i s = .next t

theorem exec_qTimer {s : State} {n : BitVec 32} (h : tmrGetrem s = .ok n) : exec .qTimer s = .next
    (emitQuery Ascii.m [.flag s.tArm, .number (Text.uintToText n.toNat (Text.uintDigits Ascii.m))] s) := by
  change execQTimer s = _
  rw [execQTimer, h]

/-- A setpoint assignment completes, accepted or not (R206). -/
theorem completes_aSp {value : List Byte} (s : State) (hvalue : value.all Ascii.isValueByte = true) :
    Completes (.aSp value) s := by
  cases hin : setpointAccepted (Text.textToFloat (value.take 7)) with
  | true => exact ⟨_, exec_aSp_accepted s hvalue rfl hin⟩
  | false => exact ⟨_, exec_aSp_rejected s hvalue rfl hin⟩

theorem completes_aTdur {value : List Byte} (s : State) (hvalue : value.all Ascii.isValueByte = true) :
    Completes (.aTdur value) s := by
  cases hin : durationAccepted (Text.textToFloat (value.take 7)) with
  | true => exact ⟨_, exec_aTdur_accepted s hvalue rfl hin⟩
  | false => exact ⟨_, exec_aTdur_capped s hvalue rfl hin⟩

/-- The staged duration lies in the domain of the start that it is for (R26, R217). -/
theorem Inv.completes_aTrun {value : List Byte} {s : State} (h : Inv s) (hvalue : value.all Ascii.isValueByte = true) :
    Completes (.aTrun value) s := by
  rw [Completes, exec_aTrun s hvalue rfl, show tmrStart s.tCfgDur s.tCfgAct s = _ from exec_tmrStart _ s h.stagedDuration]
  split_ifs <;> exact ⟨_, rfl⟩

/-- Every well-formed operation but a byte completes. -/
theorem Inv.completes_of_ne_cmdByte {i : Instr} {s : State} (h : Inv s) (hwf : i.wellFormed = true)
    (hbyte : ∀ b, i ≠ .cmdByte b) : Completes i s := by
  cases i with
  | cmdByte b => exact absurd rfl (hbyte b)
  | schedTick =>
    obtain ⟨u, int, perr, pout, env, ui, rpm, e, -⟩ := schedTick_effect s
    rw [Completes, e]
    exact tmrTick_completes (by decide) fun harm => (h.armedCount harm).1
  | tmrStart d act => exact ⟨_, exec_tmrStart act s hwf⟩
  | tmrTick p => exact tmrTick_completes hwf fun harm => (h.armedCount harm).1
  | tmrGetrem =>
    obtain ⟨n, hn⟩ := h.tmrGetrem_ok
    exact ⟨_, exec_tmrGetrem_ok hn⟩
  | qTimer =>
    obtain ⟨n, hn⟩ := h.tmrGetrem_ok
    exact ⟨_, exec_qTimer hn⟩
  | aSp value => exact completes_aSp s hwf
  | aKi value => exact ⟨_, exec_aKi s hwf rfl⟩
  | aCool value => exact ⟨_, exec_aCool s hwf rfl⟩
  | aHeat value => exact ⟨_, exec_aHeat s hwf rfl⟩
  | aKp value => exact ⟨_, exec_aKp s hwf rfl⟩
  | aKd value => exact ⟨_, exec_aKd s hwf rfl⟩
  | aOnoff value => exact ⟨_, exec_aOnoff s hwf rfl⟩
  | aTact value => exact ⟨_, exec_aTact s hwf rfl⟩
  | aTdur value => exact completes_aTdur s hwf
  | aTrun value => exact h.completes_aTrun hwf
  | aUnlock value => exact ⟨_, exec_aUnlock s hwf rfl⟩
  | _ => exact ⟨_, rfl⟩

/-- A frame that the parser holds has a code of its set, and its operation completes (R30). -/
theorem Inv.completes_cmdByte {s : State} (h : Inv s) (b : Byte) : Completes (.cmdByte b) s := by
  rw [Completes]
  by_cases hb : b = Ascii.sentinel
  · exact ⟨_, hb ▸ exec_cmdByte_sentinel s⟩
  · rw [cmdByte_of_ne_sentinel s hb]
    cases hstate : s.cState with
    | idle => exact ⟨_, parserStep_idle b hstate⟩
    | ready => exact ⟨_, parserStep_ready b hstate⟩
    | get =>
      rw [parserStep_get b hstate]
      split_ifs <;> exact ⟨_, rfl⟩
    | set =>
      rw [parserStep_set b hstate]
      split_ifs <;> exact ⟨_, rfl⟩
    | param =>
      obtain ⟨i, hi⟩ := Option.isSome_iff_exists.1 (h.queryCode hstate)
      obtain ⟨hwf, hframe⟩ := queryOf_spec hi
      rw [parserStep_param b hstate, dispatchQuery_eq _ hi]
      split_ifs
      · exact h.ofToIdle.completes_of_ne_cmdByte hwf (ne_cmdByte_of_encode hframe)
      · exact ⟨_, rfl⟩
    | value =>
      by_cases hchar : Ascii.isValueByte b = true
      · exact ⟨_, parserStep_value_char hstate hchar⟩
      · have hcode := h.assignCode hstate
        rw [isSome_assignOf _ [] (valueBuffer s)] at hcode
        obtain ⟨i, hi⟩ := Option.isSome_iff_exists.1 hcode
        obtain ⟨hwf, hframe⟩ := assignOf_spec hi
        rw [parserStep_value_end hstate hchar, dispatchAssign_eq _ hi]
        split_ifs
        · exact h.ofToIdle.completes_of_ne_cmdByte (hwf.trans h.bufferLegal) (ne_cmdByte_of_encode hframe)
        · exact ⟨_, rfl⟩

/-- Settles O17: a byte by the frame that it may complete, every other operation by its own rule. -/
theorem everyOperationCompletes : Obligations.EveryOperationCompletes := by
  intro i s h hwf
  by_cases hbyte : ∃ b, i = .cmdByte b
  · obtain ⟨b, rfl⟩ := hbyte
    exact h.completes_cmdByte b
  · exact h.completes_of_ne_cmdByte hwf fun b e => hbyte ⟨b, e⟩

end Sys2Proof.Machine

/-!
PROOFS. The statements on outputs of 20_memory.md and 43_command_port.md, and the one on the unlock flag: what an operation
appends to the trace. Each operation is taken once, and the statements read their part off what it appends.
-/

namespace Sys2Proof.Machine

/-! ### What is appended -/

/-- From `s` to `t` the trace only grows, by events in their ranges of which at most one is a line (R40, R57, R220). -/
def EmitsLegally (s t : State) : Prop :=
  ∃ new, t.out = s.out ++ new ∧ (∀ e ∈ new, e.inRange = true) ∧ (new.filter (fun e => e.isLine)).length ≤ 1

theorem EmitsLegally.of_silent {s t : State} (h : t.out = s.out) : EmitsLegally s t :=
  ⟨[], by rw [h, List.append_nil], by simp, by simp⟩

theorem EmitsLegally.of_one {e : OutEvent} {s t : State} (h : t.out = s.out ++ [e]) (he : e.inRange = true) :
    EmitsLegally s t :=
  ⟨[e], h, by simpa using he, List.length_filter_le _ _⟩

/-- An acknowledged event: the acknowledgement is the one line. -/
theorem EmitsLegally.of_two {e line : OutEvent} {s t : State} (h : t.out = s.out ++ [e] ++ [line])
    (he : e.inRange = true) (hline : line.inRange = true) (hother : e.isLine = false) : EmitsLegally s t :=
  ⟨[e, line], by rw [h]; simp, by simp [he, hline], by
    rw [List.filter_cons_of_neg (by simp [hother])]
    exact List.length_filter_le _ _⟩

theorem inRange_line {text : List Byte} (h : ∀ b ∈ text, b.toNat < 128) : (OutEvent.line text).inRange = true :=
  List.all_eq_true.2 fun b hb => decide_eq_true (h b hb)

theorem inRange_ack (code : Byte) (v : F64) : (OutEvent.line (Text.ackText code v)).inRange = true :=
  inRange_line (Text.ackText_lt code v)

theorem inRange_heaterCapErr : (OutEvent.line Text.heaterCapErrText).inRange = true :=
  inRange_line (Text.ascii_lt _)

theorem inRange_coolerSet {chars : List Byte} (h : coolerAccepted (Text.textToFloat chars) = true) :
    (OutEvent.coolerSet (Text.textToFloat chars)).inRange = true :=
  Bool.and_eq_true_iff.2 ⟨zero_le_textToFloat chars, h⟩

theorem inRange_heaterSet {chars : List Byte} (h : heaterAccepted (Text.textToFloat chars) = true) :
    (OutEvent.heaterSet (Text.textToFloat chars)).inRange = true :=
  Bool.and_eq_true_iff.2 ⟨zero_le_textToFloat chars, h⟩

theorem inRange_actWrite_zero : (OutEvent.actWrite Param.zero).inRange = true := inOutRange_zero

/-! ### Each operation -/

/-- A tick of the timer emits nothing, or the one command of a turn-off fire (R165). -/
theorem tmrTick_emits {p : Int} {s t : State} (h : tmrTick p s = .next t) :
    t.out = s.out ∨ t.out = s.out ++ [.actWrite Param.zero] := by
  obtain ⟨-, ⟨-, rfl⟩ | ⟨-, -, -, rfl⟩ | ⟨-, -, -, rfl⟩⟩ := tmrTick_cases h
  · exact .inl rfl
  · exact .inl rfl
  · obtain ⟨-, e⟩ | ⟨-, -, e⟩ | ⟨-, -, e⟩ := tmrAction_cases { s with tRem := BitVec.ofInt 32 (s.tRem.toInt - p) } <;>
      rw [e]
    · exact .inr rfl
    · exact .inl rfl
    · exact .inl rfl

theorem emitsLegally_tmrTick {p : Int} {s t : State} (h : tmrTick p s = .next t) : EmitsLegally s t := by
  obtain hout | hout := tmrTick_emits h
  · exact .of_silent hout
  · exact .of_one hout inRange_actWrite_zero

/-- A tick emits its command, the refresh on the ticks that are due one, and what the timer emits: no line (R250). -/
theorem emitsLegally_schedTick {s t : State} (h : exec .schedTick s = .next t) : EmitsLegally s t := by
  obtain ⟨u, int, perr, pout, env, ui, rpm, e, hu, -, hui, -⟩ := schedTick_effect s
  rw [e] at h
  have hrefresh : ui = [] ∨ ui = [.uiRefresh] := by
    rw [hui]
    split_ifs
    · exact .inr rfl
    · exact .inl rfl
  have hcommand : (OutEvent.actWrite u).inRange = true := hu
  have hr : OutEvent.uiRefresh.inRange = true := rfl
  obtain hout | hout := tmrTick_emits h
  · refine ⟨.actWrite u :: ui, by rw [hout]; simp, ?_, ?_⟩ <;> obtain rfl | rfl := hrefresh <;>
      simp [hcommand, hr, OutEvent.isLine]
  · refine ⟨.actWrite u :: ui ++ [.actWrite Param.zero], by rw [hout]; simp, ?_, ?_⟩ <;> obtain rfl | rfl := hrefresh <;>
      simp [hcommand, hr, OutEvent.isLine, inRange_actWrite_zero]

theorem emitsLegally_query {code : Byte} {i : Instr} {s t : State} (hi : queryOf code = some i)
    (h : exec i s = .next t) : EmitsLegally s t := by
  obtain ⟨text, env, rfl, htext, -⟩ := query_effect hi h
  exact .of_one rfl (inRange_line htext)

theorem emitsLegally_aOnoff {value : List Byte} {s t : State} (h : exec (.aOnoff value) s = .next t) :
    EmitsLegally s t := by
  obtain rfl | ⟨v, ⟨-, rfl⟩ | ⟨-, rfl⟩ | rfl⟩ := aOnoff_effect h
  · exact .of_silent rfl
  · exact .of_one rfl (inRange_ack _ v)
  · exact .of_one rfl (inRange_ack _ v)
  · exact .of_two rfl inRange_actWrite_zero (inRange_ack _ v) rfl

theorem emitsLegally_aTrun {value : List Byte} {s t : State} (h : exec (.aTrun value) s = .next t) :
    EmitsLegally s t := by
  obtain rfl | ⟨v, ⟨u, hu, rfl⟩ | rfl⟩ := aTrun_effect h
  · exact .of_silent rfl
  · obtain ⟨-, rfl⟩ := tmrStart_cases hu
    exact .of_one rfl (inRange_ack _ v)
  · exact .of_one rfl (inRange_ack _ v)

/-- Every operation but a byte, by what it does when it completes. -/
theorem emitsLegally_of_ne_cmdByte {i : Instr} {s t : State} (h : exec i s = .next t) (hbyte : ∀ b, i ≠ .cmdByte b) :
    EmitsLegally s t := by
  cases i with
  | cmdByte b => exact absurd rfl (hbyte b)
  | schedTick => exact emitsLegally_schedTick h
  | tmrTick p => exact emitsLegally_tmrTick h
  | reset v | filtInit v | filtUpd v | pidSetkp v | pidSetki v | pidSetkd v | pidOn | tmrAbort =>
    injection h with h
    exact .of_silent (by rw [← h]; rfl)
  | pidSetsp v =>
    injection h with h
    refine .of_silent ?_
    rw [← h, pidSetsp]
    split_ifs <;> rfl
  | pidOff =>
    injection h with h
    exact .of_one (by rw [← h]; rfl) inRange_actWrite_zero
  | pidUpd m =>
    obtain ⟨int, perr, pout, env, e, -⟩ := pidUpd_state m s
    rw [exec_pidUpd, e] at h
    injection h with h
    exact .of_silent (by rw [← h]; rfl)
  | tmrStart d act =>
    obtain ⟨-, rfl⟩ := tmrStart_cases h
    exact .of_silent rfl
  | tmrGetrem =>
    change execTmrGetrem s = _ at h
    rw [execTmrGetrem] at h
    split at h
    · injection h with h
      exact .of_silent (by rw [← h]; rfl)
    · cases h
  | qTemp => exact emitsLegally_query (code := Ascii.t) rfl h
  | qCool => exact emitsLegally_query (code := Ascii.c) rfl h
  | qHeat => exact emitsLegally_query (code := Ascii.a) rfl h
  | qKp => exact emitsLegally_query (code := Ascii.p) rfl h
  | qKi => exact emitsLegally_query (code := Ascii.i) rfl h
  | qKd => exact emitsLegally_query (code := Ascii.d) rfl h
  | qOnoff => exact emitsLegally_query (code := Ascii.s) rfl h
  | qSp => exact emitsLegally_query (code := Ascii.g) rfl h
  | qRpm => exact emitsLegally_query (code := Ascii.r) rfl h
  | qTimer => exact emitsLegally_query (code := Ascii.m) rfl h
  | aSp value =>
    obtain rfl | ⟨v, -, rfl⟩ := aSp_effect h
    · exact .of_silent rfl
    · exact .of_one rfl (inRange_ack _ v)
  | aKi value =>
    obtain ⟨v, rfl⟩ := aKi_effect h
    exact .of_one rfl (inRange_ack _ v)
  | aKp value =>
    obtain ⟨v, rfl⟩ := aKp_effect h
    exact .of_one rfl (inRange_ack _ v)
  | aKd value =>
    obtain ⟨v, rfl⟩ := aKd_effect h
    exact .of_one rfl (inRange_ack _ v)
  | aCool value =>
    obtain ⟨-, rfl | ⟨v, hv, haccepted, rfl⟩⟩ := aCool_effect h
    · exact .of_silent rfl
    · exact .of_two rfl (hv ▸ inRange_coolerSet (hv ▸ haccepted)) (inRange_ack _ v) rfl
  | aHeat value =>
    obtain ⟨-, rfl | ⟨v, hv, haccepted, rfl⟩⟩ := aHeat_effect h
    · exact .of_one rfl inRange_heaterCapErr
    · exact .of_two rfl (hv ▸ inRange_heaterSet (hv ▸ haccepted)) (inRange_ack _ v) rfl
  | aOnoff value => exact emitsLegally_aOnoff h
  | aTact value =>
    obtain rfl | ⟨v, b, rfl⟩ := aTact_effect h
    · exact .of_silent rfl
    · exact .of_one rfl (inRange_ack _ v)
  | aTdur value =>
    obtain ⟨-, rfl | ⟨v, -, rfl⟩⟩ := aTdur_effect h
    · exact .of_silent rfl
    · exact .of_one rfl (inRange_ack _ v)
  | aTrun value => exact emitsLegally_aTrun h
  | aUnlock value =>
    obtain rfl | ⟨v, -, rfl⟩ := aUnlock_effect h
    · exact .of_silent rfl
    · exact .of_one rfl (inRange_ack _ v)

/-- A byte that changes more than the parser completes a frame: it is the TERMINATOR after a code, and runs from Idle the
operation of that frame, which is no byte and no `RESET` (R192). -/
theorem cmdByte_portOnly_or_frame {b : Byte} {s t : State} (h : exec (.cmdByte b) s = .next t) :
    PortOnly s t ∨ ((b = Ascii.terminator ∧ (s.cState = .param ∨ s.cState = .value)) ∧
      ∃ i f, encode i = some f ∧ exec i (toIdle s) = .next t) := by
  obtain hport | ⟨hend, i, hi, ⟨hstate, hq⟩ | ⟨hstate, ha⟩⟩ := cmdByte_effect h
  · exact .inl hport
  · exact .inr ⟨⟨hend, .inl hstate⟩, i, _, (queryOf_spec hq).2, hi⟩
  · exact .inr ⟨⟨hend, .inr hstate⟩, i, _, (assignOf_spec ha).2, hi⟩

theorem emitsLegally_of_exec {i : Instr} {s t : State} (h : exec i s = .next t) : EmitsLegally s t := by
  by_cases hbyte : ∃ b, i = .cmdByte b
  · obtain ⟨b, rfl⟩ := hbyte
    obtain hport | ⟨-, j, f, hf, hj⟩ := cmdByte_portOnly_or_frame h
    · exact .of_silent (by rw [hport])
    · exact emitsLegally_of_ne_cmdByte (s := toIdle s) hj (ne_cmdByte_of_encode hf)
  · exact emitsLegally_of_ne_cmdByte h fun b e => hbyte ⟨b, e⟩

/-! ### The statements -/

/-- Settles O18: every operation emits legally. -/
theorem outputsStayInRange : Obligations.OutputsStayInRange := by
  intro i s t h
  obtain ⟨new, hout, hrange, -⟩ := emitsLegally_of_exec h
  exact ⟨new, hout, hrange⟩

/-- Settles O19: a byte that completes no frame keeps the trace, and every operation emits legally. -/
theorem onlyCompleteFramesEmit : Obligations.OnlyCompleteFramesEmit := by
  refine ⟨fun b s t h hne => ?_, fun i s t h => ?_⟩
  · obtain hport | ⟨hframe, -⟩ := cmdByte_portOnly_or_frame h
    · exact absurd (by rw [hport]) hne
    · exact hframe
  · obtain ⟨new, hout, -, hlines⟩ := emitsLegally_of_exec h
    exact ⟨new, hout, hlines⟩

/-- No footprint but those of `RESET`, `CMD.BYTE` and `A_UNLOCK` holds the flag of the new state, and `A_UNLOCK` sets it. -/
theorem cUnlock_of_exec {i : Instr} {s t : State} (h : exec i s = .next t) (hreset : ∀ seed, i ≠ .reset seed)
    (hbyte : ∀ b, i ≠ .cmdByte b) : t.cUnlock = s.cUnlock ∨ (t.cUnlock = true ∧ ∃ value, i = .aUnlock value) := by
  cases i with
  | reset seed => exact absurd rfl (hreset seed)
  | cmdByte b => exact absurd rfl (hbyte b)
  | aUnlock value =>
    obtain rfl | ⟨v, -, rfl⟩ := aUnlock_effect h
    · exact .inl rfl
    · exact .inr ⟨rfl, value, rfl⟩
  | _ =>
    rw [exec_footprint h]
    exact .inl rfl

/-- The flag stays set under every operation but a `RESET` and a byte. -/
theorem cUnlock_stays {i : Instr} {s t : State} (h : exec i s = .next t) (hreset : ∀ seed, i ≠ .reset seed)
    (hbyte : ∀ b, i ≠ .cmdByte b) (hset : s.cUnlock = true) : t.cUnlock = true := by
  obtain hsame | ⟨hset', -⟩ := cUnlock_of_exec h hreset hbyte
  · exact hsame.trans hset
  · exact hset'

/-- Settles O20: no frame is a `RESET`, so what a byte dispatches does not clear the flag either. -/
theorem unlockChangesOnlyAsStated : Obligations.UnlockChangesOnlyAsStated := by
  intro i s t h
  refine ⟨fun hset => ?_, fun hclear hunlock hbyte => ?_⟩
  · by_cases hreset : ∃ seed, i = .reset seed
    · exact .inr hreset
    by_cases hbyte : ∃ b, i = .cmdByte b
    · obtain ⟨b, rfl⟩ := hbyte
      obtain hport | ⟨-, j, f, hf, hj⟩ := cmdByte_portOnly_or_frame h
      · exact .inl (by rw [hport]; exact hset)
      · have hframe : ∀ seed, j ≠ .reset seed := by rintro seed rfl; cases hf
        exact .inl (cUnlock_stays hj hframe (ne_cmdByte_of_encode hf) hset)
    · exact .inl (cUnlock_stays h (fun seed e => hreset ⟨seed, e⟩) (fun b e => hbyte ⟨b, e⟩) hset)
  · cases i with
    | reset seed =>
      injection h with h
      rw [← h]
    | _ =>
      obtain hsame | ⟨-, value, e⟩ := cUnlock_of_exec h (by simp) hbyte
      · exact hsame.trans hclear
      · exact absurd e (hunlock value)

end Sys2Proof.Machine

/-!
PROOFS. The statements of 00_scope.md on binary64 arithmetic (R8): when a sum and a product are a NaN, what they round to
otherwise, and the order of the values that are no NaN, the infinities at its ends.
-/

namespace Sys2Proof.F64

/-! ### Zeros and infinities by their bits -/

theorem inf_eq_bits (neg : Bool) : inf neg = ⟨if neg then 0xFFF0000000000000 else 0x7FF0000000000000⟩ := by
  cases neg <;> decide

theorem zero_eq_bits (neg : Bool) : zero neg = ⟨if neg then 0x8000000000000000 else 0⟩ := by cases neg <;> decide

/-- The infinity of a product's sign. -/
theorem inf_bne_eq_bits (p q : Bool) : inf (p != q) = ⟨if p = q then 0x7FF0000000000000 else 0xFFF0000000000000⟩ := by
  cases p <;> cases q <;> decide

/-- A result of rounding is finite exactly below the overflow midpoint (R8, G2). -/
theorem isFinite_roundUnits_iff (neg : Bool) (n d : Nat) (hd : 0 < d) :
    (roundUnits neg n d).isFinite = true ↔ n < Machine.overflowUnits * d := by
  unfold Machine.overflowUnits
  rw [isFinite_roundUnits_iff_mag]
  exact roundMag_lt_infMag_iff n d hd

theorem overflowUnits_pos : 0 < Machine.overflowUnits := by
  have h : (roundUnits false 0 1).isFinite = true := by decide +kernel
  simpa using (isFinite_roundUnits_iff false 0 1 Nat.one_pos).1 h

/-- A zero is the finite pattern whose value is 0. -/
theorem isZero_iff (x : F64) : x.isZero = true ↔ x.isFinite = true ∧ x.value = 0 := by
  have hinf : 0 < infMag := by decide
  have hunits : x.value = 0 ↔ x.mag = 0 := by
    rw [← Int.natAbs_eq_zero, natAbs_value, units_eq]
    exact ⟨fun h => unitsOf_strictMono.injective (h.trans unitsOf_zero.symm), fun h => by rw [h, unitsOf_zero]⟩
  rw [hunits]
  simp only [isZero, isFinite, beq_iff_eq, decide_eq_true_eq]
  omega

/-! ### Sums -/

/-- The operands that have no sum: a NaN, or infinities of opposite sign (R8, G2). -/
def NoSum (a b : F64) : Prop := a.isNaN = true ∨ b.isNaN = true ∨ (a.isInf = true ∧ b.isInf = true ∧ a.sign ≠ b.sign)

theorem addOr_of_noSum {a b : F64} (nan : F64) (h : NoSum a b) : addOr nan a b = nan := by
  obtain ha | hb | ⟨ha, hb, hs⟩ := h
  · simp [addOr, ha]
  · simp [addOr, hb]
  · simp [addOr, ha, hb, hs]

/-- Operands that have a sum have one that is no NaN and does not depend on the free NaN. -/
theorem addOr_of_sum {a b : F64} (nan : F64) (h : ¬ NoSum a b) :
    (addOr nan a b).isNaN = false ∧ ∀ nan', addOr nan' a b = addOr nan a b := by
  simp only [NoSum, not_or, not_and, Bool.not_eq_true, ne_eq, not_not] at h
  obtain ⟨ha, hb, hs⟩ := h
  cases hai : a.isInf with
  | true =>
    cases hbi : b.isInf with
    | true => simp [addOr, ha, hb, hai, hbi, hs hai hbi]
    | false => simp [addOr, ha, hb, hai, hbi]
  | false =>
    cases hbi : b.isInf with
    | true => simp [addOr, ha, hb, hai, hbi]
    | false =>
      simp only [addOr, ha, hb, hai, hbi, Bool.or_false, Bool.false_eq_true, if_false, implies_true, and_true]
      split_ifs
      · exact isNaN_zero_signed _
      · exact isNaN_roundUnits _ _ _

theorem isNaN_addOr_iff {nan : F64} (a b : F64) (hnan : nan.isNaN = true) :
    (addOr nan a b).isNaN = true ↔ NoSum a b := by
  by_cases h : NoSum a b
  · simp [addOr_of_noSum nan h, hnan, h]
  · simp [(addOr_of_sum nan h).1, h]

theorem isNaN_add_iff (a b : F64) : (add a b).isNaN = true ↔ NoSum a b := isNaN_addOr_iff a b (isNaN_quietNaN _)

theorem isNaN_sub_iff (a b : F64) : (sub a b).isNaN = true ↔ NoSum a b.neg := isNaN_addOr_iff a b.neg (isNaN_quietNaN _)

/-- Settles O3: both are `addOr` at the same operands, which looks at the free NaN only where there is no sum. -/
theorem subIsAddOfTheNegated : Obligations.SubIsAddOfTheNegated := by
  intro a b
  refine ⟨?_, fun hnum => ?_, sign_neg b, isNaN_neg b, isInf_neg b, fun hb => ⟨(isFinite_neg b).trans hb, value_neg b⟩⟩
  · rw [Bool.eq_iff_iff, isNaN_sub_iff, isNaN_add_iff]
  · have hsum : ¬ NoSum a b.neg := fun h => by simp [(isNaN_sub_iff a b).2 h] at hnum
    exact (addOr_of_sum _ hsum).2 _

/-- The sum of finite operands is finite exactly below the overflow midpoint. -/
theorem isFinite_add_iff {a b : F64} (ha : a.isFinite = true) (hb : b.isFinite = true) :
    (add a b).isFinite = true ↔ (a.value + b.value).natAbs < Machine.overflowUnits := by
  rw [add_of_finite ha hb]
  split_ifs with hz
  · simpa [hz] using overflowUnits_pos
  · rw [isFinite_roundUnits_iff _ _ 1 Nat.one_pos, Nat.mul_one]

/-- The rounded quantity, by its sign and its magnitude. -/
theorem eq_signed_natAbs (z : Int) : z = if decide (z < 0) = true then -(z.natAbs : Int) else z.natAbs := by
  simp only [decide_eq_true_eq]
  split_ifs <;> omega

/-- A finite sum is a nearest value to the exact sum, and an even pattern on a tie. -/
theorem add_nearest {a b : F64} (ha : a.isFinite = true) (hb : b.isFinite = true) (hf : (add a b).isFinite = true)
    (c : F64) :
    ((add a b).value - (a.value + b.value)).natAbs ≤ (c.value - (a.value + b.value)).natAbs ∧
    (((add a b).value - (a.value + b.value)).natAbs = (c.value - (a.value + b.value)).natAbs →
      c.value ≠ (add a b).value → (add a b).mag % 2 = 0) := by
  rw [add_of_finite ha hb] at hf ⊢
  split_ifs at hf ⊢ with hz
  · rw [hz, value_zero_signed, Int.sub_zero, Int.sub_zero]
    exact ⟨Nat.zero_le _, fun htie hne => absurd (Int.natAbs_eq_zero.1 htie.symm) hne⟩
  · have hnear := roundUnits_nearest _ _ 1 Nat.one_pos _ (eq_signed_natAbs _) hf c
    rwa [Nat.cast_one, Int.mul_one, Int.mul_one] at hnear

/-- A sum that overflows is the infinity with the sign of the exact sum. -/
theorem add_of_overflow {a b : F64} (ha : a.isFinite = true) (hb : b.isFinite = true)
    (h : (add a b).isFinite = false) : add a b = inf (decide (a.value + b.value < 0)) := by
  rw [add_of_finite ha hb] at h ⊢
  split_ifs at h ⊢
  · rw [isFinite_zero_signed] at h; cases h
  · exact roundUnits_of_not_finite h

theorem add_of_inf_left {a b : F64} (ha : a.isInf = true) (hsum : ¬ NoSum a b) : add a b = a := by
  simp only [NoSum, not_or, not_and, Bool.not_eq_true, ne_eq, not_not] at hsum
  obtain ⟨han, hbn, hs⟩ := hsum
  cases hb : b.isInf with
  | true => simp [add, addOr, han, hbn, ha, hb, hs ha hb]
  | false => simp [add, addOr, han, hbn, ha, hb]

theorem add_of_inf_right {a b : F64} (hb : b.isInf = true) (hsum : ¬ NoSum a b) : add a b = b := by
  cases ha : a.isInf with
  | true =>
    have hs : a.sign = b.sign := by_contra fun hne => hsum (.inr (.inr ⟨ha, hb, hne⟩))
    rw [add_of_inf_left ha hsum, eq_inf_of_isInf ha, hs, ← eq_inf_of_isInf hb]
  | false =>
    simp only [NoSum, not_or, Bool.not_eq_true] at hsum
    obtain ⟨han, hbn, -⟩ := hsum
    simp [add, addOr, han, hbn, ha, hb]

/-- Settles O2: operands that have a sum round once, to nearest. -/
theorem addRoundsToNearestTiesToEven : Obligations.AddRoundsToNearestTiesToEven := by
  intro a b
  refine ⟨fun ha hb => ⟨isFinite_add_iff ha hb, fun hf c _ => add_nearest ha hb hf c, fun hf => ?_, fun hz => ?_⟩,
    isNaN_add_iff a b, fun ha hnum => ?_, fun hb hnum => ?_⟩
  · rw [add_of_overflow ha hb hf, inf_eq_bits]
    simp only [decide_eq_true_eq]
  · rw [add_of_finite ha hb, if_pos hz, zero_eq_bits]
  · exact add_of_inf_left ha fun h => by simp [(isNaN_add_iff a b).2 h] at hnum
  · exact add_of_inf_right hb fun h => by simp [(isNaN_add_iff a b).2 h] at hnum

/-! ### Products -/

/-- The operands that have no product: a NaN, or an infinity and a zero (R8, G2). -/
def NoProduct (a b : F64) : Prop :=
  a.isNaN = true ∨ b.isNaN = true ∨ (a.isInf = true ∧ b.isZero = true) ∨ (b.isInf = true ∧ a.isZero = true)

theorem isZero_of_isInf {x : F64} (h : x.isInf = true) : x.isZero = false :=
  Bool.eq_false_iff.2 fun hz => by simp [finite_not_inf ((isZero_iff x).1 hz).1] at h

theorem isNaN_mul_of_noProduct {a b : F64} (h : NoProduct a b) : (mul a b).isNaN = true := by
  obtain ha | hb | ⟨ha, hb⟩ | ⟨hb, ha⟩ := h
  · exact isNaN_mul_of_nan (.inl ha)
  · exact isNaN_mul_of_nan (.inr hb)
  all_goals simp [mul, ha, hb]

/-- An infinity times a value other than zero is the infinity of the product's sign. -/
theorem mul_of_inf {a b : F64} (hinf : a.isInf = true ∨ b.isInf = true) (h : ¬ NoProduct a b) :
    mul a b = inf (a.sign != b.sign) := by
  simp only [NoProduct, not_or, not_and, Bool.not_eq_true] at h
  obtain ⟨ha, hb, hab, hba⟩ := h
  obtain hi | hi := hinf
  · simp [mul, ha, hb, hi, isZero_of_isInf hi, hab hi]
  · simp [mul, ha, hb, hi, isZero_of_isInf hi, hba hi]

/-- Operands that have a product have one that is no NaN. -/
theorem isNaN_mul_iff (a b : F64) : (mul a b).isNaN = true ↔ NoProduct a b := by
  refine ⟨fun hnan => by_contra fun h => ?_, isNaN_mul_of_noProduct⟩
  by_cases hinf : a.isInf = true ∨ b.isInf = true
  · rw [mul_of_inf hinf h, isNaN_inf] at hnan
    cases hnan
  · simp only [NoProduct, not_or, Bool.not_eq_true] at h hinf
    obtain ⟨ha, hb, -⟩ := h
    simp [mul, ha, hb, hinf] at hnan

/-- The sign of an exact product is negative exactly when the signs differ. -/
theorem value_mul_value (a b : F64) : a.value * b.value =
    if (a.sign != b.sign) = true then -((a.units * b.units : Nat) : Int) else (a.units * b.units : Nat) := by
  simp only [value]
  cases a.sign <;> cases b.sign <;> simp

/-- The product of finite operands is finite exactly below the overflow midpoint, in units of 2^-2148. -/
theorem isFinite_mul_iff {a b : F64} (ha : a.isFinite = true) (hb : b.isFinite = true) :
    (mul a b).isFinite = true ↔ (a.value * b.value).natAbs < Machine.overflowUnits * unitsPerOne := by
  rw [mul_of_finite ha hb, isFinite_roundUnits_iff _ _ _ unitsPerOne_pos, Int.natAbs_mul, natAbs_value, natAbs_value]

/-- Settles O4: operands that have a product round once, to nearest, with the sign of their signs. -/
theorem mulRoundsToNearestTiesToEven : Obligations.MulRoundsToNearestTiesToEven := by
  intro a b
  refine ⟨fun ha hb => ⟨isFinite_mul_iff ha hb, fun hf c _ => ?_, ?_, fun hf => ?_⟩, ?_, fun hinf hnum => ?_⟩
  · rw [mul_of_finite ha hb] at hf ⊢
    exact roundUnits_nearest _ _ _ unitsPerOne_pos _ (value_mul_value a b) hf c
  · rw [mul_of_finite ha hb, sign_roundUnits]
  · rw [mul_of_finite ha hb] at hf ⊢
    rw [roundUnits_of_not_finite hf, inf_bne_eq_bits]
  · rw [isNaN_mul_iff, NoProduct, isZero_iff, isZero_iff]
  · rw [mul_of_inf hinf fun h => by simp [isNaN_mul_of_noProduct h] at hnum, inf_bne_eq_bits]

/-! ### The order -/

theorem key_inf (neg : Bool) : (inf neg).key = if neg then -(infMag : Int) else infMag := by cases neg <;> decide

theorem natAbs_key (x : F64) : x.key.natAbs = x.mag := by
  simp only [key]
  split_ifs <;> omega

theorem key_of_sign_false {x : F64} (h : x.sign = false) : x.key = (x.mag : Int) := by simp [key, h]

/-- A value of at least 0.0 is its magnitude; negative zero is one. -/
theorem value_of_nonneg {x : F64} (h : le Param.zero x = true) : x.value = (x.units : Int) := by
  obtain ⟨-, hs | hm⟩ := (zero_le_iff x).1 h
  · exact value_of_sign_false hs
  · have hu : x.units = 0 := by rw [units_eq, hm, unitsOf_zero]
    rw [value, hu]; simp

/-- The keys of the values that are no NaN lie between those of the infinities. -/
theorem key_bounds {x : F64} (h : x.isNaN = false) : -(infMag : Int) ≤ x.key ∧ x.key ≤ infMag := by
  have hmag : x.mag ≤ infMag := by simpa [isNaN] using h
  have := natAbs_key x
  omega

/-- Among these keys an infinity's is its own alone. -/
theorem key_eq_key_inf_iff (x : F64) (neg : Bool) : x.key = (inf neg).key ↔ x = inf neg := by
  refine ⟨fun h => ?_, fun h => by rw [h]⟩
  have hpos : 0 < infMag := by decide
  rw [key_inf] at h
  refine ext_sign_mag ?_ ?_
  · rw [sign_inf]
    simp only [key] at h
    cases hs : x.sign <;> cases neg <;> simp [hs] at h ⊢ <;> omega
  · rw [← natAbs_key, h, inf, mag_ofMag _ _ infMag_lt]
    split_ifs <;> simp

theorem isInf_iff (x : F64) : x.isInf = true ↔ x = inf false ∨ x = inf true := by
  refine ⟨fun h => ?_, fun h => by obtain rfl | rfl := h <;> exact isInf_inf _⟩
  have he := eq_inf_of_isInf h
  cases hs : x.sign <;> rw [hs] at he
  · exact .inl he
  · exact .inr he

theorem eq_iff_of_not_nan {a b : F64} (ha : a.isNaN = false) (hb : b.isNaN = false) :
    eq a b = true ↔ a.key = b.key := by simp [eq, ha, hb]

theorem compare_of_nan {a b : F64} (h : a.isNaN = true ∨ b.isNaN = true) :
    lt a b = false ∧ le a b = false ∧ eq a b = false := by
  obtain h | h := h <;> simp [lt, le, eq, h]

/-- Settles O5: the keys order the values, with the infinities' at the ends. -/
theorem comparisonsOrderValuesAndFailOnNaN : Obligations.ComparisonsOrderValuesAndFailOnNaN := by
  intro a b pos neg hpos hneg
  obtain rfl : pos = inf false := hpos.trans (inf_eq_bits false).symm
  obtain rfl : neg = inf true := hneg.trans (inf_eq_bits true).symm
  refine ⟨isInf_iff a, ?_, finite_not_inf, compare_of_nan, fun ha hb => ?_, fun ha => ?_⟩
  · obtain ⟨h1, h2, h3⟩ | ⟨h1, h2, h3⟩ | ⟨h1, h2, h3⟩ := class_cases a <;> simp [h1, h2, h3]
  · rw [lt_iff_of_not_nan (finite_not_nan ha) (finite_not_nan hb), le_iff_of_not_nan (finite_not_nan ha) (finite_not_nan hb),
      eq_iff_of_not_nan (finite_not_nan ha) (finite_not_nan hb), value_lt_iff_key_lt, value_le_iff_key_le,
      value_eq_iff_key_eq]
    exact ⟨Iff.rfl, Iff.rfl, Iff.rfl⟩
  · have hp := isNaN_inf false
    have hn := isNaN_inf true
    have hbounds := key_bounds ha
    have kp : (inf false).key = infMag := key_inf false
    have kn : (inf true).key = -(infMag : Int) := key_inf true
    simp only [← Bool.not_eq_true, le_iff_of_not_nan, lt_iff_of_not_nan, eq_iff_of_not_nan, ha, hp, hn, kp, kn, ne_eq,
      ← key_eq_key_inf_iff, true_and]
    omega

end Sys2Proof.F64

/-!
PROOFS. Statements of 41_pid.md and 42_timer.md: the range of an update, the shut gate and a NaN measurement; the start of
the timer and the tick on which it fires.
-/

namespace Sys2Proof.F64

theorem lt_eq_false_of_le {a b : F64} (h : le a b = true) : lt b a = false := by
  simp only [le, lt, Bool.and_eq_true, decide_eq_true_eq, Bool.and_eq_false_iff, decide_eq_false_iff_not] at *
  omega

theorem le_eq_false_of_lt {a b : F64} (h : lt a b = true) : le b a = false := by
  simp only [le, lt, Bool.and_eq_true, decide_eq_true_eq, Bool.and_eq_false_iff, decide_eq_false_iff_not] at *
  omega

end Sys2Proof.F64

namespace Sys2Proof.Machine

/-! ### The update -/

/-- Settles O32: the answer is the clamp's, or zero. -/
theorem pidOutputStaysInRange : Obligations.PidOutputStaysInRange := by
  intro m s
  obtain ⟨h0, h100⟩ := (inOutRange_iff _).1 (pidUpd_inRange m s)
  exact ⟨_, _, exec_pidUpd m s, rfl, h0, h100, fun hoff => by rw [pidUpd_disabled m hoff, zero_eq_bits]⟩

/-- The gate is shut at 100.0 and above, below 0.0 and on a NaN (R138). -/
theorem gateOpen_eq_false {p : F64}
    (h : F64.le (F64.ofRatio 100 1) p = true ∨ F64.lt p ⟨0⟩ = true ∨ p.isNaN = true) : gateOpen p = false := by
  rw [Bool.eq_false_iff, ne_eq, gateOpen_iff]
  rintro ⟨hmin, hmax⟩
  obtain h | h | h := h
  · rw [F64.lt_eq_false_of_le h] at hmax; cases hmax
  · rw [F64.le_eq_false_of_lt h] at hmin; cases hmin
  · rw [(F64.compare_of_nan (.inl h)).1] at hmax; cases hmax

/-- With the gate shut an update keeps the integral, on or off (R139, R141). -/
theorem pidUpd_keeps_integral {s : State} (m : F64) (h : gateOpen s.pPout = false) : (pidUpd m s).2.pInt = s.pInt := by
  cases hen : s.pEn with
  | false => rw [pidUpd_disabled m hen]
  | true =>
    rw [pidUpd_enabled m hen, clamp_state]
    exact if_neg (by simp [h])

/-- Settles O33: the next update reads the gate off the unclamped output that the first one stored. -/
theorem saturatedUpdateFreezesTheIntegral : Obligations.SaturatedUpdateFreezesTheIntegral := by
  intro m m' s t t' _ hsaturated h
  rw [exec_pidUpd] at h
  injection h with h
  rw [← h]
  exact pidUpd_keeps_integral m' (gateOpen_eq_false hsaturated)

/-- Settles O34: the error is a NaN, and so is every sum and product that it enters. -/
theorem naNMeasurementPoisonsTheController : Obligations.NaNMeasurementPoisonsTheController := by
  intro m s hon hnan
  have herr : (pidError m s).isNaN = true := F64.isNaN_sub_of_nan (.inr hnan)
  have hraw : (pidRaw m s).isNaN = true :=
    F64.isNaN_add_of_nan (.inl (F64.isNaN_add_of_nan (.inl (F64.isNaN_mul_of_nan (.inr herr)))))
  refine ⟨_, exec_pidUpd_enabled m hon, herr, hraw, ?_, ?_⟩ <;> rw [← gateOpen_iff] <;> intro hgate
  · have hint : pidIntegral m s = F64.add s.pInt (pidError m s) := if_pos hgate
    exact hint ▸ F64.isNaN_add_of_nan (.inr herr)
  · exact if_neg hgate

/-! ### The start -/

theorem thousand_eq_ofRatio : Param.thousand = F64.ofRatio 1000 1 := by decide +kernel

theorem durationInDomain_iff (d : F64) :
    durationInDomain d = true ↔ F64.le ⟨0⟩ d = true ∧ F64.le d (F64.ofRatio 599940 1) = true := by
  rw [durationInDomain, zero_eq_bits, durMaxS_eq_ofRatio, Bool.and_eq_true]

theorem millisOf_eq (d : F64) : millisOf d = (F64.mul d (F64.ofRatio 1000 1)).toIntTiesEven := by
  rw [millisOf, thousand_eq_ofRatio]

/-- Settles O35: the count fits the register, so the register holds the rounded product itself. -/
theorem tmrStartArmsWithRoundedMilliseconds : Obligations.TmrStartArmsWithRoundedMilliseconds := by
  intro d act s
  rw [← durationInDomain_iff]
  refine ⟨fun hd => ?_, fun hd => exec_tmrStart_refused act s (Bool.eq_false_iff.2 hd)⟩
  obtain ⟨hfinite, -⟩ := durationProduct_spec hd
  obtain ⟨h0, hmax⟩ := millisOf_range hd
  have hrem : (BitVec.ofInt 32 (millisOf d)).toInt = millisOf d := toInt_ofInt32 _ (by omega) (by omega)
  refine ⟨BitVec.ofInt 32 (millisOf d), F64.mul d (F64.ofRatio 1000 1), rfl, thousand_eq_ofRatio ▸ hfinite,
    exec_tmrStart act s hd, ?_⟩
  rw [hrem]
  refine ⟨millisOf_eq d, ?_, h0, hmax⟩
  rw [millisOf_eq]
  exact F64.toIntTiesEven_nearest _

/-! ### The tick on which a timer fires -/

/-- As long as something is left, each tick takes one period off the count, by induction on the ticks (R166). -/
theorem execAll_tmrTick_counts {p : Int} (hp : periodInDomain p = true) (k : Nat) :
    ∀ s : State, s.tArm = true → (k = 0 ∨ 0 < s.tRem.toInt - k * p) →
      execAll (List.replicate k (.tmrTick p)) s = .next { s with tRem := BitVec.ofInt 32 (s.tRem.toInt - k * p) } := by
  obtain ⟨hperiod, -⟩ := (periodInDomain_iff p).1 hp
  induction k with
  | zero =>
    intro s _ _
    have hsame : BitVec.ofInt 32 (s.tRem.toInt - (0 : Nat) * p) = s.tRem := by simp
    rw [hsame]; rfl
  | succ k ih =>
    intro s harm hleft
    have hsplit : ((k + 1 : Nat) : Int) * p = k * p + p := by push_cast; ring
    have hrest : 0 ≤ (k : Int) * p := by positivity
    rw [hsplit] at hleft ⊢
    have hrem : (BitVec.ofInt 32 (s.tRem.toInt - p)).toInt = s.tRem.toInt - p :=
      toInt_ofInt32 _ (by omega) (by have := s.tRem.toInt_lt; omega)
    rw [List.replicate_succ, execAll_of_next (exec_tmrTick_counts hp harm (by omega) (by omega)),
      ih { s with tRem := BitVec.ofInt 32 (s.tRem.toInt - p) } harm (.inr (by rw [hrem]; omega)), hrem,
      show s.tRem.toInt - p - k * p = s.tRem.toInt - (k * p + p) by omega]

/-- A fire leaves the controller as the action says, whatever it was (R165). -/
theorem tmrTick_fires_action {p : Int} {s : State} (hp : periodInDomain p = true) (harm : s.tArm = true)
    (hcount : 0 ≤ s.tRem.toInt) (hdue : s.tRem.toInt ≤ p) : ∃ t, tmrTick p s = .next t ∧
      t.tArm = false ∧ t.pEn = s.tAct ∧ t.out = s.out ++ (if s.tAct then [] else [.actWrite ⟨0⟩]) := by
  obtain ⟨t, ht⟩ := tmrTick_completes hp fun _ => hcount
  refine ⟨t, ht, ?_⟩
  cases hact : s.tAct with
  | false =>
    obtain ⟨hout, hen, -, hdisarmed⟩ := tmrTick_turnsOff ht harm hdue hact
    exact ⟨hdisarmed, hen, hout⟩
  | true =>
    obtain ⟨hout, hen, -, hdisarmed⟩ := tmrTick_turnsOn ht harm hdue hact
    exact ⟨hdisarmed, hen, by rw [hout]; simp⟩

/-- Before the `max(1, ceil(ms / p))`-th tick something is left, and on it no more than one period. -/
theorem ticks_left {p ms : Nat} (hp : 1 ≤ p) :
    (∀ k < max 1 ((ms + p - 1) / p), k = 0 ∨ k * p < ms) ∧ ms ≤ max 1 ((ms + p - 1) / p) * p := by
  constructor
  · intro k hk
    obtain rfl | hpos := Nat.eq_zero_or_pos k
    · exact .inl rfl
    · have hle : k + 1 ≤ (ms + p - 1) / p := by omega
      have := (Nat.le_div_iff_mul_le hp).1 hle
      rw [Nat.add_mul, Nat.one_mul] at this
      exact .inr (by omega)
  · have hlt : ms + p - 1 < (max 1 ((ms + p - 1) / p) + 1) * p :=
      (Nat.div_lt_iff_lt_mul hp).1 (by omega)
    rw [Nat.add_mul, Nat.one_mul] at hlt
    omega

/-- The count after `k` such ticks, which the register still holds. -/
theorem execAll_tmrTick_left {p ms k : Nat} {s : State} (hp : periodInDomain p = true) (harm : s.tArm = true)
    (hrem : s.tRem.toInt = (ms : Int)) (hleft : k = 0 ∨ k * p < ms) : ∃ count : BitVec 32,
      execAll (List.replicate k (.tmrTick p)) s = .next { s with tRem := count } ∧
      count.toInt = (ms : Int) - k * p ∧ 0 ≤ (ms : Int) - k * p := by
  have hpos : 0 ≤ (k : Int) * p := by positivity
  have hzero : k = 0 → (k : Int) * p = 0 := fun h => by simp [h]
  have hleft' : k = 0 ∨ (k : Int) * p < ms := hleft.imp_right fun h => by exact_mod_cast h
  have hbound := s.tRem.toInt_lt
  refine ⟨BitVec.ofInt 32 (ms - k * p), ?_, toInt_ofInt32 _ (by omega) (by omega), by omega⟩
  rw [← hrem]
  exact execAll_tmrTick_counts hp k s harm (by omega)

/-- Settles O37: the ticks before the last count down, and the last one fires. -/
theorem timerFiresOnItsTick : Obligations.TimerFiresOnItsTick := by
  intro p ms s hmin hmax harm hrem
  have hp : periodInDomain p = true := (periodInDomain_iff p).2 ⟨by omega, by omega⟩
  obtain ⟨hbefore, hlast⟩ := ticks_left (ms := ms) hmin
  refine ⟨fun k hk => ?_, ?_⟩
  · obtain ⟨count, hrun, hcount, -⟩ := execAll_tmrTick_left hp harm hrem (hbefore k hk)
    exact ⟨_, hrun, harm, hcount, rfl, rfl⟩
  · obtain ⟨k, hk⟩ : ∃ k, max 1 ((ms + p - 1) / p) = k + 1 := ⟨max 1 ((ms + p - 1) / p) - 1, by omega⟩
    obtain ⟨count, hrun, hcount, hnonneg⟩ := execAll_tmrTick_left hp harm hrem (hbefore k (by omega))
    have hdue : (ms : Int) - k * p ≤ p := by
      have hlast' : (ms : Int) ≤ (k + 1 : Nat) * p := by rw [hk] at hlast; exact_mod_cast hlast
      push_cast at hlast'
      linarith
    rw [hk, List.replicate_succ', execAll_append, hrun, andThen_next, execAll_single]
    exact tmrTick_fires_action (s := { s with tRem := count }) hp harm (hnonneg.trans_eq hcount.symm)
      (hcount.trans_le hdue)

end Sys2Proof.Machine

/-!
PROOFS. Statements of 43_command_port.md and 20_memory.md on the queries: the duties, the status lines, the repeated query
and the temperature of the example.
-/

namespace Sys2Proof.Machine

/-! ### The duties -/

theorem exec_qCool (s : State) : exec .qCool s =
    .next (queryReal Ascii.c (F64.mul (F64.ofRatio 100 1) (drawCoolerDuty s).1) (drawCoolerDuty s).2) := by
  rw [← outMax_eq_ofRatio]; rfl

theorem exec_qHeat (s : State) : exec .qHeat s =
    .next (queryReal Ascii.a (F64.mul (F64.ofRatio 100 1) (drawHeaterDuty s).1) (drawHeaterDuty s).2) := by
  rw [← outMax_eq_ofRatio]; rfl

/-- Settles O46: each is a query of a real number, after one draw. -/
theorem dutyQueriesDrawAndReportPercent : Obligations.DutyQueriesDrawAndReportPercent := by
  intro s
  obtain ⟨cool, hcool, hcoolText⟩ :=
    queryReal_emits Ascii.c (F64.mul (F64.ofRatio 100 1) (drawCoolerDuty s).1) (drawCoolerDuty s).2
  obtain ⟨heat, hheat, hheatText⟩ :=
    queryReal_emits Ascii.a (F64.mul (F64.ofRatio 100 1) (drawHeaterDuty s).1) (drawHeaterDuty s).2
  exact ⟨⟨_, cool, firstAnswer_drawn _ _, (exec_qCool s).trans hcool, hcoolText⟩,
    ⟨_, heat, firstAnswer_drawn _ _, (exec_qHeat s).trans hheat, hheatText⟩⟩

/-! ### The status lines -/

theorem exec_qTimer_error {s : State} {why : Unreachable} (h : tmrGetrem s = .error why) :
    exec .qTimer s = .fault (.unreachable why) := by
  change execQTimer s = _
  rw [execQTimer, h]; rfl

/-- A count of at least 0 is the same number signed and unsigned. -/
theorem toNat_eq_of_toInt_eq {x : BitVec 32} {n : Nat} (h : x.toInt = (n : Int)) : x.toNat = n := by
  have hmsb : x.msb = false := by rw [BitVec.msb_eq_toInt, h]; simp
  rw [BitVec.toInt_eq_toNat_of_msb hmsb] at h
  exact_mod_cast h

/-- Settles O47: the remaining time is 0 or the count, as a disarmed or an armed timer answers it. -/
theorem statusQueriesEmitOneLine : Obligations.StatusQueriesEmitOneLine := by
  intro s
  refine ⟨rfl, ⟨_, rfl, Text.number_isInfix_joinFields _ _ _ _ (List.mem_singleton_self _)⟩, fun n hn => ?_,
    fun harm hneg => exec_qTimer_error (tmrGetrem_negative harm hneg)⟩
  obtain ⟨x, hx, rfl⟩ : ∃ x : BitVec 32, tmrGetrem s = .ok x ∧ x.toNat = n := by
    obtain ⟨harm, rfl⟩ | ⟨harm, hcount⟩ := hn
    · exact ⟨0, tmrGetrem_disarmed harm, rfl⟩
    · exact ⟨s.tRem, tmrGetrem_armed harm (by omega), toNat_eq_of_toInt_eq hcount⟩
  exact ⟨_, rfl, exec_qTimer hx, Text.number_isInfix_joinFields _ _ _ _ (List.mem_cons_of_mem _ (List.mem_singleton_self _))⟩

/-! ### A repeated query -/

/-- `t` and `u` each have one line more than the state before, the same line. -/
def RepeatsItsLine (s t u : State) : Prop :=
  ∃ text, t.out = s.out ++ [.line text] ∧ u.out = s.out ++ [.line text, .line text]

/-- The second of two queries with equal fields repeats the line of the first. -/
theorem repeatsItsLine_of_emitQuery (code : Byte) (fields : List Field) {s s' t' : State} (hs : s'.out = s.out)
    (ht : t'.out = (emitQuery code fields s').out) :
    RepeatsItsLine s (emitQuery code fields s') (emitQuery code fields t') := by
  refine ⟨Text.queryText code fields, ?_, ?_⟩
  · rw [emitQuery_eq, hs]
  · rw [emitQuery_eq, ht, emitQuery_eq, hs, List.append_assoc]; rfl

/-- A query that reads registers only, through `fields`, repeats its line: the first one changes the trace alone. -/
theorem repeatsItsLine_of_fields {code : Byte} (fields : State → List Field) {s t u : State}
    (hfields : fields (emitQuery code (fields s) s) = fields s)
    (ht : (.next (emitQuery code (fields s) s) : Outcome) = .next t)
    (hu : (.next (emitQuery code (fields t) t) : Outcome) = .next u) : RepeatsItsLine s t u := by
  injection ht with ht
  injection hu with hu
  rw [← hu, ← ht, hfields]
  exact repeatsItsLine_of_emitQuery code (fields s) rfl rfl

/-- A query of a drawn duty repeats its line when the draw repeats its answer. -/
theorem repeatsItsLine_of_draw {code : Byte} {draw : State → F64 × State} {d : F64} {s t u : State}
    (hout : ∀ s, (draw s).2.out = s.out) (hds : (draw s).1 = d) (hdt : (draw t).1 = d)
    (ht : (.next (queryReal code (F64.mul (F64.ofRatio 100 1) (draw s).1) (draw s).2) : Outcome) = .next t)
    (hu : (.next (queryReal code (F64.mul (F64.ofRatio 100 1) (draw t).1) (draw t).2) : Outcome) = .next u) :
    RepeatsItsLine s t u := by
  injection ht with ht
  injection hu with hu
  rw [← hu, hdt]
  rw [hds] at ht
  have hout' := hout t
  rw [← ht] at hout' ⊢
  exact repeatsItsLine_of_emitQuery code _ (hout s) hout'

/-- Settles O48: a query's line is a function of its fields, and those of registers or equal draws are the same again. -/
theorem queriesChangeNothingAndRepeat : Obligations.QueriesChangeNothingAndRepeat := by
  intro code i s t u hi ht hu
  refine ⟨?_, fun hcool hheat => ?_⟩
  · obtain ⟨text, env, rfl, -⟩ := query_effect hi ht
    rfl
  change RepeatsItsLine s t u
  cases i with
  | qTemp => exact repeatsItsLine_of_fields (fun s => [.number (Text.realField Ascii.t s.fOut)]) rfl ht hu
  | qKp => exact repeatsItsLine_of_fields (fun s => [.number (Text.realField Ascii.p s.pKp)]) rfl ht hu
  | qKi => exact repeatsItsLine_of_fields (fun s => [.number (Text.realField Ascii.i s.pKi)]) rfl ht hu
  | qKd => exact repeatsItsLine_of_fields (fun s => [.number (Text.realField Ascii.d s.pKd)]) rfl ht hu
  | qSp => exact repeatsItsLine_of_fields (fun s => [.number (Text.realField Ascii.g s.pSp)]) rfl ht hu
  | qOnoff => exact repeatsItsLine_of_fields (fun s => [.flag s.pEn]) rfl ht hu
  | qRpm =>
    exact repeatsItsLine_of_fields (fun s => [.number (Text.uintToText s.rRpm.toNat (Text.uintDigits Ascii.r))]) rfl ht hu
  | qTimer =>
    cases hs : tmrGetrem s with
    | error why => rw [exec_qTimer_error hs] at ht; cases ht
    | ok n =>
      rw [exec_qTimer hs] at ht
      have hsame : tmrGetrem t = tmrGetrem s := by injection ht with ht; rw [← ht]; rfl
      rw [exec_qTimer (hsame.trans hs)] at hu
      exact repeatsItsLine_of_fields
        (fun s => [.flag s.tArm, .number (Text.uintToText n.toNat (Text.uintDigits Ascii.m))]) rfl ht hu
  | qCool =>
    obtain ⟨d, rest, hd⟩ := hcool rfl
    rw [exec_qCool] at ht hu
    have hnext : t.env.coolerDuties = d :: rest := by injection ht with ht; rw [← ht]; exact congrArg List.tail hd
    exact repeatsItsLine_of_draw (fun _ => rfl) (firstAnswer_drawn _ _ _ _ hd) (firstAnswer_drawn _ _ _ _ hnext) ht hu
  | qHeat =>
    obtain ⟨d, rest, hd⟩ := hheat rfl
    rw [exec_qHeat] at ht hu
    have hnext : t.env.heaterDuties = d :: rest := by injection ht with ht; rw [← ht]; exact congrArg List.tail hd
    exact repeatsItsLine_of_draw (fun _ => rfl) (firstAnswer_drawn _ _ _ _ hd) (firstAnswer_drawn _ _ _ _ hnext) ht hu
  | _ => exact absurd (queryOf_spec hi).2 (by simp [encode, queryFrame, assignFrame, Ascii.g, Ascii.s])

/-! ### The temperature of the example -/

theorem scaledDecimal_23_4 : Text.scaledDecimal ⟨0x4037666666666666⟩ 1 = 234 := by decide +kernel

/-- 23.4 with one fraction digit, in a field with room for its two integer digits. -/
theorem floatToText_23_4 {w : Nat} (hw : 3 ≤ w) : Text.floatToText ⟨0x4037666666666666⟩ w 1 =
    List.replicate (w - 3) Ascii.space ++ [0x32, 0x33, 0x2C, 0x34] := by
  have hint : Text.digits (234 / 10 ^ 1) = [0x32, 0x33] := by decide
  have hfrac : Text.padLeft 1 Ascii.digit0 (Text.digits (234 % 10 ^ 1)) = [0x34] := by decide
  have hpad : w - 1 - [(0x32 : Byte), 0x33].length = w - 3 := by simp; omega
  rw [Text.floatToText, if_pos (by decide), scaledDecimal_23_4, Text.formatScaled_of_fits _ _ _ (by rw [hint]; exact hw),
    hint, hfrac, Text.padLeft, hpad, if_neg one_ne_zero, List.append_assoc]
  rfl

/-- Settles O49: the answer is the query of a real register, and the text of the example is computed. -/
theorem temperatureAnswerContains23Comma4 : Obligations.TemperatureAnswerContains23Comma4 := by
  refine ⟨fun s hs => ?_, fun w hw => ?_, ?_⟩
  · rw [← hs]
    exact queryReal_emits Ascii.t s.fOut s
  · rw [floatToText_23_4 hw]
    exact ⟨_, [], List.append_nil _⟩
  · exact floatToText_23_4 (Nat.le_refl 3)

end Sys2Proof.Machine

/-!
PROOFS. The statements of 30_encoding.md and 43_command_port.md on numbers and text: what a value string stands for and
rounds to, the length of a formatted field, and how far a field is from the number it shows.
-/

namespace Sys2Proof.Text

open Machine (AreDigits digitsValue)

/-! ### Digits -/

theorem areDigits_iff (ds : List Byte) : AreDigits ds ↔ ds.all Ascii.isDigit = true := by
  simp [AreDigits, Ascii.isDigit, Ascii.digit0, Ascii.digit9]

theorem digitsValue_eq_decimal (ds : List Byte) : digitsValue ds = decimal ds := (decimal_eq_ofDigits ds).symm

/-! ### What a value string stands for -/

theorem numerator_of_digits {ip : List Byte} (h : ip.all Ascii.isDigit = true) : numerator ip = decimal ip := by
  rw [numerator, intDigits_of_digits h, fracDigits_of_digits h, decimal_nil, List.length_nil, pow_zero, Nat.mul_one,
    Nat.add_zero]

/-- Digits, a comma, and bytes whose digits up to a second comma are `fp`. -/
theorem numerator_at_comma {ip fp tail : List Byte} (hip : ip.all Ascii.isDigit = true) (hfp : intDigits tail = fp) :
    numerator (ip ++ Ascii.comma :: tail) = decimal ip * 10 ^ fp.length + decimal fp ∧
      fracDigits (ip ++ Ascii.comma :: tail) = fp := by
  have hfrac : fracDigits (ip ++ Ascii.comma :: tail) = fp := (fracDigits_at_comma tail hip).trans hfp
  exact ⟨by rw [numerator, intDigits_at_comma tail hip, hfrac], hfrac⟩

/-- The value of a string is a nearest one to its decimal number, and an even pattern on a tie. -/
theorem textToFloat_nearest (s : List Byte) (c : F64) (hf : (textToFloat s).isFinite = true) :
    ((textToFloat s).value * 10 ^ (fracDigits s).length - (numerator s : Int) * F64.unitsPerOne).natAbs
      ≤ (c.value * 10 ^ (fracDigits s).length - (numerator s : Int) * F64.unitsPerOne).natAbs ∧
    (((textToFloat s).value * 10 ^ (fracDigits s).length - (numerator s : Int) * F64.unitsPerOne).natAbs
        = (c.value * 10 ^ (fracDigits s).length - (numerator s : Int) * F64.unitsPerOne).natAbs →
      c.value ≠ (textToFloat s).value → (textToFloat s).mag % 2 = 0) := by
  have hnear := F64.roundUnits_nearest false (numerator s * F64.unitsPerOne) (10 ^ (fracDigits s).length)
    (Nat.pow_pos (by norm_num)) _ rfl hf c
  rw [textToFloat, F64.ofRatio]
  simpa only [Bool.false_eq_true, if_false, Nat.cast_mul, Nat.cast_pow, Nat.cast_ofNat] using hnear

/-- Settles O57: the digits between the commas are the parts of the string, and their number is rounded once. -/
theorem textToFloatRoundsExactly : Obligations.TextToFloatRoundsExactly := by
  refine ⟨fun ip fp rest hip hfp => ?_, fun s c _ hf _ => textToFloat_nearest s c hf⟩
  rw [areDigits_iff] at hip hfp
  rw [digitsValue_eq_decimal, digitsValue_eq_decimal]
  refine ⟨⟨numerator_of_digits hip, by rw [fracDigits_of_digits hip, List.length_nil]⟩, fun s hs => ?_⟩
  obtain ⟨tail, rfl, htail⟩ : ∃ tail, s = ip ++ Ascii.comma :: tail ∧ intDigits tail = fp := by
    simp only [List.mem_cons, List.not_mem_nil, or_false] at hs
    obtain rfl | rfl := hs
    · exact ⟨fp, rfl, intDigits_of_digits hfp⟩
    · exact ⟨fp ++ Ascii.comma :: rest, by rw [List.append_assoc]; rfl, intDigits_at_comma rest hfp⟩
  obtain ⟨hnum, hfrac⟩ := numerator_at_comma hip htail
  exact ⟨hnum, by rw [hfrac]⟩

/-- A number of at most seven characters rounds to no more than the largest of them (R75). -/
theorem mag_textToFloat_le {s : List Byte} (h : s.all Ascii.isValueByte = true) (h7 : s.length ≤ 7) :
    (textToFloat s).mag ≤ (F64.ofRatio 9999999 1).mag := by
  have hmax : F64.unitsOf (F64.ofRatio 9999999 1).mag = 9999999 * F64.unitsPerOne := by decide +kernel
  have hle : numerator s * F64.unitsPerOne ≤ F64.unitsOf (F64.ofRatio 9999999 1).mag * 10 ^ (fracDigits s).length := by
    rw [hmax, Nat.mul_right_comm]
    exact Nat.mul_le_mul_right _ (numerator_le s h h7)
  rw [textToFloat, F64.ofRatio, F64.mag_roundUnits]
  exact (Nat.min_le_right _ _).trans (F64.roundMag_le_of_le _ _ _ (Nat.pow_pos (by norm_num)) hle)

/-- Settles O58: a parsed value has no sign, and its magnitude is at most that of 9999999.0. -/
theorem textToFloatStaysInRange : Obligations.TextToFloatStaysInRange := by
  intro s h h7
  have hmag := mag_textToFloat_le h h7
  have hsign : (textToFloat s).sign = false := F64.sign_roundUnits _ _ _
  have hfinite : (F64.ofRatio 9999999 1).mag < F64.infMag := by decide +kernel
  refine ⟨hsign, decide_eq_true (Nat.lt_of_le_of_lt hmag hfinite), Machine.zero_le_textToFloat s, ?_⟩
  rw [F64.le_iff_of_not_nan (isNaN_textToFloat s) (F64.isNaN_ofRatio _ _), F64.key_of_sign_false hsign,
    F64.key_of_sign_false (x := F64.ofRatio 9999999 1) (F64.sign_roundUnits _ _ _)]
  exact Int.ofNat_le.2 hmag

/-! ### Formatted fields -/

theorem floatToText_of_nonneg {x : F64} (w f : Nat) (hf : x.isFinite = true) (h : F64.le ⟨0⟩ x = true) :
    floatToText x w f = formatScaled (scaledDecimal x f) w f := by
  obtain ⟨-, hs⟩ := (F64.zero_le_iff x).1 h
  refine if_pos ?_
  simpa [formattable, hf, F64.isZero] using hs

/-- The fraction digits of a number, padded, are `f` digits that stand for it. -/
theorem fracField_spec {n f : Nat} (hf : f ≠ 0) :
    (padLeft f Ascii.digit0 (digits (n % 10 ^ f))).length = f ∧
    (padLeft f Ascii.digit0 (digits (n % 10 ^ f))).all Ascii.isDigit = true ∧
    decimal (padLeft f Ascii.digit0 (digits (n % 10 ^ f))) = n % 10 ^ f := by
  have hlt : n % 10 ^ f < 10 ^ f := Nat.mod_lt _ (Nat.pow_pos (by norm_num))
  exact ⟨length_padLeft _ _ _ (length_digits_le (Nat.pos_of_ne_zero hf) hlt), padLeft_isDigit f (digits_isDigit _),
    by rw [padLeft, decimal_replicate_zero, decimal_digits]⟩

theorem length_formatScaled (n f : Nat) {w : Nat} (hw : 2 ≤ w) :
    (formatScaled n w f).length = if f = 0 then w else w + f := by
  rcases Nat.lt_or_ge (digits (n / 10 ^ f)).length w with h | h
  · rw [formatScaled_of_fits n w f h, List.length_append, length_padLeft _ _ _ (by omega)]
    split_ifs with hf
    · rw [List.length_singleton]; omega
    · rw [List.length_cons, (fracField_spec hf).1]; omega
  · rw [formatScaled_of_overflow n w f h, List.length_append, List.length_replicate]
    split_ifs with hf
    · rw [List.length_singleton]; omega
    · rw [List.length_cons, List.length_replicate]; omega

theorem length_floatToText (x : F64) (f : Nat) {w : Nat} (hw : 2 ≤ w) :
    (floatToText x w f).length = if f = 0 then w else w + f := by
  by_cases hx : formattable x = true
  · rw [floatToText, if_pos hx, length_formatScaled _ f hw]
  · rw [floatToText, if_neg hx, ascii, List.length_map, List.length_map, List.length_range, fieldLength]

/-- From `10^(w-1)` on the integer part has no room in `w` characters. -/
theorem floatToText_saturated {x : F64} {w f : Nat} (hw : 2 ≤ w) (hf : x.isFinite = true) (h : F64.le ⟨0⟩ x = true)
    (hbig : 10 ^ (w - 1 + f) ≤ scaledDecimal x f) : floatToText x w f =
      List.replicate (w - 1) 0x39 ++ if f = 0 then [0x20] else 0x2C :: List.replicate f 0x39 := by
  have hint : 10 ^ (w - 1) ≤ scaledDecimal x f / 10 ^ f := by
    rw [Nat.le_div_iff_mul_le (Nat.pow_pos (by norm_num)), ← pow_add]
    exact hbig
  have hlen := lt_length_digits hint
  rw [floatToText_of_nonneg w f hf h, formatScaled_of_overflow _ _ _ (by omega)]
  rfl

theorem uintToText_overflow {n count : Nat} (h : 10 ^ count ≤ n) : uintToText n count = [0x58, 0x58, 0x58] := by
  rw [uintToText, if_pos h]; rfl

theorem uintToText_fits {n count : Nat} (h : n < 10 ^ count) :
    uintToText n count = padLeft count Ascii.digit0 (digits n) := if_neg (Nat.not_le.2 h)

/-- Settles O59: both forms of a field have its length, and the statement's threshold is that of the scaled decimal. -/
theorem formattedFieldsHaveTheirLength : Obligations.FormattedFieldsHaveTheirLength := by
  refine ⟨fun x w f hw => length_floatToText x f hw, fun x w f hw hf h hbig => ?_, fun n count hcount => ?_⟩
  · refine floatToText_saturated hw hf h ((le_scaledDecimal_iff _ _ _).2 ?_)
    rw [F64.value_of_nonneg h] at hbig
    exact_mod_cast hbig
  · refine ⟨uintToText_overflow, fun hn => ?_⟩
    rw [uintToText_fits hn, areDigits_iff, digitsValue_eq_decimal, padLeft, decimal_replicate_zero, decimal_digits, ← padLeft]
    exact ⟨length_padLeft _ _ _ (length_digits_le hcount hn), padLeft_isDigit _ (digits_isDigit n), rfl⟩

/-! ### A field read back -/

/-- What a field with room shows without its spaces: the digits of the integer part and, after a comma, `f` digits. -/
def shownNumber (n f : Nat) : List Byte :=
  digits (n / 10 ^ f) ++ if f = 0 then [] else Ascii.comma :: padLeft f Ascii.digit0 (digits (n % 10 ^ f))

theorem isValueByte_of_digits {ds : List Byte} (h : ds.all Ascii.isDigit = true) : ds.all Ascii.isValueByte = true :=
  List.all_eq_true.2 fun b hb => isValueByte_of_isDigit (List.all_eq_true.1 h b hb)

theorem shownNumber_isValueByte (n f : Nat) : (shownNumber n f).all Ascii.isValueByte = true := by
  rw [shownNumber, List.all_append, isValueByte_of_digits (digits_isDigit _), Bool.true_and]
  split_ifs with hf
  · rfl
  · rw [List.all_cons, isValueByte_of_digits (fracField_spec hf).2.1]; rfl

/-- The number shown is the scaled decimal, over `10^f`. -/
theorem shownNumber_parts (n f : Nat) :
    numerator (shownNumber n f) = n ∧ (fracDigits (shownNumber n f)).length = f := by
  have hip := digits_isDigit (n / 10 ^ f)
  rw [shownNumber]
  split_ifs with hf
  · rw [List.append_nil, numerator_of_digits hip, fracDigits_of_digits hip, decimal_digits, hf]
    simp
  · obtain ⟨hlen, hdigits, hvalue⟩ := fracField_spec (n := n) hf
    obtain ⟨hnum, hfrac⟩ := numerator_at_comma hip (intDigits_of_digits hdigits)
    rw [hnum, hfrac, hlen, hvalue, decimal_digits, Nat.mul_comm, Nat.div_add_mod]
    exact ⟨rfl, rfl⟩

theorem filter_space_of_valueBytes {s : List Byte} (h : s.all Ascii.isValueByte = true) :
    s.filter (fun b => b != 0x20) = s := by
  refine List.filter_eq_self.2 fun b hb => ?_
  have hvalue := List.all_eq_true.1 h b hb
  rw [bne_iff_ne]
  rintro rfl
  exact absurd hvalue (by decide)

/-- Without its spaces a field with room is the number that it shows. -/
theorem filter_formatScaled {n w f : Nat} (h : (digits (n / 10 ^ f)).length < w) :
    (formatScaled n w f).filter (fun b => b != 0x20) = shownNumber n f := by
  have hspaces : ∀ k, (List.replicate k Ascii.space).filter (fun b => b != 0x20) = [] := by
    intro k
    rw [List.filter_replicate, if_neg (by decide)]
  have hend : (if f = 0 then [Ascii.space] else Ascii.comma :: padLeft f Ascii.digit0 (digits (n % 10 ^ f))).filter
      (fun b => b != 0x20) = if f = 0 then [] else Ascii.comma :: padLeft f Ascii.digit0 (digits (n % 10 ^ f)) := by
    split_ifs with hf
    · rfl
    · refine filter_space_of_valueBytes ?_
      rw [List.all_cons, isValueByte_of_digits (fracField_spec hf).2.1]; rfl
  rw [formatScaled_of_fits n w f h, padLeft, List.filter_append, List.filter_append, hspaces, List.nil_append, hend,
    filter_space_of_valueBytes (isValueByte_of_digits (digits_isDigit _)), shownNumber]

/-- Settles O60: the field shows the scaled decimal, which is a nearest integer to the scaled value. -/
theorem formattedFieldParsesWithinItsResolution : Obligations.FormattedFieldParsesWithinItsResolution := by
  intro x w f text _ hf h hroom htext
  rw [floatToText_of_nonneg w f hf h, filter_formatScaled hroom] at htext
  obtain ⟨hnum, hfrac⟩ := shownNumber_parts (scaledDecimal x f) f
  rw [htext, hnum]
  exact ⟨shownNumber_isValueByte _ _, hfrac, scaledDecimal_near f x (F64.value_of_nonneg h)⟩

end Sys2Proof.Text
